-- ==== Sys2Proof/Word.lean ====
section
/-! DEFINITION. The word types of the PABLI core: the 32-bit word of the command register and of the
bus (R13, R90), and the 32-bit pattern that is a `num` under `NUM = B32` (R8, R69). -/

namespace Sys2Proof

/-- A 32-bit word: a command, or the bus word of an integer register (R69, R90). -/
abbrev Word := BitVec 32

/-- A `num` under `NUM = B32`: its IEEE 754 binary32 bit pattern (R8, R69). -/
abbrev B32 := BitVec 32

end Sys2Proof
end

