-- ==== Sys2Proof/Config.lean ====
section
/-! DEFINITION. What one implementation fixes (R6, R7): the parameters, the literals as rationals, and the
contents that the spec leaves to the configuration or leaves unspecified, as constants without a value. -/

namespace Sys2Proof.Config

/-- `P`: entries of a table per output sample (R6). -/
abbrev phaseCount : Nat := 64
/-- `L_STEP`: strides of a step pulse (R6). -/
abbrev lStep : Nat := 72
/-- `L_SLOPE`: strides of a slope pulse (R6). -/
abbrev lSlope : Nat := 71
/-- `LMAX`: the longer of the two pulses (R6). -/
abbrev lMax : Nat := 72
/-- `DD`: how far ahead of the cursor the ideal value is deposited (R6). -/
abbrev depositDelay : Nat := 4
/-- `FILLEN`: the non-tail length of the correction buffer (R6). -/
abbrev fillLen : Nat := 256
/-- `BUFLEN = FILLEN + LMAX` (R6). -/
abbrev bufLen : Nat := 328
/-- `CHUNK`: samples that share one pair of ramp increments (R6). -/
abbrev chunk : Nat := 16
/-- `NMAX`: words of each sample RAM, and the longest block (R6). -/
abbrev nMax : Nat := 1024
/-- Entries of `STEP_ROM`, `P * L_STEP` (R7). -/
abbrev stepEntries : Nat := 4608
/-- Entries of `SLOPE_ROM`, `P * L_SLOPE + 1` (R7). -/
abbrev slopeEntries : Nat := 4545

/-- `WMIN` (R6). -/
def wMin : Rat := 1 / 100000
/-- `WMAX` (R6). -/
def wMax : Rat := 1 / 2
/-- `EPS`, the sync sentinel (R6). -/
def eps : Rat := 1 / 100000000000000000000
/-- `A0` (R6). -/
def a0 : Rat := 1 / 5
/-- `A1` (R6). -/
def a1 : Rat := 4 / 5

/-- The configured contents of the two table ROMs under `NUM = EXACT`, by byte address: a parameter with no
property at all (R7, U1). Log 4. -/
opaque romExact : Nat → Rat
/-- The configured contents of the two table ROMs under `NUM = B32`, by byte address (R7, U1). Log 4. -/
opaque romB32 : Nat → B32
/-- What a sample RAM word holds after a hardware reset and until it is written, under `NUM = EXACT`: a free
value (R47, U9), by the number of hardware resets so far and the byte address. Log 3. -/
opaque ramExact : Nat → Nat → Rat
/-- The same under `NUM = B32` (R47, U9). Log 3. -/
opaque ramB32 : Nat → Nat → B32

/-- The identity string of an EXACT core (R2). -/
def identityExact : String := "PABLI-1 / NUM=EXACT / P64-S72-L71-D4-F256-C16"
/-- The identity string of a B32 core (R2). -/
def identityB32 : String := "PABLI-1 / NUM=B32 / P64-S72-L71-D4-F256-C16"

end Sys2Proof.Config
end

