-- ==== Sys2Proof/Syntax.lean ====
section
/-! DEFINITION. The twenty commands of the opcode map (R93) with their operands (R92), the shape codes (R3) and the
error codes by name (R202). -/

namespace Sys2Proof

/-- The waveform shapes (R3): code 0 `SAW`, 1 `RECT`, 2 `TRI`. -/
inductive Shape where
  | saw
  | rect
  | tri
deriving DecidableEq, Repr

/-- The causes of `raise ERR(code)` (R202). -/
inductive ErrCode where
  /-- code 1: `cmd[31:24]` is not one of the twenty opcodes -/
  | illegalOpcode
  /-- code 2: a reserved bit of the command's format is 1, or `RESET` with `shape = 3` -/
  | reservedField
  /-- code 3: an operand is out of range -/
  | range
  /-- code 4: host write of an illegal value to `CTRL`, `J` or `FLAGS` -/
  | badRegValue
  /-- code 5: host access misaligned, of another width than 4, unmapped, or a write to a ROM -/
  | bus
deriving DecidableEq, Repr

/-- One constructor per row of the opcode map (R93). `idx` and `n` are `cmd[15:0]`, `cnt` is `cmd[23:16]`,
`shape` is `cmd[1:0]` (R91, R92). -/
inductive Instr where
  /-- R130 -/
  | nop
  /-- R131 -/
  | reset (shape : Shape)
  /-- R132 -/
  | run (n : BitVec 16)
  /-- R135 -/
  | boot (idx : BitVec 16)
  /-- R136 -/
  | smooth (cnt : BitVec 8) (idx : BitVec 16)
  /-- R142 -/
  | tick (idx : BitVec 16)
  /-- R138 -/
  | adv
  /-- R139 -/
  | dep
  /-- R140 -/
  | rds (idx : BitVec 16)
  /-- R141 -/
  | rot
  /-- R137 -/
  | ramp
  /-- R134 -/
  | coef
  /-- R114 -/
  | injs
  /-- R115 -/
  | injl
  /-- R162 -/
  | dets (idx : BitVec 16)
  /-- R163 -/
  | detr (idx : BitVec 16)
  /-- R164 -/
  | dett (idx : BitVec 16)
  /-- R182 -/
  | syns (idx : BitVec 16)
  /-- R183 -/
  | synr (idx : BitVec 16)
  /-- R184 -/
  | synt (idx : BitVec 16)
deriving DecidableEq, Repr

end Sys2Proof
end

