-- ==== Sys2Proof/Machine/State.lean ====
section
/-! DEFINITION. The state of one instance of the core (10_state.md) and of the host that drives it, the reasons a step can
stop, and the state right after a hardware reset (R47, R230). Plain data. -/

namespace Sys2Proof.Machine

/-- Why the machine stops (the spec gives it no error stop of its own, R200, R205). -/
inductive Fault where
  /-- Raised by the step when the host's next move is an access other than a read of `STATUS` while `BUSY = 1`. The
  spec gives the model no such step (R236, U8). Safe: nothing can be proved of what follows. No state that the machine
  reaches has `BUSY = 1` between two steps. Log 10. -/
  | hostAccessWhileBusy
deriving DecidableEq, Repr

/-- Why a command or access has no meaning in the model. -/
inductive Refusal where
  /-- An instruction whose arm in exec gives it no meaning yet. Safe. -/
  | notModelled (mnemonic : String)
  /-- Raised by the divisions of the datapath: the spec says a command whose rule would divide by zero has no meaning
  (U4, U6, U7). Safe. Log 6. -/
  | divideByZero
  /-- Raised under `NUM = B32` by every operation that reads an infinity or a NaN: the spec says a command that reads a
  non-finite word has no meaning (U3). Safe. Log 5. -/
  | nonFinite
  /-- Raised under `NUM = B32` when an operation overflows to infinity, which the spec refuses (U10). Safe. Log 7. -/
  | overflow
  /-- Raised under `NUM = EXACT` by a host write of a 32-bit word to a `num` location, or of a rational to an integer
  register: the spec's bus has no such value there (R70). Safe. Log 11. -/
  | busWordKind
deriving DecidableEq, Repr

/-- The two values of `EDGE` (R16, R26): `A = 0`, `B = 1`. -/
inductive Edge where
  | a
  | b
deriving DecidableEq, Repr

/-- A value on the bus (R69, R70): a 32-bit word, or under `NUM = EXACT` the rational of a `num` location. -/
inductive BusWord (Num : Type) where
  | word (w : Word)
  | num (x : Num)
deriving DecidableEq, Repr

/-- A move of the host (R17): a bus access at a byte offset of the 0x40000-byte window (R60) with a width in bytes
(R62), or the reset input (R230). -/
inductive HostMove (Num : Type) where
  /-- `MemRead(addr, width)` (R15) -/
  | read (addr : BitVec 18) (width : Nat)
  /-- `MemWrite(addr, width, value)` (R15) -/
  | write (addr : BitVec 18) (width : Nat) (value : BusWord Num)
  /-- the reset input, outside the window (R230) -/
  | hwReset
deriving DecidableEq, Repr

/-- The words of `BUF`, the sample RAMs and the ROMs (R61) as pairs of a byte address and the word there. An address that
is not listed reads as its region's initial contents (Machine/Ops.lean `unlistedWord`). Log 9. -/
abbrev Memory (Num : Type) := List (Nat × Num)

/-- One instance of the core, and its host, over the number type of its configuration (R8, R20). -/
structure Pabli (Num : Type) where
  /-- `PHASE` (R22) -/
  phase : Num
  /-- `W`, the phase increment (R24) -/
  w : Num
  /-- `DUTY` (R25) -/
  duty : Num
  /-- `LASTV`, the last ideal value (R27) -/
  lastv : Num
  /-- `Z`, the filter state (R28) -/
  z : Num
  /-- `A`, the filter coefficient (R31) -/
  a : Num
  /-- `DW`, the per-sample increment of `W` (R31) -/
  dw : Num
  /-- `DB`, the per-sample increment of `DUTY` (R31) -/
  db : Num
  /-- `OPA`, the offset operand of INJS and INJL (R32) -/
  opa : Num
  /-- `OPB`, the magnitude operand of INJS and INJL (R32) -/
  opb : Num
  /-- `J`, the buffer cursor, `0 .. FILLEN-1` (R29, R40). Log 14. -/
  j : Fin Config.fillLen
  /-- `EDGE` (R26) -/
  edge : Edge
  /-- `INIT` (R30) -/
  init : Bool
  /-- `SHAPE` (R42) -/
  shape : Shape
  /-- `CTRL.FREQ_CONN` (R36) -/
  freqConn : Bool
  /-- `FSAMP` (R37) -/
  fsamp : Num
  /-- `LOWPASS` (R38) -/
  lowpass : Num
  /-- `DEFFREQ` (R39) -/
  deffreq : Num
  /-- `STATUS.BUSY` (R35) -/
  busy : Bool
  /-- `STATUS.ERR` (R35, R201) -/
  err : Bool
  /-- `STATUS.ERRCODE` (R35, R202) -/
  errcode : BitVec 4
  /-- `BUF`, the five sample RAMs and the two table ROMs (R29, R44, R45, R61) -/
  mem : Memory Num
  /-- The model's own: how many hardware resets there were, which names the free power-up contents of the sample
  RAMs (U9). Log 3. -/
  powerOns : Nat
  /-- The model's own: the moves the host is still to make, oldest first (R17). Log 2. -/
  host : List (HostMove Num)
  /-- The model's own: what the host's last `MemRead` returned (R15). Log 2. -/
  lastRead : Option (BusWord Num)
deriving DecidableEq, Repr

/-- An instance in one of the two numeric configurations (R8). The configuration is fixed for the instance. -/
inductive Configured where
  /-- `NUM = EXACT` -/
  | exact (p : Pabli Rat)
  /-- `NUM = B32` -/
  | b32 (p : Pabli B32)
deriving DecidableEq, Repr

/-- The state of the machine. -/
structure State where
  core : Configured
deriving DecidableEq, Repr

/-- The state right after hardware reset (R47, R230), over any number type: oscillator state zero, `FSAMP = 1.0`,
shape SAW, nothing listed in memory. -/
def resetPabli (Num : Type) (zero one : Num) : Pabli Num where
  phase := zero
  w := zero
  duty := zero
  lastv := zero
  z := zero
  a := zero
  dw := zero
  db := zero
  opa := zero
  opb := zero
  j := 0
  edge := .a
  init := false
  shape := .saw
  freqConn := false
  fsamp := one
  lowpass := zero
  deffreq := zero
  busy := false
  err := false
  errcode := 0
  mem := []
  powerOns := 0
  host := []
  lastRead := none

/-- The state right after hardware reset (R47) of an EXACT core, the spec's reference semantics (R8). DESIGN CHOICE,
log 1: the spec leaves `NUM` open; `State.resetB32` is the other configuration's. -/
def State.reset : State := ⟨.exact (resetPabli Rat 0 1)⟩

/-- The state right after hardware reset (R47) of a B32 core: `1.0` is the word `0x3F800000` (R63). -/
def State.resetB32 : State := ⟨.b32 (resetPabli B32 0x00000000#32 0x3F800000#32)⟩

end Sys2Proof.Machine
end

