-- ==== Sys2Proof/Machine/Num.lean ====
section
/-! DEFINITION. The numeric configurations (R8): the operations on `num` that the rules use, for `NUM = EXACT`
(`exactOps`) and `NUM = B32` (`b32Ops`), with `rne` and `i2n` (R11) and `clamp` (R10). Every infix operation of a rule is one
call of one of these, in the written order (R8). -/

namespace Sys2Proof.Machine

/-- What one numeric configuration gives (R8): its literals, its operations, the contents it leaves open, and how
its `num`s travel on the bus (R69, R70). An operation answers a refusal where the spec gives the command no meaning
(U3, U6, U10). -/
structure NumOps (Num : Type) where
  zero : Num
  one : Num
  half : Num
  negHalf : Num
  negOne : Num
  eps : Num
  wMin : Num
  wMax : Num
  a0 : Num
  a1 : Num
  /-- a command's read of a word that it only moves (U3) -/
  read : Num → Except Refusal Num
  /-- unary minus -/
  neg : Num → Num
  add : Num → Num → Except Refusal Num
  sub : Num → Num → Except Refusal Num
  mul : Num → Num → Except Refusal Num
  div : Num → Num → Except Refusal Num
  /-- `x < y` (R9) -/
  lt : Num → Num → Except Refusal Bool
  /-- `x >= y` (R9) -/
  ge : Num → Num → Except Refusal Bool
  rne : Num → Except Refusal Int
  i2n : Int → Except Refusal Num
  /-- is this word the one that an unlisted `BUF` cell reads as -/
  isZero : Num → Bool
  /-- configured ROM contents by byte address (R7) -/
  rom : Nat → Num
  /-- sample RAM contents after the given number of hardware resets, by byte address (R47, U9) -/
  ram : Nat → Nat → Num
  /-- the `num` that a bus word carries to a `num` location -/
  numOfBus : BusWord Num → Option Num
  /-- the 32-bit word that a bus word carries to an integer register -/
  wordOfBus : BusWord Num → Option Word
  /-- the bus word of a `num` -/
  busOfNum : Num → BusWord Num

/-- `rne` on exact values (R11): the nearest integer, a tie to the even one. -/
def rneRat (x : Rat) : Int :=
  if x - x.floor < 1 / 2 then x.floor
  else if 1 / 2 < x - x.floor then x.floor + 1
  else if x.floor % 2 = 0 then x.floor
  else x.floor + 1

/-! ## NUM = EXACT -/

/-- Exact division; a zero divisor has no meaning (U6). -/
def exactDiv (x y : Rat) : Except Refusal Rat :=
  if y = 0 then .error .divideByZero else .ok (x / y)

/-- Under EXACT the bus word of a `num` location is the rational itself (R70). -/
def exactNumOfBus : BusWord Rat → Option Rat
  | .word _ => none
  | .num x => some x

/-- Under EXACT an integer register's bus word is a 32-bit word (R70). -/
def exactWordOfBus : BusWord Rat → Option Word
  | .word w => some w
  | .num _ => none

/-- `NUM = EXACT`: the rationals, every operation exact (R8). -/
def exactOps : NumOps Rat where
  zero := 0
  one := 1
  half := 1 / 2
  negHalf := -1 / 2
  negOne := -1
  eps := Config.eps
  wMin := Config.wMin
  wMax := Config.wMax
  a0 := Config.a0
  a1 := Config.a1
  read x := .ok x
  neg x := -x
  add x y := .ok (x + y)
  sub x y := .ok (x - y)
  mul x y := .ok (x * y)
  div := exactDiv
  lt x y := .ok (decide (x < y))
  ge x y := .ok (decide (y ≤ x))
  rne x := .ok (rneRat x)
  i2n k := .ok (k : Rat)
  isZero x := decide (x = 0)
  rom := Config.romExact
  ram := Config.ramExact
  numOfBus := exactNumOfBus
  wordOfBus := exactWordOfBus
  busOfNum x := .num x

/-! ## NUM = B32 -/

/-- `2 ^ e` as a rational. -/
def pow2 (e : Int) : Rat :=
  if 0 ≤ e then ((2 ^ e.toNat : Nat) : Rat) else 1 / ((2 ^ (-e).toNat : Nat) : Rat)

/-- The sign bit, bit 31 (R69). -/
def b32Sign (x : B32) : Bool := x.getLsbD 31

/-- The exponent field, bits 30:23 (R69). -/
def b32Expo (x : B32) : Nat := (x.extractLsb' 23 8).toNat

/-- The fraction field, bits 22:0 (R69). -/
def b32Frac (x : B32) : Nat := (x.extractLsb' 0 23).toNat

/-- Finite: the exponent field is not all ones (R69). -/
def b32Finite (x : B32) : Bool := decide (b32Expo x ≠ 255)

/-- The absolute value of a finite word; a zero exponent field is a subnormal or zero (R8: subnormals are kept). -/
def b32Magnitude (x : B32) : Rat :=
  if b32Expo x = 0 then (b32Frac x : Rat) * pow2 (-149)
  else ((2 ^ 23 + b32Frac x : Nat) : Rat) * pow2 ((b32Expo x : Int) - 150)

/-- The value of a finite word. -/
def b32Value (x : B32) : Rat := if b32Sign x then -b32Magnitude x else b32Magnitude x

/-- The `e` with `2 ^ e <= q < 2 ^ (e + 1)`, for `q > 0`. -/
def floorLog2 (q : Rat) : Int :=
  if pow2 ((Nat.log2 q.num.natAbs : Int) - (Nat.log2 q.den : Int)) ≤ q
  then (Nat.log2 q.num.natAbs : Int) - (Nat.log2 q.den : Int)
  else (Nat.log2 q.num.natAbs : Int) - (Nat.log2 q.den : Int) - 1

/-- The binary32 word of a sign and the 31 bits below it. -/
def b32Word (sign : Bool) (low : Nat) : B32 := BitVec.ofNat 32 ((if sign then 2 ^ 31 else 0) + low)

/-- The exponent of the binade a positive rational is rounded in: not below that of the subnormals. -/
def b32Binade (q : Rat) : Int := max (floorLog2 q) (-126)

/-- The 31 bits of a positive rational rounded to nearest, ties to even, before the check for overflow: a carry out of
the fraction goes into the exponent field. -/
def b32Low (q : Rat) : Nat :=
  ((b32Binade q + 126) * 2 ^ 23 + rneRat (q / pow2 (b32Binade q - 23))).toNat

/-- The absolute value of a rational. -/
def ratAbs (q : Rat) : Rat := if q < 0 then -q else q

/-- One IEEE rounding to binary32, to nearest, ties to even (R8). `zeroSign` is the sign of an exact zero. A result
that overflows to infinity has no meaning (U10). -/
def b32Round (zeroSign : Bool) (q : Rat) : Except Refusal B32 :=
  if q = 0 then .ok (b32Word zeroSign 0)
  else if b32Low (ratAbs q) < 0x7F800000 then .ok (b32Word (decide (q < 0)) (b32Low (ratAbs q)))
  else .error .overflow

/-- A read of a word by a command; a non-finite one has no meaning (U3). -/
def b32Read (x : B32) : Except Refusal B32 :=
  if b32Finite x then .ok x else .error .nonFinite

/-- Both operands are read before an operation (U3). -/
def b32Both {β : Type} (x y : B32) (r : Except Refusal β) : Except Refusal β :=
  if b32Finite x && b32Finite y then r else .error .nonFinite

/-- Unary minus: the sign bit flips (log 12). -/
def b32Neg (x : B32) : B32 := x ^^^ 0x80000000#32

/-- IEEE addition: an exact zero is `-0` only when both operands are negative (log 12). -/
def b32Add (x y : B32) : Except Refusal B32 :=
  b32Both x y (b32Round (b32Sign x && b32Sign y) (b32Value x + b32Value y))

/-- IEEE subtraction. -/
def b32Sub (x y : B32) : Except Refusal B32 :=
  b32Both x y (b32Round (b32Sign x && !b32Sign y) (b32Value x - b32Value y))

/-- IEEE multiplication: the sign of a zero is the exclusive or of the signs (log 12). -/
def b32Mul (x y : B32) : Except Refusal B32 :=
  b32Both x y (b32Round (b32Sign x != b32Sign y) (b32Value x * b32Value y))

/-- IEEE division; a zero divisor has no meaning (U6). -/
def b32Div (x y : B32) : Except Refusal B32 :=
  b32Both x y
    (if b32Value y = 0 then .error .divideByZero
     else b32Round (b32Sign x != b32Sign y) (b32Value x / b32Value y))

/-- `x < y` on finite values, `-0 = +0` (R9). -/
def b32Lt (x y : B32) : Except Refusal Bool := b32Both x y (.ok (decide (b32Value x < b32Value y)))

/-- `x >= y` on finite values (R9). -/
def b32Ge (x y : B32) : Except Refusal Bool := b32Both x y (.ok (decide (b32Value y ≤ b32Value x)))

/-- `rne` of a finite word: an unbounded integer (R11, D44). Log 13. -/
def b32Rne (x : B32) : Except Refusal Int :=
  if b32Finite x then .ok (rneRat (b32Value x)) else .error .nonFinite

/-- `i2n`: the integer rounded to nearest even (R11). -/
def b32OfInt (k : Int) : Except Refusal B32 := b32Round false (k : Rat)

/-- Under B32 a `num` and its bus word are the same 32 bits (R69). -/
def b32OfBus : BusWord B32 → Option B32
  | .word w => some w
  | .num x => some x

/-- `NUM = B32`: IEEE 754 binary32 (R8). Each literal is the nearest binary32 word: `EPS` 0x1E3CE508 (R161), `WMIN`
0x3727C5AC, `A0` 0x3E4CCCCD, `A1` 0x3F4CCCCD (log 12). -/
def b32Ops : NumOps B32 where
  zero := 0x00000000#32
  one := 0x3F800000#32
  half := 0x3F000000#32
  negHalf := 0xBF000000#32
  negOne := 0xBF800000#32
  eps := 0x1E3CE508#32
  wMin := 0x3727C5AC#32
  wMax := 0x3F000000#32
  a0 := 0x3E4CCCCD#32
  a1 := 0x3F4CCCCD#32
  read := b32Read
  neg := b32Neg
  add := b32Add
  sub := b32Sub
  mul := b32Mul
  div := b32Div
  lt := b32Lt
  ge := b32Ge
  rne := b32Rne
  i2n := b32OfInt
  isZero x := decide (x = 0x00000000#32)
  rom := Config.romB32
  ram := Config.ramB32
  numOfBus := b32OfBus
  wordOfBus := b32OfBus
  busOfNum x := .word x

/-! ## Both -/

/-- `clamp(x, lo, hi)`, the lower test first (R10). -/
def clamp {Num : Type} (N : NumOps Num) (x lo hi : Num) : Except Refusal Num := do
  if ← N.lt x lo then .ok lo
  else if ← N.lt hi x then .ok hi
  else .ok x

end Sys2Proof.Machine
end

