-- ==== Sys2Proof/Machine/Ops.lean ====
section
/-! DEFINITION. The named operations over memory and state: the address map (R61), reading and writing one word, the
buffer cells, raising an error (R201) and clearing it (R35), and running a command's rule in the configuration the
state is in. -/

namespace Sys2Proof.Machine

/-! ## The address map (R61) -/

/-- The memories of the window (R61). -/
inductive Region where
  | buf
  | freqIn
  | syncIn
  | dutyIn
  | audioOut
  | syncOut
  | stepRom
  | slopeRom
deriving DecidableEq, Repr

/-- The byte offset of a region's first word (R61). -/
def regionBase : Region → Nat
  | .buf => 0x00800
  | .freqIn => 0x01000
  | .syncIn => 0x02000
  | .dutyIn => 0x03000
  | .audioOut => 0x04000
  | .syncOut => 0x05000
  | .stepRom => 0x10000
  | .slopeRom => 0x20000

/-- How many words a region has (R61). -/
def regionWords : Region → Nat
  | .buf => 328
  | .freqIn => 1024
  | .syncIn => 1024
  | .dutyIn => 1024
  | .audioOut => 1024
  | .syncOut => 1024
  | .stepRom => 9216
  | .slopeRom => 4545

/-- The byte offset of word `i` of a region (R61). -/
def wordAddr (r : Region) (i : Nat) : Nat := regionBase r + 4 * i

/-- Is the address inside the region (R61)? -/
def inRegion (r : Region) (addr : Nat) : Bool :=
  decide (regionBase r ≤ addr) && decide (addr < regionBase r + 4 * regionWords r)

/-- `BUF[k]` (R61). -/
def bufAddr (k : Nat) : Nat := wordAddr .buf k

/-- `STEP[e].value` (R61). -/
def stepValueAddr (e : Nat) : Nat := 0x10000 + 8 * e

/-- `STEP[e].delta` (R61). -/
def stepDeltaAddr (e : Nat) : Nat := 0x10004 + 8 * e

/-- `SLOPE[e]` (R61). -/
def slopeAddr (e : Nat) : Nat := wordAddr .slopeRom e

/-- Is the address in `BUF`? -/
def isBufAddr (addr : Nat) : Bool := inRegion .buf addr

/-- Is the address in one of the two read-only tables (R45, R61)? -/
def isRomAddr (addr : Nat) : Bool := inRegion .stepRom addr || inRegion .slopeRom addr

/-- Is the address in one of the five sample RAMs (R44, R61)? -/
def isRamAddr (addr : Nat) : Bool :=
  inRegion .freqIn addr || inRegion .syncIn addr || inRegion .dutyIn addr || inRegion .audioOut addr
    || inRegion .syncOut addr

/-! ## One word of memory -/

/-- What an address reads as while it is not listed: a `BUF` cell 0 (R47), a ROM word its configured contents (R7,
R47), a sample RAM word the free value of the last hardware reset (R47, U9). -/
def unlistedWord {Num : Type} (N : NumOps Num) (powerOns addr : Nat) : Num :=
  if isBufAddr addr then N.zero
  else if isRomAddr addr then N.rom addr
  else N.ram powerOns addr

/-- The word listed at an address, if any. -/
def memFind {Num : Type} : Memory Num → Nat → Option Num
  | [], _ => none
  | (b, v) :: rest, addr => if addr = b then some v else memFind rest addr

/-- List a word, keeping the addresses rising. -/
def memInsert {Num : Type} : Memory Num → Nat → Num → Memory Num
  | [], addr, v => [(addr, v)]
  | (b, u) :: rest, addr, v =>
    if addr < b then (addr, v) :: (b, u) :: rest
    else if addr = b then (addr, v) :: rest
    else (b, u) :: memInsert rest addr v

/-- Unlist an address. -/
def memErase {Num : Type} (m : Memory Num) (addr : Nat) : Memory Num :=
  m.filter fun entry => decide (entry.1 ≠ addr)

/-- Write one word and keep the canonical form: a `BUF` cell that becomes what it reads as unlisted is unlisted. -/
def memWrite {Num : Type} (N : NumOps Num) (m : Memory Num) (addr : Nat) (v : Num) : Memory Num :=
  if isBufAddr addr && N.isZero v then memErase m addr else memInsert m addr v

/-- A pair that the canonical form may list: an aligned word of a region (R61), and no `BUF` cell at its unlisted
value. -/
def Memory.entryOk {Num : Type} (N : NumOps Num) (addr : Nat) (v : Num) : Bool :=
  decide (addr % 4 = 0) && (isBufAddr addr || isRomAddr addr || isRamAddr addr) && !(isBufAddr addr && N.isZero v)

/-- The canonical form of memory: addresses strictly rising and every pair one that may be listed. -/
def Memory.wf {Num : Type} (N : NumOps Num) : Memory Num → Bool
  | [] => true
  | (addr, v) :: rest =>
    Memory.entryOk N addr v && rest.all (fun entry => decide (addr < entry.1)) && Memory.wf N rest

/-- The word at a byte address of the window's memories. -/
def readWord {Num : Type} (N : NumOps Num) (p : Pabli Num) (addr : Nat) : Num :=
  (memFind p.mem addr).getD (unlistedWord N p.powerOns addr)

/-- Write the word at a byte address of the window's memories. -/
def writeWord {Num : Type} (N : NumOps Num) (p : Pabli Num) (addr : Nat) (v : Num) : Pabli Num :=
  { p with mem := memWrite N p.mem addr v }

/-- `BUF[k]` (R29). -/
def bufRead {Num : Type} (N : NumOps Num) (p : Pabli Num) (k : Nat) : Num := readWord N p (bufAddr k)

/-- `BUF[k] <- v`. -/
def bufWrite {Num : Type} (N : NumOps Num) (p : Pabli Num) (k : Nat) (v : Num) : Pabli Num :=
  writeWord N p (bufAddr k) v

/-- `BUF[k] <- BUF[k] + x`: one add (R114, R115, R139). -/
def bufAdd {Num : Type} (N : NumOps Num) (p : Pabli Num) (k : Nat) (x : Num) : Except Refusal (Pabli Num) := do
  let v ← N.add (bufRead N p k) x
  .ok (bufWrite N p k v)

/-- `BUF[from + m] <- 0` for `m = 0 .. count-1` (R131, R141). -/
def clearCells {Num : Type} (N : NumOps Num) (p : Pabli Num) (first : Nat) : Nat → Pabli Num
  | 0 => p
  | count + 1 => bufWrite N (clearCells N p first count) (first + count) N.zero

/-- `BUF[m] <- BUF[FILLEN + m]` for `m = 0 .. count-1` (R141). -/
def copyTail {Num : Type} (N : NumOps Num) (p : Pabli Num) : Nat → Except Refusal (Pabli Num)
  | 0 => .ok p
  | count + 1 => do
    let q ← copyTail N p count
    let v ← N.read (bufRead N q (Config.fillLen + count))
    .ok (bufWrite N q count v)

/-! ## Errors (R201) -/

/-- The code of an error (R202). -/
def errCodeBits : ErrCode → BitVec 4
  | .illegalOpcode => 1
  | .reservedField => 2
  | .range => 3
  | .badRegValue => 4
  | .bus => 5

/-- `raise ERR(code)` (R201): the first error sticks, `BUSY` falls, nothing else changes. -/
def raiseErr {Num : Type} (code : ErrCode) (p : Pabli Num) : Pabli Num :=
  if p.err then { p with busy := false }
  else { p with err := true, errcode := errCodeBits code, busy := false }

/-- Writing 1 to `STATUS` bit 1 (R35, R201): `ERR <- 0`, `ERRCODE <- 0`. -/
def clearErr {Num : Type} (p : Pabli Num) : Pabli Num := { p with err := false, errcode := 0 }

/-! ## The configuration of the state -/

/-- A change of the instance that is the same in both configurations. -/
def onPabli (f : (Num : Type) → Pabli Num → Pabli Num) (s : State) : State :=
  match s.core with
  | .exact p => ⟨.exact (f Rat p)⟩
  | .b32 p => ⟨.b32 (f B32 p)⟩

/-- The outcome of a rule on an instance: its next state, or the refusal it met. -/
def outcomeOf {Num : Type} (mk : Pabli Num → Configured) :
    Except Refusal (Pabli Num) → Host.Outcome State Fault Refusal
  | .ok p => .next ⟨mk p⟩
  | .error r => .refused r

/-- Run a command's rule with the numbers of the state's configuration (R8). -/
def runRule (rule : (Num : Type) → NumOps Num → Pabli Num → Except Refusal (Pabli Num)) (s : State) :
    Host.Outcome State Fault Refusal :=
  match s.core with
  | .exact p => outcomeOf .exact (rule Rat exactOps p)
  | .b32 p => outcomeOf .b32 (rule B32 b32Ops p)

end Sys2Proof.Machine
end

