-- ==== Sys2Proof/WellFormed.lean ====
section
/-! DEFINITION. When an instruction's operands are in the ranges the spec gives them (R92, and check 3 of R94). -/

namespace Sys2Proof

/-- A sample index is legal: `idx <= NMAX - 1` (R92, R94). -/
def SampleIndex.ok (idx : BitVec 16) : Bool := decide (idx.toNat ≤ Config.nMax - 1)

/-- A block length is legal: `n <= NMAX` (R92, R94). -/
def BlockLength.ok (n : BitVec 16) : Bool := decide (n.toNat ≤ Config.nMax)

/-- A chunk length is legal: `1 <= cnt` (R92, R94). -/
def ChunkLength.ok (cnt : BitVec 8) : Bool := decide (cnt ≠ 0)

/-- The operand ranges of every command (R92, check 3 of R94). -/
def Instr.wellFormed : Instr → Bool
  | .nop => true
  | .reset _ => true
  | .run n => BlockLength.ok n
  | .boot idx => SampleIndex.ok idx
  | .smooth cnt idx => ChunkLength.ok cnt && SampleIndex.ok idx
  | .tick idx => SampleIndex.ok idx
  | .adv => true
  | .dep => true
  | .rds idx => SampleIndex.ok idx
  | .rot => true
  | .ramp => true
  | .coef => true
  | .injs => true
  | .injl => true
  | .dets idx => SampleIndex.ok idx
  | .detr idx => SampleIndex.ok idx
  | .dett idx => SampleIndex.ok idx
  | .syns idx => SampleIndex.ok idx
  | .synr idx => SampleIndex.ok idx
  | .synt idx => SampleIndex.ok idx

end Sys2Proof
end

