-- ==== Sys2Proof/Machine/Operands.lean ====
section
/-! DEFINITION. The operand forms of the commands: command-word operands and their range check (R92, check 3 of R94), the
frequency and duty inputs of a sample (R133, R135, R136), the table index of an injection (R111), the sync input (R181). -/

namespace Sys2Proof.Machine

/-! ## Command-word operands -/

/-- The operand of a sample index field: `zext_32(cmd[15:0])` (R92). -/
def indexOperand (idx : BitVec 16) : Nat := idx.toNat

/-- A sample index is in range: `idx <= NMAX - 1` (R92, R94). -/
def indexInRange (idx : BitVec 16) : Bool := decide (indexOperand idx ≤ 1023)

/-- The operand of `RUN` (R92). -/
def countOperand (n : BitVec 16) : Nat := n.toNat

/-- A block length is in range: `n <= NMAX` (R92, R94). -/
def countInRange (n : BitVec 16) : Bool := decide (countOperand n ≤ 1024)

/-- The chunk length of `SMOOTH` (R92). -/
def chunkOperand (cnt : BitVec 8) : Nat := cnt.toNat

/-- A chunk length is in range: `1 .. 255` (R92, R94). -/
def chunkInRange (cnt : BitVec 8) : Bool := decide (1 ≤ chunkOperand cnt)

/-- Check 3 of R94, then the command's rule: with an operand out of range it raises `ERR(3)` and does nothing else. -/
def rangeChecked (ok : Bool) (rule : (Num : Type) → NumOps Num → Pabli Num → Except Refusal (Pabli Num)) (s : State) :
    Host.Outcome State Fault Refusal :=
  if ok then runRule rule s else .next (onPabli (fun _ p => raiseErr .range p) s)

/-! ## The inputs of a sample -/

/-- Word `i` of a sample RAM (R44). -/
def sampleWord {Num : Type} (N : NumOps Num) (p : Pabli Num) (r : Region) (i : Nat) : Num :=
  readWord N p (wordAddr r i)

/-- `freq_in(i)` (R16, R133). -/
def freqIn {Num : Type} (N : NumOps Num) (p : Pabli Num) (i : Nat) : Num :=
  if p.freqConn then sampleWord N p .freqIn i else p.deffreq

/-- The effective phase increment of sample `i`: `clamp(freq_in(i) / FSAMP, WMIN, WMAX)` (R133). -/
def targetIncrement {Num : Type} (N : NumOps Num) (p : Pabli Num) (i : Nat) : Except Refusal Num := do
  let x ← N.div (freqIn N p i) p.fsamp
  clamp N x N.wMin N.wMax

/-- The effective duty of sample `i` for an increment `t`: `clamp(DUTY_IN[i], t, 1 - t)` (R135, R136). -/
def targetDuty {Num : Type} (N : NumOps Num) (p : Pabli Num) (i : Nat) (t : Num) : Except Refusal Num := do
  let hi ← N.sub N.one t
  clamp N (sampleWord N p .dutyIn i) t hi

/-! ## The table index of an injection (R111) -/

/-- Where an injection reads its table: the remainder `rem` and the masked phase `i` (R111). -/
structure TableIndex (Num : Type) where
  rem : Num
  phase : Nat
deriving DecidableEq, Repr

/-- `i = i0 mod P`, the mathematical remainder (R12, R112). -/
def maskIndex (i0 : Int) : Nat := (i0 % 64).toNat

/-- The index mapping of R111: `r = (P * phi) / W`, `i0 = rne(r - 0.5)`, `rem = r - i0`, `i = i0 mod P`. -/
def tableIndex {Num : Type} (N : NumOps Num) (phi w : Num) : Except Refusal (TableIndex Num) := do
  let p64 ← N.i2n 64
  let scaled ← N.mul p64 phi
  let r ← N.div scaled w
  let r' ← N.sub r N.half
  let i0 ← N.rne r'
  let i0n ← N.i2n i0
  let rem ← N.sub r i0n
  .ok ⟨rem, maskIndex i0⟩

/-! ## The sync input (R181) -/

/-- What step 1 of the hard-sync algorithm computes (R181). -/
structure SyncStart (Num : Type) where
  /-- the word read -/
  s : Num
  /-- the phase of the new cycle at the end of the sample -/
  eof : Num
  /-- the old cycle's phase at the reset instant -/
  par : Num
deriving DecidableEq, Repr

/-- `s = SYNC_IN[idx]`, `eof = (s - EPS) * W`, `par = PHASE - eof` (R181). -/
def syncStart {Num : Type} (N : NumOps Num) (p : Pabli Num) (i : Nat) : Except Refusal (SyncStart Num) := do
  let frac ← N.sub (sampleWord N p .syncIn i) N.eps
  let eof ← N.mul frac p.w
  let par ← N.sub p.phase eof
  .ok ⟨sampleWord N p .syncIn i, eof, par⟩

end Sys2Proof.Machine
end

