-- ==== Sys2Proof/Machine/Flags.lean ====
section
/-! DEFINITION. The flag and status fields: `STATUS` (R35), `CTRL` (R36), `FLAGS` (R41), `BUSY` around a command (R34,
R35), and the sync output that a wrap emits (R161). -/

namespace Sys2Proof.Machine

/-- A flag as a 32-bit word. -/
def bitWord (b : Bool) : Word := if b then 1 else 0

/-- `EDGE` as a bit: `A = 0`, `B = 1` (R26). -/
def edgeBit : Edge → Bool
  | .a => false
  | .b => true

/-- The edge of a bit (R26). -/
def edgeOfBit (b : Bool) : Edge := if b then .b else .a

/-- The code of a shape in `STATUS[9:8]` (R35). -/
def shapeWord : Shape → Word
  | .saw => 0
  | .rect => 1
  | .tri => 2

/-- The word a read of `STATUS` returns (R35). -/
def statusWord {Num : Type} (p : Pabli Num) : Word :=
  bitWord p.busy ||| (bitWord p.err <<< 1) ||| ((p.errcode.zeroExtend 32) <<< 4) ||| (shapeWord p.shape <<< 8)

/-- A write to `STATUS`: only bit 1 acts, and only when it is 1 (R35, R65). -/
def writeStatus {Num : Type} (w : Word) (p : Pabli Num) : Pabli Num :=
  if w.getLsbD 1 then clearErr p else p

/-- The word a read of `CTRL` returns (R36). -/
def ctrlWord {Num : Type} (p : Pabli Num) : Word := bitWord p.freqConn

/-- A write to `CTRL`: bits 31:1 are reserved (R36). -/
def writeCtrl {Num : Type} (w : Word) (p : Pabli Num) : Pabli Num :=
  if w.extractLsb' 1 31 = 0 then { p with freqConn := w.getLsbD 0 } else raiseErr .badRegValue p

/-- The word a read of `J` returns (R40). -/
def jWord {Num : Type} (p : Pabli Num) : Word := BitVec.ofNat 32 p.j.val

/-- A write to `J`: a value of `FILLEN` or more is refused (R40). -/
def writeJ {Num : Type} (w : Word) (p : Pabli Num) : Pabli Num :=
  if h : w.toNat < Config.fillLen then { p with j := ⟨w.toNat, h⟩ } else raiseErr .badRegValue p

/-- The word a read of `FLAGS` returns (R41). -/
def flagsWord {Num : Type} (p : Pabli Num) : Word := bitWord p.init ||| (bitWord (edgeBit p.edge) <<< 1)

/-- A write to `FLAGS`: bits 31:2 are reserved (R41). -/
def writeFlags {Num : Type} (w : Word) (p : Pabli Num) : Pabli Num :=
  if w.extractLsb' 2 30 = 0 then { p with init := w.getLsbD 0, edge := edgeOfBit (w.getLsbD 1) }
  else raiseErr .badRegValue p

/-- `BUSY` rises when a command is taken (R35). -/
def raiseBusy (s : State) : State := onPabli (fun _ p => { p with busy := true }) s

/-- `BUSY` falls when the command has finished (R35). -/
def dropBusy (s : State) : State := onPabli (fun _ p => { p with busy := false }) s

/-- `SYNC_OUT[idx] <- so` (R160, R180). -/
def emitSync {Num : Type} (N : NumOps Num) (p : Pabli Num) (i : Nat) (so : Num) : Pabli Num :=
  writeWord N p (wordAddr .syncOut i) so

/-- `so = (PHASE / W) + EPS`, with the wrapped phase (R161). -/
def wrapSync {Num : Type} (N : NumOps Num) (phase w : Num) : Except Refusal Num := do
  let frac ← N.div phase w
  N.add frac N.eps

end Sys2Proof.Machine
end

