-- ==== Sys2Proof/Machine/Injector.lean ====
section
/-! DEFINITION. The correction table lookup and the delay-buffer injector (40_injector.md): `INJS`, `INJL` and the
sub-operations `inject_step`, `inject_slope` (R16, R110 to R118). -/

namespace Sys2Proof.Machine

/-- The stride walk (R113): for `k = 0 .. count-1` in this order, `BUF[J + k] <- BUF[J + k] + term k`. -/
def injectStrides {Num : Type} (N : NumOps Num) (term : Nat → Except Refusal Num) (p : Pabli Num) :
    Nat → Except Refusal (Pabli Num)
  | 0 => .ok p
  | count + 1 => do
    let q ← injectStrides N term p count
    let t ← term count
    bufAdd N q (p.j.val + count) t

/-- What stride `k` of a step adds: `m * (STEP[e].value + (rem * STEP[e].delta))` with `e = i + k*P` (R114). -/
def stepTerm {Num : Type} (N : NumOps Num) (p : Pabli Num) (x : TableIndex Num) (m : Num) (k : Nat) :
    Except Refusal Num := do
  let d ← N.mul x.rem (readWord N p (stepDeltaAddr (x.phase + k * Config.phaseCount)))
  let t ← N.add (readWord N p (stepValueAddr (x.phase + k * Config.phaseCount))) d
  N.mul m t

/-- `inject_step(phi, m)` (R114). The table lies outside `BUF` (R61), so reading it before the walk or during it is the
same. -/
def injectStep {Num : Type} (N : NumOps Num) (phi m : Num) (p : Pabli Num) : Except Refusal (Pabli Num) := do
  let x ← tableIndex N phi p.w
  injectStrides N (stepTerm N p x m) p Config.lStep

/-- What stride `k` of a slope adds: `ms * (SLOPE[e] + (rem * (SLOPE[e+1] - SLOPE[e])))` with `e = i + k*P` (R115). -/
def slopeTerm {Num : Type} (N : NumOps Num) (p : Pabli Num) (x : TableIndex Num) (ms : Num) (k : Nat) :
    Except Refusal Num := do
  let here := readWord N p (slopeAddr (x.phase + k * Config.phaseCount))
  let d ← N.sub (readWord N p (slopeAddr (x.phase + k * Config.phaseCount + 1))) here
  let y ← N.mul x.rem d
  let t ← N.add here y
  N.mul ms t

/-- `inject_slope(phi, m)` (R115): the magnitude is scaled by `W` once, before the walk. -/
def injectSlope {Num : Type} (N : NumOps Num) (phi m : Num) (p : Pabli Num) : Except Refusal (Pabli Num) := do
  let x ← tableIndex N phi p.w
  let ms ← N.mul m p.w
  injectStrides N (slopeTerm N p x ms) p Config.lSlope

/-- `INJS` (R114): `phi = OPA`, `m = OPB` (R32). -/
def execInjs (s : State) : Host.Outcome State Fault Refusal :=
  runRule (fun _ N p => injectStep N p.opa p.opb p) s

/-- `INJL` (R115): `phi = OPA`, `m = OPB` (R32). -/
def execInjl (s : State) : Host.Outcome State Fault Refusal :=
  runRule (fun _ N p => injectSlope N p.opa p.opb p) s

end Sys2Proof.Machine
end

