-- ==== Sys2Proof/Machine/Detector.lean ====
section
/-! DEFINITION. The waveform discontinuity detectors (42_detector.md): `DETS`, `DETR`, `DETT` (R160 to R165). -/

namespace Sys2Proof.Machine

/-! ## Sawtooth -/

/-- `DETS idx` (R162). -/
def detsRule {Num : Type} (N : NumOps Num) (i : Nat) (p : Pabli Num) : Except Refusal (Pabli Num) := do
  if ← N.ge p.phase N.one then
    let phase ← N.sub p.phase N.one
    let so ← wrapSync N phase p.w
    let q ← injectStep N phase N.one { p with phase := phase }
    let v ← N.sub N.half phase
    .ok { emitSync N q i so with lastv := v }
  else
    let v ← N.sub N.half p.phase
    .ok { emitSync N p i N.zero with lastv := v }

/-! ## Rectangle -/

/-- `fall(phi)` (R163). -/
def rectFall {Num : Type} (N : NumOps Num) (phi : Num) (p : Pabli Num) : Except Refusal (Pabli Num) := do
  let q ← injectStep N phi N.negOne p
  .ok { q with edge := .b, lastv := N.negHalf }

/-- `rise(phi)` (R163). -/
def rectRise {Num : Type} (N : NumOps Num) (phi : Num) (p : Pabli Num) : Except Refusal (Pabli Num) := do
  let q ← injectStep N phi N.one p
  .ok { q with edge := .a, lastv := N.half }

/-- The test `if PHASE >= DUTY: fall(PHASE - DUTY)` (R163, R183). -/
def rectFallTest {Num : Type} (N : NumOps Num) (p : Pabli Num) : Except Refusal (Pabli Num) := do
  if ← N.ge p.phase p.duty then
    let phi ← N.sub p.phase p.duty
    rectFall N phi p
  else .ok p

/-- The test `if PHASE >= 1: wrap()` of the rectangle, with the sync output it leaves (R163). -/
def rectWrapTest {Num : Type} (N : NumOps Num) (p : Pabli Num) : Except Refusal (Num × Pabli Num) := do
  if ← N.ge p.phase N.one then
    let phase ← N.sub p.phase N.one
    let so ← wrapSync N phase p.w
    let q ← rectRise N phase { p with phase := phase }
    .ok (so, q)
  else .ok (N.zero, p)

/-- `DETR idx` (R163): falling edge first in segment A, wrap first in segment B. -/
def detrRule {Num : Type} (N : NumOps Num) (i : Nat) (p : Pabli Num) : Except Refusal (Pabli Num) :=
  match p.edge with
  | .a => do
    let q ← rectFallTest N p
    let (so, r) ← rectWrapTest N q
    .ok (emitSync N r i so)
  | .b => do
    let (so, q) ← rectWrapTest N p
    match q.edge with
    | .a => do
      let r ← rectFallTest N q
      .ok (emitSync N r i so)
    | .b => .ok (emitSync N q i so)

/-! ## Triangle -/

/-- The triangle's values computed once per command, from the `DUTY` at entry (R165). -/
structure TriConsts (Num : Type) where
  /-- `1 - DUTY` -/
  b1 : Num
  /-- `(1 / DUTY) + (1 / b1)` -/
  mup : Num
deriving DecidableEq, Repr

/-- `b1` and `mup` (R165). -/
def triConsts {Num : Type} (N : NumOps Num) (duty : Num) : Except Refusal (TriConsts Num) := do
  let b1 ← N.sub N.one duty
  let x ← N.div N.one duty
  let y ← N.div N.one b1
  let mup ← N.add x y
  .ok ⟨b1, mup⟩

/-- `vrise(p) = (-0.5) + (p / DUTY)` (R165). -/
def vrise {Num : Type} (N : NumOps Num) (duty x : Num) : Except Refusal Num := do
  let q ← N.div x duty
  N.add N.negHalf q

/-- `vfall(p) = 0.5 - ((p - DUTY) / b1)` (R165). -/
def vfall {Num : Type} (N : NumOps Num) (duty b1 x : Num) : Except Refusal Num := do
  let d ← N.sub x duty
  let q ← N.div d b1
  N.sub N.half q

/-- The test `if PHASE >= DUTY: brk()` (R164). -/
def triBreakTest {Num : Type} (N : NumOps Num) (c : TriConsts Num) (p : Pabli Num) : Except Refusal (Pabli Num) := do
  if ← N.ge p.phase p.duty then
    let v ← vfall N p.duty c.b1 p.phase
    let phi ← N.sub p.phase p.duty
    let q ← injectSlope N phi (N.neg c.mup) { p with lastv := v }
    .ok { q with edge := .b }
  else .ok p

/-- The test `if PHASE >= 1: wrap()` of the triangle, with the sync output it leaves (R164). -/
def triWrapTest {Num : Type} (N : NumOps Num) (c : TriConsts Num) (p : Pabli Num) :
    Except Refusal (Num × Pabli Num) := do
  if ← N.ge p.phase N.one then
    let phase ← N.sub p.phase N.one
    let so ← wrapSync N phase p.w
    let v ← vrise N p.duty phase
    let q ← injectSlope N phase c.mup { p with phase := phase, lastv := v }
    .ok (so, { q with edge := .a })
  else .ok (N.zero, p)

/-- `DETT idx` (R164): break first in segment A, wrap first in segment B. -/
def dettRule {Num : Type} (N : NumOps Num) (i : Nat) (p : Pabli Num) : Except Refusal (Pabli Num) := do
  let c ← triConsts N p.duty
  match p.edge with
  | .a => do
    let v ← vrise N p.duty p.phase
    let q ← triBreakTest N c { p with lastv := v }
    let (so, r) ← triWrapTest N c q
    .ok (emitSync N r i so)
  | .b => do
    let v ← vfall N p.duty c.b1 p.phase
    let (so, q) ← triWrapTest N c { p with lastv := v }
    match q.edge with
    | .a => do
      let r ← triBreakTest N c q
      .ok (emitSync N r i so)
    | .b => .ok (emitSync N q i so)

/-! ## The commands -/

/-- `DETS idx` (R162, exceptions R160). -/
def execDets (idx : BitVec 16) (s : State) : Host.Outcome State Fault Refusal :=
  rangeChecked (indexInRange idx) (fun _ N p => detsRule N (indexOperand idx) p) s

/-- `DETR idx` (R163, exceptions R160). -/
def execDetr (idx : BitVec 16) (s : State) : Host.Outcome State Fault Refusal :=
  rangeChecked (indexInRange idx) (fun _ N p => detrRule N (indexOperand idx) p) s

/-- `DETT idx` (R164, exceptions R160). -/
def execDett (idx : BitVec 16) (s : State) : Host.Outcome State Fault Refusal :=
  rangeChecked (indexInRange idx) (fun _ N p => dettRule N (indexOperand idx) p) s

end Sys2Proof.Machine
end

