-- ==== Sys2Proof/Machine/HardSync.lean ====
section
/-! DEFINITION. The hard-sync lookahead state machine (43_hardsync.md): `SYNS`, `SYNR`, `SYNT` (R180 to R185). -/

namespace Sys2Proof.Machine

/-! ## Sawtooth -/

/-- The catch-up pass of the sawtooth (R182): the phase of the old cycle at the reset, after its wrap if it had one. -/
def sawCatchUp {Num : Type} (N : NumOps Num) (eof par : Num) (p : Pabli Num) :
    Except Refusal (Num × Pabli Num) := do
  if ← N.ge par N.one then
    let par' ← N.sub par N.one
    let phi ← N.add par' eof
    let q ← injectStep N phi N.one p
    .ok (par', q)
  else .ok (par, p)

/-- `SYNS idx` (R182). -/
def synsRule {Num : Type} (N : NumOps Num) (i : Nat) (p : Pabli Num) : Except Refusal (Pabli Num) := do
  let y ← syncStart N p i
  let (par, q) ← sawCatchUp N y.eof y.par { p with phase := y.eof }
  let r ← injectStep N y.eof par q
  let v ← N.sub N.half y.eof
  .ok { emitSync N r i y.s with lastv := v }

/-! ## Rectangle -/

/-- Catch-up of the falling edge: `if par >= DUTY: fall((par - DUTY) + eof)` (R183). -/
def rectCatchFall {Num : Type} (N : NumOps Num) (eof par : Num) (p : Pabli Num) : Except Refusal (Pabli Num) := do
  if ← N.ge par p.duty then
    let d ← N.sub par p.duty
    let phi ← N.add d eof
    rectFall N phi p
  else .ok p

/-- Catch-up of the wrap: `if par >= 1: par <- par - 1; rise(par + eof)` (R183). -/
def rectCatchWrap {Num : Type} (N : NumOps Num) (eof par : Num) (p : Pabli Num) :
    Except Refusal (Num × Pabli Num) := do
  if ← N.ge par N.one then
    let par' ← N.sub par N.one
    let phi ← N.add par' eof
    let q ← rectRise N phi p
    .ok (par', q)
  else .ok (par, p)

/-- The catch-up pass of the rectangle (R183, R185). -/
def rectCatchUp {Num : Type} (N : NumOps Num) (eof par : Num) (p : Pabli Num) : Except Refusal (Pabli Num) :=
  match p.edge with
  | .a => do
    let q ← rectCatchFall N eof par p
    let (_, r) ← rectCatchWrap N eof par q
    .ok r
  | .b => do
    let (par', q) ← rectCatchWrap N eof par p
    match q.edge with
    | .a => rectCatchFall N eof par' q
    | .b => .ok q

/-- The first reset test of the rectangle: `if EDGE == B: rise(PHASE)` (R183). -/
def rectResetRise {Num : Type} (N : NumOps Num) (p : Pabli Num) : Except Refusal (Pabli Num) :=
  match p.edge with
  | .a => .ok p
  | .b => rectRise N p.phase p

/-- `SYNR idx` (R183): catch-up pass, then reset pass, then the sync word passed on. -/
def synrRule {Num : Type} (N : NumOps Num) (i : Nat) (p : Pabli Num) : Except Refusal (Pabli Num) := do
  let y ← syncStart N p i
  let q ← rectCatchUp N y.eof y.par { p with phase := y.eof }
  let r ← rectResetRise N q
  let t ← rectFallTest N r
  .ok (emitSync N t i y.s)

/-! ## Triangle -/

/-- Catch-up of the slope break (R184): the old cycle's value `x` and the state, from the value before the test. -/
def triCatchBreak {Num : Type} (N : NumOps Num) (c : TriConsts Num) (eof par x : Num) (p : Pabli Num) :
    Except Refusal (Num × Pabli Num) := do
  if ← N.ge par p.duty then
    let x' ← vfall N p.duty c.b1 par
    let d ← N.sub par p.duty
    let phi ← N.add d eof
    let q ← injectSlope N phi (N.neg c.mup) p
    .ok (x', { q with edge := .b })
  else .ok (x, p)

/-- Catch-up of the wrap (R184): `par`, `x` and the state after the test. -/
def triCatchWrap {Num : Type} (N : NumOps Num) (c : TriConsts Num) (eof par x : Num) (p : Pabli Num) :
    Except Refusal (Num × Num × Pabli Num) := do
  if ← N.ge par N.one then
    let par' ← N.sub par N.one
    let x' ← vrise N p.duty par'
    let phi ← N.add par' eof
    let q ← injectSlope N phi c.mup p
    .ok (par', x', { q with edge := .a })
  else .ok (par, x, p)

/-- The catch-up pass of the triangle (R184, R185): the old cycle's value at the reset instant, and the state. -/
def triCatchUp {Num : Type} (N : NumOps Num) (c : TriConsts Num) (eof par : Num) (p : Pabli Num) :
    Except Refusal (Num × Pabli Num) :=
  match p.edge with
  | .a => do
    let x ← vrise N p.duty par
    let (x, q) ← triCatchBreak N c eof par x p
    let (_, x, r) ← triCatchWrap N c eof par x q
    .ok (x, r)
  | .b => do
    let x ← vfall N p.duty c.b1 par
    let (par', x, q) ← triCatchWrap N c eof par x p
    match q.edge with
    | .a => triCatchBreak N c eof par' x q
    | .b => .ok (x, q)

/-- The reset slope of the triangle: `if EDGE == B: inject_slope(PHASE, +mup)` (R184). -/
def triResetSlope {Num : Type} (N : NumOps Num) (c : TriConsts Num) (p : Pabli Num) : Except Refusal (Pabli Num) :=
  match p.edge with
  | .a => .ok p
  | .b => injectSlope N p.phase c.mup p

/-- The last test of the triangle's reset pass (R184): the new cycle's value and the state, from segment A. -/
def triResetBreak {Num : Type} (N : NumOps Num) (c : TriConsts Num) (x : Num) (p : Pabli Num) :
    Except Refusal (Num × Pabli Num) := do
  if ← N.ge p.phase p.duty then
    let x' ← vfall N p.duty c.b1 p.phase
    let phi ← N.sub p.phase p.duty
    let q ← injectSlope N phi (N.neg c.mup) p
    .ok (x', { q with edge := .b })
  else .ok (x, p)

/-- The reset pass of the triangle (R184), from the old cycle's value `x`. -/
def triResetPass {Num : Type} (N : NumOps Num) (c : TriConsts Num) (x : Num) (p : Pabli Num) :
    Except Refusal (Pabli Num) := do
  let q ← triResetSlope N c p
  let gap ← N.sub N.negHalf x
  let r ← injectStep N q.phase gap q
  let x' ← vrise N r.duty r.phase
  let (v, t) ← triResetBreak N c x' { r with edge := .a }
  .ok { t with lastv := v }

/-- `SYNT idx` (R184): `b1` and `mup` at entry, catch-up pass, reset pass, then the sync word passed on. -/
def syntRule {Num : Type} (N : NumOps Num) (i : Nat) (p : Pabli Num) : Except Refusal (Pabli Num) := do
  let c ← triConsts N p.duty
  let y ← syncStart N p i
  let (x, q) ← triCatchUp N c y.eof y.par { p with phase := y.eof }
  let r ← triResetPass N c x q
  .ok (emitSync N r i y.s)

/-! ## The commands -/

/-- `SYNS idx` (R182, exceptions R180). -/
def execSyns (idx : BitVec 16) (s : State) : Host.Outcome State Fault Refusal :=
  rangeChecked (indexInRange idx) (fun _ N p => synsRule N (indexOperand idx) p) s

/-- `SYNR idx` (R183, exceptions R180). -/
def execSynr (idx : BitVec 16) (s : State) : Host.Outcome State Fault Refusal :=
  rangeChecked (indexInRange idx) (fun _ N p => synrRule N (indexOperand idx) p) s

/-- `SYNT idx` (R184, exceptions R180). -/
def execSynt (idx : BitVec 16) (s : State) : Host.Outcome State Fault Refusal :=
  rangeChecked (indexInRange idx) (fun _ N p => syntRule N (indexOperand idx) p) s

end Sys2Proof.Machine
end

