-- ==== Sys2Proof/Machine/Loop.lean ====
section
/-! DEFINITION. The per-block, per-chunk and per-sample steps of the shared control loop (41_core_loop.md): `COEF`, `BOOT`,
`SMOOTH`, `RAMP`, `ADV`, `DEP`, `RDS`, `ROT`, `TICK` (R133 to R142). -/

namespace Sys2Proof.Machine

/-- `COEF` (R134): `A <- A0 + (A1 * LOWPASS)`. -/
def coefRule {Num : Type} (N : NumOps Num) (p : Pabli Num) : Except Refusal (Pabli Num) := do
  let x ← N.mul N.a1 p.lowpass
  let a ← N.add N.a0 x
  .ok { p with a := a }

/-- The bootstrap values of a shape, after `W`, `DW`, `DB`, `EDGE` are set (R135). -/
def bootShape {Num : Type} (N : NumOps Num) (i : Nat) (p : Pabli Num) : Except Refusal (Pabli Num) :=
  match p.shape with
  | .saw => .ok { p with phase := N.half, lastv := N.zero }
  | .rect => do
    let d ← targetDuty N p i p.w
    .ok { p with duty := d, phase := N.zero, lastv := N.half }
  | .tri => do
    let d ← targetDuty N p i p.w
    let x ← N.mul N.half d
    .ok { p with duty := d, phase := x, lastv := N.zero }

/-- `BOOT idx` (R135). -/
def bootRule {Num : Type} (N : NumOps Num) (i : Nat) (p : Pabli Num) : Except Refusal (Pabli Num) := do
  let w ← targetIncrement N p i
  let q ← bootShape N i { p with w := w, dw := N.zero, db := N.zero, edge := .a }
  .ok { q with init := true }

/-- The per-sample increment towards a target: `(target - now) / i2n(cnt)` (R136). -/
def rampIncrement {Num : Type} (N : NumOps Num) (target now : Num) (cnt : Nat) : Except Refusal Num := do
  let d ← N.sub target now
  let n ← N.i2n (cnt : Int)
  N.div d n

/-- The duty increment of a chunk, for the target increment `t` (R136). -/
def dutyIncrement {Num : Type} (N : NumOps Num) (cnt i : Nat) (t : Num) (p : Pabli Num) : Except Refusal Num :=
  match p.shape with
  | .saw => .ok N.zero
  | .rect => do
    let tb ← targetDuty N p i t
    rampIncrement N tb p.duty cnt
  | .tri => do
    let tb ← targetDuty N p i t
    rampIncrement N tb p.duty cnt

/-- `SMOOTH cnt, idx` (R136). -/
def smoothRule {Num : Type} (N : NumOps Num) (cnt i : Nat) (p : Pabli Num) : Except Refusal (Pabli Num) := do
  let t ← targetIncrement N p i
  let dw ← rampIncrement N t p.w cnt
  let db ← dutyIncrement N cnt i t p
  .ok { p with dw := dw, db := db }

/-- `RAMP` (R137): two unclamped additions. DESIGN CHOICE, log 19: under B32 the additions round, and `W` may end above
`WMAX`, where R48 says that `W <= WMAX` holds exactly; the model follows R137 and R24. -/
def rampRule {Num : Type} (N : NumOps Num) (p : Pabli Num) : Except Refusal (Pabli Num) := do
  let w ← N.add p.w p.dw
  let d ← N.add p.duty p.db
  .ok { p with w := w, duty := d }

/-- `ADV` (R138). -/
def advRule {Num : Type} (N : NumOps Num) (p : Pabli Num) : Except Refusal (Pabli Num) := do
  let x ← N.add p.phase p.w
  .ok { p with phase := x }

/-- `DEP` (R139): `BUF[J + DD] <- BUF[J + DD] + LASTV`. -/
def depRule {Num : Type} (N : NumOps Num) (p : Pabli Num) : Except Refusal (Pabli Num) :=
  bufAdd N p (p.j.val + Config.depositDelay) p.lastv

/-- `RDS idx` (R140): `Z <- Z + (A * (BUF[J] - Z))`, `AUDIO_OUT[idx] <- Z`. -/
def rdsRule {Num : Type} (N : NumOps Num) (i : Nat) (p : Pabli Num) : Except Refusal (Pabli Num) := do
  let d ← N.sub (bufRead N p p.j.val) p.z
  let x ← N.mul p.a d
  let z ← N.add p.z x
  .ok (writeWord N { p with z := z } (wordAddr .audioOut i) z)

/-- The fold of the buffer (R141): the tail to the front, the rest to zero, `J <- 0`. -/
def foldBuffer {Num : Type} (N : NumOps Num) (p : Pabli Num) : Except Refusal (Pabli Num) := do
  let q ← copyTail N p Config.lMax
  .ok { clearCells N q Config.lMax (Config.bufLen - Config.lMax) with j := 0 }

/-- `ROT` (R141): `J <- J + 1`, and at `FILLEN` the fold. -/
def rotRule {Num : Type} (N : NumOps Num) (p : Pabli Num) : Except Refusal (Pabli Num) :=
  if h : p.j.val + 1 < Config.fillLen then .ok { p with j := ⟨p.j.val + 1, h⟩ }
  else foldBuffer N p

/-- The hard-sync path of `TICK`, by `SHAPE` (R142). -/
def syncRule {Num : Type} (N : NumOps Num) (i : Nat) (p : Pabli Num) : Except Refusal (Pabli Num) :=
  match p.shape with
  | .saw => synsRule N i p
  | .rect => synrRule N i p
  | .tri => syntRule N i p

/-- The normal path of `TICK`, by `SHAPE` (R142). -/
def detectRule {Num : Type} (N : NumOps Num) (i : Nat) (p : Pabli Num) : Except Refusal (Pabli Num) :=
  match p.shape with
  | .saw => detsRule N i p
  | .rect => detrRule N i p
  | .tri => dettRule N i p

/-- The discontinuity handling of `TICK`: hard sync when `SYNC_IN[idx] >= EPS`, else the detector (R142). -/
def handleRule {Num : Type} (N : NumOps Num) (i : Nat) (p : Pabli Num) : Except Refusal (Pabli Num) := do
  if ← N.ge (sampleWord N p .syncIn i) N.eps then syncRule N i p else detectRule N i p

/-- `TICK idx` (R142): the steps of one sample, in the written order. -/
def tickRule {Num : Type} (N : NumOps Num) (i : Nat) (p : Pabli Num) : Except Refusal (Pabli Num) := do
  let p1 ← rampRule N p
  let p2 ← advRule N p1
  let p3 ← handleRule N i p2
  let p4 ← depRule N p3
  let p5 ← rdsRule N i p4
  rotRule N p5

/-! ## The commands -/

/-- `COEF` (R134). -/
def execCoef (s : State) : Host.Outcome State Fault Refusal :=
  runRule (fun _ N p => coefRule N p) s

/-- `BOOT idx` (R135). -/
def execBoot (idx : BitVec 16) (s : State) : Host.Outcome State Fault Refusal :=
  rangeChecked (indexInRange idx) (fun _ N p => bootRule N (indexOperand idx) p) s

/-- `SMOOTH cnt, idx` (R136). -/
def execSmooth (cnt : BitVec 8) (idx : BitVec 16) (s : State) : Host.Outcome State Fault Refusal :=
  rangeChecked (chunkInRange cnt && indexInRange idx) (fun _ N p => smoothRule N (chunkOperand cnt) (indexOperand idx) p) s

/-- `RAMP` (R137). -/
def execRamp (s : State) : Host.Outcome State Fault Refusal :=
  runRule (fun _ N p => rampRule N p) s

/-- `ADV` (R138). -/
def execAdv (s : State) : Host.Outcome State Fault Refusal :=
  runRule (fun _ N p => advRule N p) s

/-- `DEP` (R139). -/
def execDep (s : State) : Host.Outcome State Fault Refusal :=
  runRule (fun _ N p => depRule N p) s

/-- `RDS idx` (R140). -/
def execRds (idx : BitVec 16) (s : State) : Host.Outcome State Fault Refusal :=
  rangeChecked (indexInRange idx) (fun _ N p => rdsRule N (indexOperand idx) p) s

/-- `ROT` (R141). -/
def execRot (s : State) : Host.Outcome State Fault Refusal :=
  runRule (fun _ N p => rotRule N p) s

/-- `TICK idx` (R142). -/
def execTick (idx : BitVec 16) (s : State) : Host.Outcome State Fault Refusal :=
  rangeChecked (indexInRange idx) (fun _ N p => tickRule N (indexOperand idx) p) s

end Sys2Proof.Machine
end

