-- ==== Sys2Proof/Machine/Block.lean ====
section
/-! DEFINITION. The commands that act on the core as a whole (R148): `NOP` (R130), `RESET` (R131), `RUN` (R132). -/

namespace Sys2Proof.Machine

/-- `RESET shape` (R131): the oscillator state, and nothing else. -/
def resetRule {Num : Type} (N : NumOps Num) (shape : Shape) (p : Pabli Num) : Pabli Num :=
  { clearCells N p 0 Config.bufLen with
    shape := shape
    j := 0
    z := N.zero
    init := false
    edge := .a
    phase := N.zero
    w := N.zero
    duty := N.zero
    lastv := N.zero
    a := N.zero
    dw := N.zero
    db := N.zero }

/-- `TICK s` for `s = first .. first+count-1` (R132). -/
def tickRange {Num : Type} (N : NumOps Num) (first : Nat) (p : Pabli Num) : Nat → Except Refusal (Pabli Num)
  | 0 => .ok p
  | count + 1 => do
    let q ← tickRange N first p count
    tickRule N (first + count) q

/-- One chunk of `c` samples from sample `base`: `SMOOTH c, (base + c - 1)`, then its TICKs (R132). -/
def chunkRule {Num : Type} (N : NumOps Num) (base c : Nat) (p : Pabli Num) : Except Refusal (Pabli Num) := do
  let q ← smoothRule N c (base + c - 1) p
  tickRange N base q c

/-- The chunks of a block from sample `base` with `left` samples to go (R132). Every chunk takes at least one sample,
so as many rounds as samples are enough. -/
def chunksFrom {Num : Type} (N : NumOps Num) : Nat → Nat → Nat → Pabli Num → Except Refusal (Pabli Num)
  | 0, _, _, p => .ok p
  | rounds + 1, base, left, p =>
    if left = 0 then .ok p
    else do
      let q ← chunkRule N base (min Config.chunk left) p
      chunksFrom N rounds (base + min Config.chunk left) (left - min Config.chunk left) q

/-- `if INIT == 0: BOOT 0` (R132, R232). -/
def bootIfNeeded {Num : Type} (N : NumOps Num) (p : Pabli Num) : Except Refusal (Pabli Num) :=
  if p.init then .ok p else bootRule N 0 p

/-- `RUN n` (R132). -/
def runBlock {Num : Type} (N : NumOps Num) (n : Nat) (p : Pabli Num) : Except Refusal (Pabli Num) :=
  if n = 0 then .ok p
  else do
    let p1 ← coefRule N p
    let p2 ← bootIfNeeded N p1
    chunksFrom N n 0 n p2

/-! ## The commands -/

/-- `NOP` (R130). -/
def execNop (s : State) : Host.Outcome State Fault Refusal := .next s

/-- `RESET shape` (R131). -/
def execReset (shape : Shape) (s : State) : Host.Outcome State Fault Refusal :=
  runRule (fun _ N p => .ok (resetRule N shape p)) s

/-- `RUN n` (R132). -/
def execRun (n : BitVec 16) (s : State) : Host.Outcome State Fault Refusal :=
  rangeChecked (countInRange n) (fun _ N p => runBlock N (countOperand n) p) s

end Sys2Proof.Machine
end

