-- ==== Sys2Proof/Decode.lean ====
section
/-! DEFINITION. The decoder (R91 to R94), the encoder (R91, R97) and the assembler text (R97).

The decoder makes checks 1 and 2 of R94 (opcode, reserved field); check 3 (operand range) is the first thing the
meaning of the decoded command does (Machine/Operands.lean `rangeChecked`), as every command rule lists it under its
exceptions. The order of the three checks is the spec's; log 8. -/

namespace Sys2Proof

/-- `op = cmd[31:24]` (R91). -/
def opField (c : Word) : BitVec 8 := c.extractLsb' 24 8

/-- `cnt = cmd[23:16]` (R91). -/
def cntField (c : Word) : BitVec 8 := c.extractLsb' 16 8

/-- `idx = cmd[15:0]` (R91). -/
def idxField (c : Word) : BitVec 16 := c.extractLsb' 0 16

/-- Format Z: bits 23:0 are reserved (R91, check 2 of R94). -/
def decodeZ (c : Word) (i : Instr) : Except ErrCode Instr :=
  if c.extractLsb' 0 24 = 0 then .ok i else .error .reservedField

/-- The shape codes (R3, R92): 3 is reserved. -/
def shapeOfCode (code : BitVec 2) : Option Shape :=
  if code = 0 then some .saw
  else if code = 1 then some .rect
  else if code = 2 then some .tri
  else none

/-- Format S: bits 23:2 are reserved, and so is `shape = 3` (R91, check 2 of R94). -/
def decodeS (c : Word) (mk : Shape → Instr) : Except ErrCode Instr :=
  if c.extractLsb' 2 22 = 0 then
    match shapeOfCode (c.extractLsb' 0 2) with
    | some shape => .ok (mk shape)
    | none => .error .reservedField
  else .error .reservedField

/-- Format I: bits 23:16 are reserved (R91, check 2 of R94). -/
def decodeI (c : Word) (mk : BitVec 16 → Instr) : Except ErrCode Instr :=
  if cntField c = 0 then .ok (mk (idxField c)) else .error .reservedField

/-- Format C: no reserved bit (R91). -/
def decodeC (c : Word) (mk : BitVec 8 → BitVec 16 → Instr) : Except ErrCode Instr :=
  .ok (mk (cntField c) (idxField c))

/-- The decoder: the opcode map of R93 with checks 1 and 2 of R94 in that order. It looks at nothing but the
word (R96). -/
def decode (c : Word) : Except ErrCode Instr :=
  match (opField c).toNat with
  | 0x00 => decodeZ c .nop
  | 0x01 => decodeS c .reset
  | 0x02 => decodeI c .run
  | 0x10 => decodeI c .boot
  | 0x11 => decodeC c .smooth
  | 0x12 => decodeI c .tick
  | 0x20 => decodeZ c .adv
  | 0x21 => decodeZ c .dep
  | 0x22 => decodeI c .rds
  | 0x23 => decodeZ c .rot
  | 0x24 => decodeZ c .ramp
  | 0x25 => decodeZ c .coef
  | 0x30 => decodeZ c .injs
  | 0x31 => decodeZ c .injl
  | 0x40 => decodeI c .dets
  | 0x41 => decodeI c .detr
  | 0x42 => decodeI c .dett
  | 0x50 => decodeI c .syns
  | 0x51 => decodeI c .synr
  | 0x52 => decodeI c .synt
  | _ => .error .illegalOpcode

/-- The host's question: the instruction whose bits are `w`, numbered with bit 0 the least significant. A command is
one 32-bit word (R90), so bits above `nbits` are 0 and a longer word is no command. -/
def decodeTableWord (nbits w : Nat) : Option Instr :=
  if w % 2 ^ nbits < 2 ^ 32 then
    match decode (BitVec.ofNat 32 (w % 2 ^ nbits)) with
    | .ok i => some i
    | .error _ => none
  else none

/-- The code of a shape (R3). -/
def codeOfShape : Shape → BitVec 2
  | .saw => 0
  | .rect => 1
  | .tri => 2

/-- A format-Z word (R91). -/
def encodeZ (op : BitVec 8) : Word := op ++ (0 : BitVec 24)

/-- A format-S word (R91). -/
def encodeS (op : BitVec 8) (shape : Shape) : Word := op ++ ((0 : BitVec 22) ++ codeOfShape shape)

/-- A format-I word (R91). -/
def encodeI (op : BitVec 8) (idx : BitVec 16) : Word := op ++ ((0 : BitVec 8) ++ idx)

/-- A format-C word (R91). -/
def encodeC (op cnt : BitVec 8) (idx : BitVec 16) : Word := op ++ (cnt ++ idx)

/-- The encoder (R91, R93). -/
def encode : Instr → Word
  | .nop => encodeZ 0x00
  | .reset shape => encodeS 0x01 shape
  | .run n => encodeI 0x02 n
  | .boot idx => encodeI 0x10 idx
  | .smooth cnt idx => encodeC 0x11 cnt idx
  | .tick idx => encodeI 0x12 idx
  | .adv => encodeZ 0x20
  | .dep => encodeZ 0x21
  | .rds idx => encodeI 0x22 idx
  | .rot => encodeZ 0x23
  | .ramp => encodeZ 0x24
  | .coef => encodeZ 0x25
  | .injs => encodeZ 0x30
  | .injl => encodeZ 0x31
  | .dets idx => encodeI 0x40 idx
  | .detr idx => encodeI 0x41 idx
  | .dett idx => encodeI 0x42 idx
  | .syns idx => encodeI 0x50 idx
  | .synr idx => encodeI 0x51 idx
  | .synt idx => encodeI 0x52 idx

/-- A mnemonic and one operand (R97). -/
def asmIdx (mnemonic : String) (idx : BitVec 16) : String := mnemonic ++ " " ++ toString idx.toNat

/-- The name of a shape in assembler text (R97). -/
def asmShape : Shape → String
  | .saw => "SAW"
  | .rect => "RECT"
  | .tri => "TRI"

/-- The assembler text of a command, operands in decimal (R97). -/
def asm : Instr → String
  | .nop => "NOP"
  | .reset shape => "RESET " ++ asmShape shape
  | .run n => asmIdx "RUN" n
  | .boot idx => asmIdx "BOOT" idx
  | .smooth cnt idx => "SMOOTH " ++ toString cnt.toNat ++ ", " ++ toString idx.toNat
  | .tick idx => asmIdx "TICK" idx
  | .adv => "ADV"
  | .dep => "DEP"
  | .rds idx => asmIdx "RDS" idx
  | .rot => "ROT"
  | .ramp => "RAMP"
  | .coef => "COEF"
  | .injs => "INJS"
  | .injl => "INJL"
  | .dets idx => asmIdx "DETS" idx
  | .detr idx => asmIdx "DETR" idx
  | .dett idx => asmIdx "DETT" idx
  | .syns idx => asmIdx "SYNS" idx
  | .synr idx => asmIdx "SYNR" idx
  | .synt idx => asmIdx "SYNT" idx

end Sys2Proof
end

