-- ==== Sys2Proof/Machine/Bus.lean ====
section
/-! DEFINITION. The host's side: the register window (R33), the bus accesses (R60 to R70), the reset input (R230), and
which move of the host comes next (R17, R34, R236). -/

namespace Sys2Proof.Machine

/-! ## The register window (R33) -/

/-- The `num` registers of the window (R33). -/
inductive NumReg where
  | fsamp
  | lowpass
  | deffreq
  | opa
  | opb
  | phase
  | w
  | duty
  | lastv
  | z
  | a
  | dw
  | db
deriving DecidableEq, Repr

/-- Read a `num` register. -/
def getNumReg {Num : Type} (p : Pabli Num) : NumReg → Num
  | .fsamp => p.fsamp
  | .lowpass => p.lowpass
  | .deffreq => p.deffreq
  | .opa => p.opa
  | .opb => p.opb
  | .phase => p.phase
  | .w => p.w
  | .duty => p.duty
  | .lastv => p.lastv
  | .z => p.z
  | .a => p.a
  | .dw => p.dw
  | .db => p.db

/-- Write a `num` register. -/
def setNumReg {Num : Type} (p : Pabli Num) (x : Num) : NumReg → Pabli Num
  | .fsamp => { p with fsamp := x }
  | .lowpass => { p with lowpass := x }
  | .deffreq => { p with deffreq := x }
  | .opa => { p with opa := x }
  | .opb => { p with opb := x }
  | .phase => { p with phase := x }
  | .w => { p with w := x }
  | .duty => { p with duty := x }
  | .lastv => { p with lastv := x }
  | .z => { p with z := x }
  | .a => { p with a := x }
  | .dw => { p with dw := x }
  | .db => { p with db := x }

/-- What stands at a mapped address (R33, R61). -/
inductive Location where
  | cmd
  | status
  | ctrl
  | numReg (r : NumReg)
  | j
  | flags
  /-- a word of `BUF` or of a sample RAM -/
  | cell (addr : Nat)
  /-- a word of a table ROM -/
  | rom (addr : Nat)
deriving DecidableEq, Repr

/-- The location at an aligned byte offset, if it is mapped (R33, R61, R67). -/
def locate (addr : Nat) : Option Location :=
  match addr with
  | 0x00 => some .cmd
  | 0x04 => some .status
  | 0x08 => some .ctrl
  | 0x0C => some (.numReg .fsamp)
  | 0x10 => some (.numReg .lowpass)
  | 0x14 => some (.numReg .deffreq)
  | 0x18 => some (.numReg .opa)
  | 0x1C => some (.numReg .opb)
  | 0x20 => some (.numReg .phase)
  | 0x24 => some (.numReg .w)
  | 0x28 => some (.numReg .duty)
  | 0x2C => some (.numReg .lastv)
  | 0x30 => some (.numReg .z)
  | 0x34 => some (.numReg .a)
  | 0x38 => some (.numReg .dw)
  | 0x3C => some (.numReg .db)
  | 0x40 => some .j
  | 0x44 => some .flags
  | _ =>
    if isBufAddr addr || isRamAddr addr then some (.cell addr)
    else if isRomAddr addr then some (.rom addr)
    else none

/-- The location an access reaches, if it is aligned, four bytes wide and mapped (R62, R64, R67). -/
def target (addr : BitVec 18) (width : Nat) : Option Location :=
  if addr.toNat % 4 = 0 ∧ width = 4 then locate addr.toNat else none

/-! ## Reads -/

/-- The word a read of a location returns (R33, R34, R65): reads change nothing. -/
def busRead {Num : Type} (N : NumOps Num) (p : Pabli Num) : Location → BusWord Num
  | .cmd => .word 0
  | .status => .word (statusWord p)
  | .ctrl => .word (ctrlWord p)
  | .numReg r => N.busOfNum (getNumReg p r)
  | .j => .word (jWord p)
  | .flags => .word (flagsWord p)
  | .cell addr => N.busOfNum (readWord N p addr)
  | .rom addr => N.busOfNum (readWord N p addr)

/-- `MemRead(addr, width)` (R15): a refused read returns 0 and raises `ERR(5)` (R64, R67). -/
def hostRead {Num : Type} (N : NumOps Num) (addr : BitVec 18) (width : Nat) (p : Pabli Num) : Pabli Num :=
  match target addr width with
  | some l => { p with lastRead := some (busRead N p l) }
  | none => { raiseErr .bus p with lastRead := some (.word 0) }

/-! ## Writes -/

/-- A write to an integer register, of the word the bus carries (log 11). -/
def writeInt {Num : Type} (N : NumOps Num) (v : BusWord Num) (f : Word → Pabli Num) : Except Refusal (Pabli Num) :=
  match N.wordOfBus v with
  | some w => .ok (f w)
  | none => .error .busWordKind

/-- A write to a `num` location, of the number the bus carries (log 11). -/
def writeNum {Num : Type} (N : NumOps Num) (v : BusWord Num) (f : Num → Pabli Num) : Except Refusal (Pabli Num) :=
  match N.numOfBus v with
  | some x => .ok (f x)
  | none => .error .busWordKind

/-- A write that reaches a location other than `CMD` (R33, R35, R36, R40, R41, R65, R68). -/
def busWrite {Num : Type} (N : NumOps Num) (v : BusWord Num) (p : Pabli Num) : Location → Except Refusal (Pabli Num)
  | .cmd => .ok p
  | .status => writeInt N v fun w => writeStatus w p
  | .ctrl => writeInt N v fun w => writeCtrl w p
  | .numReg r => writeNum N v fun x => setNumReg p x r
  | .j => writeInt N v fun w => writeJ w p
  | .flags => writeInt N v fun w => writeFlags w p
  | .cell addr => writeNum N v fun x => writeWord N p addr x
  | .rom _ => .ok (raiseErr .bus p)

/-! ## The reset input -/

/-- Hardware reset (R230, R47): every register and `BUF` cell at its reset value, the sample RAMs unspecified again
(U9), the ROMs as configured. The host's own moves are not part of the instance (log 18). -/
def hwReset {Num : Type} (N : NumOps Num) (p : Pabli Num) : Pabli Num :=
  { resetPabli Num N.zero N.one with
    mem := p.mem.filter fun entry => isRomAddr entry.1
    powerOns := p.powerOns + 1
    host := p.host
    lastRead := p.lastRead }

/-! ## The host's next move -/

/-- What the next move of the host comes to. -/
inductive Move where
  /-- the host has no move to make: the idle core waits (R210) -/
  | idle
  /-- the host breaks R236 (U8) -/
  | stuck (f : Fault)
  /-- a bus access or the reset input, complete -/
  | done (outcome : Host.Outcome State Fault Refusal)
  /-- a write of a word to `CMD` (R34), and the state with that move taken -/
  | command (w : Word) (s : State)
deriving Repr

/-- Is the move a read of `STATUS` or the reset input? Only these are allowed while `BUSY = 1` (R236). -/
def allowedWhileBusy {Num : Type} : HostMove Num → Bool
  | .read addr width => decide (target addr width = some .status)
  | .write _ _ _ => false
  | .hwReset => true

/-- A write of the host: one to `CMD` starts a command (R34), any other is complete at once (R65). -/
def writeMove {Num : Type} (N : NumOps Num) (mk : Pabli Num → Configured) (addr : BitVec 18) (width : Nat)
    (v : BusWord Num) (p : Pabli Num) : Move :=
  match target addr width with
  | none => .done (.next ⟨mk (raiseErr .bus p)⟩)
  | some .cmd =>
    match N.wordOfBus v with
    | some w => .command w ⟨mk p⟩
    | none => .done (.refused .busWordKind)
  | some l => .done (outcomeOf mk (busWrite N v p l))

/-- One move of the host, taken from its list. -/
def takeMove {Num : Type} (N : NumOps Num) (mk : Pabli Num → Configured) (move : HostMove Num) (p : Pabli Num) : Move :=
  match move with
  | .read addr width => .done (.next ⟨mk (hostRead N addr width p)⟩)
  | .write addr width v => writeMove N mk addr width v p
  | .hwReset => .done (.next ⟨mk (hwReset N p)⟩)

/-- The host's next move on an instance (R17): the first of its list. -/
def moveOn {Num : Type} (N : NumOps Num) (mk : Pabli Num → Configured) (p : Pabli Num) : Move :=
  match p.host with
  | [] => .idle
  | move :: rest =>
    if p.busy && !allowedWhileBusy move then .stuck .hostAccessWhileBusy
    else takeMove N mk move { p with host := rest }

/-- The host's next move. -/
def nextMove (s : State) : Move :=
  match s.core with
  | .exact p => moveOn exactOps .exact p
  | .b32 p => moveOn b32Ops .b32 p

/-! ## Pseudo-instructions of the host (R98) -/

/-- `CMD word` (R98): the move that starts a command. -/
def cmdMove {Num : Type} (w : Word) : HostMove Num := .write 0x00 4 (.word w)

/-- `CLRERR` (R98): `MemWrite(0x04, 4, 0x00000002)`. -/
def clrErrMove {Num : Type} : HostMove Num := .write 0x04 4 (.word 0x00000002)

/-- Put a move first in the host's list. -/
def pushMove (f : (Num : Type) → HostMove Num) (s : State) : State :=
  onPabli (fun Num p => { p with host := f Num :: p.host }) s

end Sys2Proof.Machine
end

