-- ==== Sys2Proof/Machine/Dispatch.lean ====
section
/-! DEFINITION. What each command does: one arm per constructor of `Instr`, each one call of that command's own meaning. -/

namespace Sys2Proof.Machine

def exec (i : Instr) (s : State) : Host.Outcome State Fault Refusal :=
  match i with
  | .nop => Sys2Proof.Machine.execNop s
  | .reset shape => Sys2Proof.Machine.execReset shape s
  | .run n => Sys2Proof.Machine.execRun n s
  | .boot idx => Sys2Proof.Machine.execBoot idx s
  | .smooth cnt idx => Sys2Proof.Machine.execSmooth cnt idx s
  | .tick idx => Sys2Proof.Machine.execTick idx s
  | .adv => Sys2Proof.Machine.execAdv s
  | .dep => Sys2Proof.Machine.execDep s
  | .rds idx => Sys2Proof.Machine.execRds idx s
  | .rot => Sys2Proof.Machine.execRot s
  | .ramp => Sys2Proof.Machine.execRamp s
  | .coef => Sys2Proof.Machine.execCoef s
  | .injs => Sys2Proof.Machine.execInjs s
  | .injl => Sys2Proof.Machine.execInjl s
  | .dets idx => Sys2Proof.Machine.execDets idx s
  | .detr idx => Sys2Proof.Machine.execDetr idx s
  | .dett idx => Sys2Proof.Machine.execDett idx s
  | .syns idx => Sys2Proof.Machine.execSyns idx s
  | .synr idx => Sys2Proof.Machine.execSynr idx s
  | .synt idx => Sys2Proof.Machine.execSynt idx s

end Sys2Proof.Machine
end

