-- ==== Sys2Proof/Machine/Step.lean ====
section
/-! DEFINITION. One step (R17): one move of the host, and when it writes `CMD` the whole command it starts (R34, R66). -/

namespace Sys2Proof.Machine

/-- A command that has finished leaves `BUSY = 0` (R35). -/
def finishCommand : Host.Outcome State Fault Refusal → Host.Outcome State Fault Refusal
  | .next s => .next (dropBusy s)
  | .fault f => .fault f
  | .refused r => .refused r

/-- A word written to `CMD`: `BUSY` rises, the word is decoded, the command runs to completion, or its error is raised
(R34, R35, R94, R201). -/
def runCommand (w : Word) (s : State) : Host.Outcome State Fault Refusal :=
  match decode w with
  | .ok i => finishCommand (exec i (raiseBusy s))
  | .error e => .next (onPabli (fun _ p => raiseErr e p) (raiseBusy s))

/-- One step: the host's next move (R17). With no move to make the idle core waits (R210). -/
def step (s : State) : Host.Outcome State Fault Refusal :=
  match nextMove s with
  | .idle => .next s
  | .stuck f => .fault f
  | .done outcome => outcome
  | .command w s' => runCommand w s'

/-- The host's next move is made a write of the word to `CMD`, so that the very next step runs that command. Log 2. -/
def State.withFetchWord (s : State) (nbits w : Nat) : State :=
  pushMove (fun _ => cmdMove (BitVec.ofNat 32 (w % 2 ^ nbits))) s

end Sys2Proof.Machine
end

