-- ==== Sys2Proof/Safety.lean ====
section
/-! DEFINITION. The terms in which claims about the machine are stated: relations between states of one configuration,
what an operation leaves alone, the machine's invariants, and the sample formulas of 40 to 43 written once more, over the
rationals and without the machine (the reference that the EXACT statements compare with). -/

namespace Sys2Proof.Machine

/-! ## States of one configuration -/

/-- An EXACT state. -/
def exactState (p : Pabli Rat) : State := ⟨.exact p⟩

/-- A B32 state. -/
def b32State (p : Pabli B32) : State := ⟨.b32 p⟩

/-- A property of the instance, in whichever configuration it is. -/
def OnCore (P : (Num : Type) → NumOps Num → Pabli Num → Prop) (s : State) : Prop :=
  match s.core with
  | .exact p => P Rat exactOps p
  | .b32 p => P B32 b32Ops p

/-- A claim in both configurations: over the number type, its operations and the state of an instance. -/
def BothCores (P : (Num : Type) → NumOps Num → (Pabli Num → State) → Prop) : Prop :=
  P Rat exactOps exactState ∧ P B32 b32Ops b32State

/-- The instance with one more host move, to be made next. -/
def asked {Num : Type} (move : HostMove Num) (p : Pabli Num) : Pabli Num := { p with host := move :: p.host }

/-- The instance with a write of the word to `CMD` as the host's next move. -/
def commanded {Num : Type} (c : Word) (p : Pabli Num) : Pabli Num := asked (cmdMove c) p

/-- Every idle core refuses the command words described, with this error and no other effect (R94, R201). -/
def RaisesOn (bad : Word → Prop) (e : ErrCode) : Prop :=
  BothCores fun _ _ mk => ∀ p c, p.busy = false → bad c → step (mk (commanded c p)) = .next (mk (raiseErr e p))

/-- The exceptions of a format-Z command: `ERR(2)` for a reserved bit. -/
def ZErrors (op : BitVec 8) : Prop :=
  RaisesOn (fun c => c.extractLsb' 24 8 = op ∧ c.extractLsb' 0 24 ≠ 0) .reservedField

/-- The exceptions of a format-I command with operands up to `limit`: `ERR(2)` for a reserved bit, `ERR(3)` beyond the
limit. -/
def IErrors (op : BitVec 8) (limit : Nat) : Prop :=
  RaisesOn (fun c => c.extractLsb' 24 8 = op ∧ c.extractLsb' 16 8 ≠ 0) .reservedField ∧
  RaisesOn (fun c => c.extractLsb' 24 8 = op ∧ c.extractLsb' 16 8 = 0 ∧ limit < (c.extractLsb' 0 16).toNat) .range

/-- Every word of memory outside the addresses written reads as before. -/
def MemKept {Num : Type} (N : NumOps Num) (written : Nat → Prop) (p q : Pabli Num) : Prop :=
  ∀ addr, ¬ written addr → readWord N q addr = readWord N p addr

/-- Nothing but memory changed, and of memory nothing outside the addresses written. -/
def OnlyMem {Num : Type} (N : NumOps Num) (written : Nat → Prop) (p q : Pabli Num) : Prop :=
  q = { p with mem := q.mem } ∧ MemKept N written p q

/-- The cells `BUF[J .. J+len-1]`. -/
def PulseCells {Num : Type} (p : Pabli Num) (len addr : Nat) : Prop :=
  ∃ k, k < len ∧ addr = bufAddr (p.j.val + k)

/-- Any cell of `BUF`. -/
def BufCells (addr : Nat) : Prop := isBufAddr addr = true

/-- What a detector or hard-sync command of sample `i` may write. -/
def SampleCells {Num : Type} (p : Pabli Num) (i addr : Nat) : Prop :=
  addr = wordAddr .syncOut i ∨ PulseCells p 72 addr

/-- What `TICK i` may write. -/
def TickCells (i addr : Nat) : Prop := addr = wordAddr .audioOut i ∨ addr = wordAddr .syncOut i ∨ BufCells addr

/-- What `RUN n` may write. -/
def RunCells (n addr : Nat) : Prop :=
  (∃ i, i < n ∧ (addr = wordAddr .audioOut i ∨ addr = wordAddr .syncOut i)) ∨ BufCells addr

/-- No address. -/
def Nowhere (_ : Nat) : Prop := False

/-- The reset values of the registers (R47, R230). -/
structure ResetRegisters {Num : Type} (N : NumOps Num) (p : Pabli Num) : Prop where
  cursor : p.j = 0
  flags : p.init = false ∧ p.edge = .a
  filter : p.z = N.zero
  oscillator : p.phase = N.zero ∧ p.w = N.zero ∧ p.duty = N.zero ∧ p.lastv = N.zero
  locals : p.a = N.zero ∧ p.dw = N.zero ∧ p.db = N.zero
  operands : p.opa = N.zero ∧ p.opb = N.zero
  shape : p.shape = .saw
  control : p.freqConn = false
  settings : p.fsamp = N.one ∧ p.lowpass = N.zero ∧ p.deffreq = N.zero
  status : p.err = false ∧ p.errcode = 0 ∧ p.busy = false

/-! ## Invariants -/

/-- What every step keeps: memory in canonical form, the core idle, and `ERRCODE` naming an error exactly when `ERR`
is set (R35, R202, R242). -/
structure Consistent {Num : Type} (N : NumOps Num) (p : Pabli Num) : Prop where
  memory : Memory.wf N p.mem = true
  idle : p.busy = false
  noError : p.err = false → p.errcode = 0
  someError : p.err = true → 1 ≤ p.errcode.toNat ∧ p.errcode.toNat ≤ 5

/-- The machine's invariant. -/
def State.Inv (s : State) : Prop := OnCore (fun _ N p => Consistent N p) s

/-- The range invariants of R48 (a), (b), (c), (e), (f), under EXACT; (d) is the type of `J`. Under
B32 (d), (e), (f) hold too (`LevelTail`), and (a) of the targets, but not of a ramped `W` (log 19). -/
structure RangeInv (p : Pabli Rat) : Prop where
  increment : Config.wMin ≤ p.w ∧ p.w ≤ Config.wMax
  duty : p.shape ≠ .saw → p.w ≤ p.duty ∧ p.duty ≤ 1 - p.w
  phase : 0 ≤ p.phase ∧ p.phase < 1
  level : p.shape = .rect → p.lastv = (if p.edge = .a then 1 / 2 else -1 / 2)
  tail : ∀ k, p.j.val + 71 < k → k < 328 → bufRead exactOps p k = 0

/-- R48 (e) and (f) in either configuration: an initialised rectangle is at the level of its segment, and `BUF` is silent
beyond the pulses. -/
structure LevelTail {Num : Type} (N : NumOps Num) (p : Pabli Num) : Prop where
  level : p.init = true → p.shape = .rect → p.lastv = if p.edge = .a then N.half else N.negHalf
  tail : ∀ k, p.j.val + 71 < k → k < 328 → bufRead N p k = N.zero

/-- A well-formed sync word (R143): no event, or `EPS + e` with `0 <= e < 1`. -/
def SyncWordOk (x : Rat) : Prop := x < Config.eps + 1

/-! ## Targets under EXACT (R10, R133) -/

/-- `clamp` (R10). -/
def refClamp (x lo hi : Rat) : Rat := if x < lo then lo else if hi < x then hi else x

/-- The effective phase increment of sample `i` (R133). -/
def refIncrement (p : Pabli Rat) (i : Nat) : Rat :=
  refClamp ((if p.freqConn then readWord exactOps p (wordAddr .freqIn i) else p.deffreq) / p.fsamp)
    Config.wMin Config.wMax

/-- The effective duty of sample `i` for an increment `t` (R135, R136). -/
def refDuty (p : Pabli Rat) (i : Nat) (t : Rat) : Rat :=
  refClamp (readWord exactOps p (wordAddr .dutyIn i)) t (1 - t)

/-- What `BOOT i` leaves (R135). -/
def refBoot (p : Pabli Rat) (i : Nat) : Pabli Rat :=
  let t := refIncrement p i
  match p.shape with
  | .saw => { p with w := t, dw := 0, db := 0, edge := .a, phase := 1 / 2, lastv := 0, init := true }
  | .rect =>
    { p with w := t, dw := 0, db := 0, edge := .a, duty := refDuty p i t, phase := 0, lastv := 1 / 2, init := true }
  | .tri =>
    { p with w := t, dw := 0, db := 0, edge := .a, duty := refDuty p i t, phase := 1 / 2 * refDuty p i t, lastv := 0,
             init := true }

/-- What `SMOOTH cnt, i` leaves (R136). -/
def refSmooth (p : Pabli Rat) (cnt i : Nat) : Pabli Rat :=
  { p with
    dw := (refIncrement p i - p.w) / cnt
    db := if p.shape = .saw then 0 else (refDuty p i (refIncrement p i) - p.duty) / cnt }

/-! ## Pulses under EXACT (R111 to R115) -/

/-- A correction pulse with its offset and magnitude (R110). -/
inductive Pulse where
  | step (phi m : Rat)
  | slope (phi m : Rat)
deriving DecidableEq, Repr

/-- `i0 = rne(r - 0.5)` with `r = P*phi/W` (R111). -/
def refIndex (phi w : Rat) : Int := rneRat (64 * phi / w - 1 / 2)

/-- `rem = r - i0` (R111). -/
def refRem (phi w : Rat) : Rat := 64 * phi / w - refIndex phi w

/-- `e = i + k*P` with `i = i0 mod P` (R112, R113). -/
def refEntry (phi w : Rat) (k : Nat) : Nat := (refIndex phi w % 64).toNat + k * 64

/-- What stride `k` of a pulse adds to `BUF[J + k]` (R114, R115): 72 strides for a step, 71 for a slope. -/
def pulseAt (p : Pabli Rat) : Pulse → Nat → Rat
  | .step phi m, k =>
    if k < 72 then
      m * (readWord exactOps p (stepValueAddr (refEntry phi p.w k))
        + refRem phi p.w * readWord exactOps p (stepDeltaAddr (refEntry phi p.w k)))
    else 0
  | .slope phi m, k =>
    if k < 71 then
      (m * p.w) * (readWord exactOps p (slopeAddr (refEntry phi p.w k))
        + refRem phi p.w * (readWord exactOps p (slopeAddr (refEntry phi p.w k + 1))
          - readWord exactOps p (slopeAddr (refEntry phi p.w k))))
    else 0

/-- What several pulses add to `BUF[J + k]`. -/
def pulseSum (p : Pabli Rat) (pulses : List Pulse) (k : Nat) : Rat := (pulses.map fun x => pulseAt p x k).sum

/-! ## Samples under EXACT (42, 43) -/

/-- What a detector or hard-sync command makes of a sample. -/
structure Sample where
  phase : Rat
  edge : Edge
  lastv : Rat
  /-- the word written to `SYNC_OUT[idx]` -/
  so : Rat
  pulses : List Pulse
deriving DecidableEq, Repr

/-- The edges of one pass over a segment boundary and a wrap: the segment and ideal value after it, and the pulses. -/
structure Pass where
  edge : Edge
  value : Rat
  pulses : List Pulse
deriving DecidableEq, Repr

/-- The phase after the wrap test. -/
def wrapped (x : Rat) : Rat := if 1 ≤ x then x - 1 else x

/-- The sync output of a detector (R161). -/
def refSyncOut (x w : Rat) : Rat := if 1 ≤ x then (x - 1) / w + Config.eps else 0

/-- `DETS` (R162). -/
def sawSample (p : Pabli Rat) : Sample where
  phase := wrapped p.phase
  edge := p.edge
  lastv := 1 / 2 - wrapped p.phase
  so := refSyncOut p.phase p.w
  pulses := if 1 ≤ p.phase then [.step (p.phase - 1) 1] else []

/-- The rectangle's edges on a phase `x`, every offset increased by `off` (R163, R183, R185). -/
def rectPass (duty off : Rat) (edge : Edge) (value x : Rat) : Pass :=
  match edge with
  | .a =>
    if duty ≤ x then
      if 1 ≤ x then ⟨.a, 1 / 2, [.step (x - duty + off) (-1), .step (x - 1 + off) 1]⟩
      else ⟨.b, -1 / 2, [.step (x - duty + off) (-1)]⟩
    else if 1 ≤ x then ⟨.a, 1 / 2, [.step (x - 1 + off) 1]⟩
    else ⟨.a, value, []⟩
  | .b =>
    if 1 ≤ x then
      if duty ≤ x - 1 then ⟨.b, -1 / 2, [.step (x - 1 + off) 1, .step (x - 1 - duty + off) (-1)]⟩
      else ⟨.a, 1 / 2, [.step (x - 1 + off) 1]⟩
    else ⟨.b, value, []⟩

/-- `DETR` (R163). -/
def rectSample (p : Pabli Rat) : Sample where
  phase := wrapped p.phase
  edge := (rectPass p.duty 0 p.edge p.lastv p.phase).edge
  lastv := (rectPass p.duty 0 p.edge p.lastv p.phase).value
  so := refSyncOut p.phase p.w
  pulses := (rectPass p.duty 0 p.edge p.lastv p.phase).pulses

/-- `mup` (R165). -/
def refMup (duty : Rat) : Rat := 1 / duty + 1 / (1 - duty)

/-- `vrise` (R165). -/
def refRise (duty x : Rat) : Rat := -1 / 2 + x / duty

/-- `vfall` (R165). -/
def refFall (duty x : Rat) : Rat := 1 / 2 - (x - duty) / (1 - duty)

/-- The triangle's breaks on a phase `x`, every offset increased by `off` (R164, R184, R185). -/
def triPass (duty off : Rat) (edge : Edge) (x : Rat) : Pass :=
  match edge with
  | .a =>
    if duty ≤ x then
      if 1 ≤ x then
        ⟨.a, refRise duty (x - 1), [.slope (x - duty + off) (-refMup duty), .slope (x - 1 + off) (refMup duty)]⟩
      else ⟨.b, refFall duty x, [.slope (x - duty + off) (-refMup duty)]⟩
    else if 1 ≤ x then ⟨.a, refRise duty (x - 1), [.slope (x - 1 + off) (refMup duty)]⟩
    else ⟨.a, refRise duty x, []⟩
  | .b =>
    if 1 ≤ x then
      if duty ≤ x - 1 then
        ⟨.b, refFall duty (x - 1), [.slope (x - 1 + off) (refMup duty), .slope (x - 1 - duty + off) (-refMup duty)]⟩
      else ⟨.a, refRise duty (x - 1), [.slope (x - 1 + off) (refMup duty)]⟩
    else ⟨.b, refFall duty x, []⟩

/-- `DETT` (R164). -/
def triSample (p : Pabli Rat) : Sample where
  phase := wrapped p.phase
  edge := (triPass p.duty 0 p.edge p.phase).edge
  lastv := (triPass p.duty 0 p.edge p.phase).value
  so := refSyncOut p.phase p.w
  pulses := (triPass p.duty 0 p.edge p.phase).pulses

/-- `eof = (s - EPS) * W` (R181). -/
def refEof (s w : Rat) : Rat := (s - Config.eps) * w

/-- `SYNS` on the sync word `s` (R182). -/
def sawSync (p : Pabli Rat) (s : Rat) : Sample where
  phase := refEof s p.w
  edge := p.edge
  lastv := 1 / 2 - refEof s p.w
  so := s
  pulses :=
    if 1 ≤ p.phase - refEof s p.w then
      [.step (p.phase - refEof s p.w - 1 + refEof s p.w) 1, .step (refEof s p.w) (p.phase - refEof s p.w - 1)]
    else [.step (refEof s p.w) (p.phase - refEof s p.w)]

/-- The reset pass of the rectangle (R183), after the catch-up pass. -/
def rectReset (duty eof : Rat) (c : Pass) : Pass :=
  let up : Pass := if c.edge = .b then ⟨.a, 1 / 2, c.pulses ++ [.step eof 1]⟩ else c
  if duty ≤ eof then ⟨.b, -1 / 2, up.pulses ++ [.step (eof - duty) (-1)]⟩ else up

/-- The two passes of `SYNR` on the sync word `s` (R183). -/
def rectSyncPass (p : Pabli Rat) (s : Rat) : Pass :=
  rectReset p.duty (refEof s p.w) (rectPass p.duty (refEof s p.w) p.edge p.lastv (p.phase - refEof s p.w))

/-- `SYNR` on the sync word `s` (R183). -/
def rectSync (p : Pabli Rat) (s : Rat) : Sample where
  phase := refEof s p.w
  edge := (rectSyncPass p s).edge
  lastv := (rectSyncPass p s).value
  so := s
  pulses := (rectSyncPass p s).pulses

/-- The reset pass of the triangle (R184), after the catch-up pass that left the old cycle's value. -/
def triReset (duty eof : Rat) (c : Pass) : Pass :=
  let slope : List Pulse := if c.edge = .b then [.slope eof (refMup duty)] else []
  let jump : List Pulse := c.pulses ++ slope ++ [.step eof (-1 / 2 - c.value)]
  if duty ≤ eof then ⟨.b, refFall duty eof, jump ++ [.slope (eof - duty) (-refMup duty)]⟩
  else ⟨.a, refRise duty eof, jump⟩

/-- The two passes of `SYNT` on the sync word `s` (R184). -/
def triSyncPass (p : Pabli Rat) (s : Rat) : Pass :=
  triReset p.duty (refEof s p.w) (triPass p.duty (refEof s p.w) p.edge (p.phase - refEof s p.w))

/-- `SYNT` on the sync word `s` (R184). -/
def triSync (p : Pabli Rat) (s : Rat) : Sample where
  phase := refEof s p.w
  edge := (triSyncPass p s).edge
  lastv := (triSyncPass p s).value
  so := s
  pulses := (triSyncPass p s).pulses

/-- The state `q` is `p` with the sample done: registers, `SYNC_OUT[i]`, the pulses in `BUF[J ..]`, and nothing else. -/
structure SampleDone (p q : Pabli Rat) (i : Nat) (x : Sample) : Prop where
  registers : q = { p with phase := x.phase, edge := x.edge, lastv := x.lastv, mem := q.mem }
  syncOut : readWord exactOps q (wordAddr .syncOut i) = x.so
  pulses : ∀ k, k < 72 → bufRead exactOps q (p.j.val + k) = bufRead exactOps p (p.j.val + k) + pulseSum p x.pulses k
  rest : MemKept exactOps (fun addr => addr = wordAddr .syncOut i ∨ PulseCells p 72 addr) p q

/-! ## Command words (R93, R94), by match and mask -/

/-- One row of the opcode map (R93). -/
structure Row where
  op : BitVec 8
  pattern : Word
  mask : Word
deriving DecidableEq, Repr

/-- The opcode map (R93): opcode, match, mask. -/
def opcodeMap : List Row :=
  [⟨0x00, 0x00000000, 0xFFFFFFFF⟩, ⟨0x01, 0x01000000, 0xFFFFFFFC⟩, ⟨0x02, 0x02000000, 0xFFFF0000⟩,
   ⟨0x10, 0x10000000, 0xFFFF0000⟩, ⟨0x11, 0x11000000, 0xFF000000⟩, ⟨0x12, 0x12000000, 0xFFFF0000⟩,
   ⟨0x20, 0x20000000, 0xFFFFFFFF⟩, ⟨0x21, 0x21000000, 0xFFFFFFFF⟩, ⟨0x22, 0x22000000, 0xFFFF0000⟩,
   ⟨0x23, 0x23000000, 0xFFFFFFFF⟩] ++
  [⟨0x24, 0x24000000, 0xFFFFFFFF⟩, ⟨0x25, 0x25000000, 0xFFFFFFFF⟩, ⟨0x30, 0x30000000, 0xFFFFFFFF⟩,
   ⟨0x31, 0x31000000, 0xFFFFFFFF⟩, ⟨0x40, 0x40000000, 0xFFFF0000⟩, ⟨0x41, 0x41000000, 0xFFFF0000⟩,
   ⟨0x42, 0x42000000, 0xFFFF0000⟩, ⟨0x50, 0x50000000, 0xFFFF0000⟩, ⟨0x51, 0x51000000, 0xFFFF0000⟩,
   ⟨0x52, 0x52000000, 0xFFFF0000⟩]

/-- Check 3 of R94 on a word that passed the first two: is an operand out of range? -/
def outOfRange (c : Word) : Bool :=
  let op := c.extractLsb' 24 8
  let low := (c.extractLsb' 0 16).toNat
  if op = 0x02 then decide (low > 1024)
  else if op = 0x11 then decide ((c.extractLsb' 16 8).toNat = 0) || decide (low > 1023)
  else if op = 0x10 ∨ op = 0x12 ∨ op = 0x22 ∨ op = 0x40 ∨ op = 0x41 ∨ op = 0x42 ∨ op = 0x50 ∨ op = 0x51 ∨ op = 0x52
  then decide (low > 1023)
  else false

/-- The first of the three decode checks of R94 that a command word fails, if any. -/
def firstFailure (c : Word) : Option ErrCode :=
  match opcodeMap.find? fun row => decide (row.op = c.extractLsb' 24 8) with
  | none => some .illegalOpcode
  | some row =>
    if c &&& row.mask ≠ row.pattern ∨ (row.op = 0x01 ∧ c.extractLsb' 0 2 = 3) then some .reservedField
    else if outOfRange c then some .range
    else none

/-! ## Sequences of commands (R132, R142, R211) -/

/-- Commands one after another, stopping at the first that has no next state. -/
def execAll : List Instr → State → Host.Outcome State Fault Refusal
  | [], s => .next s
  | i :: rest, s =>
    match exec i s with
    | .next t => execAll rest t
    | .fault f => .fault f
    | .refused r => .refused r

/-- `TICK s` for `s = base .. base+c-1`. -/
def ticks (base c : Nat) : List Instr := (List.range c).map fun k => .tick (BitVec.ofNat 16 (base + k))

/-- The chunks of a block from sample `base` with `left` to go (R132). -/
def chunkSchedule : Nat → Nat → Nat → List Instr
  | 0, _, _ => []
  | rounds + 1, base, left =>
    if left = 0 then []
    else
      .smooth (BitVec.ofNat 8 (min 16 left)) (BitVec.ofNat 16 (base + min 16 left - 1))
        :: ticks base (min 16 left) ++ chunkSchedule rounds (base + min 16 left) (left - min 16 left)

/-- The single commands that `RUN n` is defined as (R132), from a core with the given `INIT`. -/
def runSchedule (n : Nat) (init : Bool) : List Instr :=
  if n = 0 then []
  else .coef :: (if init then [] else [.boot 0]) ++ chunkSchedule n 0 n

/-- The detector or hard-sync command that `TICK` runs (R142). -/
def handler (sync : Bool) (shape : Shape) (idx : BitVec 16) : Instr :=
  match sync, shape with
  | true, .saw => .syns idx
  | true, .rect => .synr idx
  | true, .tri => .synt idx
  | false, .saw => .dets idx
  | false, .rect => .detr idx
  | false, .tri => .dett idx

end Sys2Proof.Machine
end

