-- ==== Sys2Proof/Certificates/Slice0/Obligations.lean ====
section
/-! DEFINITION. The statements for the provers. Each docstring names the rule or section of spec/ it formalises, and the log
entry when the statement rests on a choice of the model. -/

open Sys2Proof Sys2Proof.Machine

/-! ## Encoding (30_encoding.md) -/

/-- R91, R93: decoding the encoder's word of any command gives that command, every operand at every value. -/
def Obligations.DecodeOfEncode : Prop := ∀ i : Instr, decode (encode i) = .ok i

/-- R91, R93: a word that decodes is the encoder's word of what it decodes to, so no two words mean one command. -/
def Obligations.EncodeOfDecode : Prop := ∀ (c : Word) (i : Instr), decode c = .ok i → encode i = c

/-- R93, R94: the decoder and the operand ranges find the same first failure as the match and mask table. -/
def Obligations.DecodeMatchesOpcodeMap : Prop :=
  ∀ c : Word, firstFailure c =
    match decode c with
    | .ok i => if i.wellFormed then none else some .range
    | .error e => some e

/-- R97: words written out from the assembler table decode to the commands they stand for. -/
def Obligations.AssemblerWordsDecode : Prop :=
  decode 0x00000000#32 = .ok .nop ∧ decode 0x01000002#32 = .ok (.reset .tri) ∧
  decode 0x02000040#32 = .ok (.run 64) ∧ decode 0x1110000F#32 = .ok (.smooth 16 15) ∧
  decode 0x120003FF#32 = .ok (.tick 1023) ∧ decode 0x20000000#32 = .ok .adv ∧
  decode 0x31000000#32 = .ok .injl ∧ decode 0x42000003#32 = .ok (.dett 3) ∧
  decode 0x51000007#32 = .ok (.synr 7)

/-- R94: a word written to `CMD` of an idle core raises the error of the first failing check and does nothing else; a
word that fails none is decoded and executed. -/
def Obligations.CommandChecksInOrder : Prop :=
  BothCores fun _ _ mk => ∀ p c, p.busy = false →
    match firstFailure c with
    | some e => step (mk (commanded c p)) = .next (mk (raiseErr e p))
    | none => ∃ i, decode c = .ok i ∧ i.wellFormed = true ∧
        step (mk (commanded c p)) = finishCommand (exec i (mk { p with busy := true }))

/-- R34, R17: a step that takes a write of a word to `CMD` is the execution of the command the word decodes to, with
`BUSY` raised before it and dropped after it. -/
def Obligations.StepRunsDecoded : Prop :=
  BothCores fun _ _ mk => ∀ p c i, p.busy = false → decode c = .ok i →
    step (mk (commanded c p)) = finishCommand (exec i (mk { p with busy := true }))

/-- R94 check 3: every command with an operand out of range raises `ERR(3)` and does nothing else. -/
def Obligations.IllFormedRaisesRange : Prop :=
  BothCores fun _ _ mk => ∀ p i, i.wellFormed = false → exec i (mk p) = .next (mk (raiseErr .range p))

/-! ## The bus (10_state.md, 20_memory.md, 60_exceptions.md) -/

/-- R210: a core whose host makes no move stays as it is. -/
def Obligations.IdleCoreWaits : Prop :=
  BothCores fun _ _ mk => ∀ p, p.host = [] → step (mk p) = .next (mk p)

/-- R64: an access that is misaligned or not four bytes wide reads 0, writes nothing, and raises `ERR(5)`. -/
def Obligations.MisalignedAccessRefused : Prop :=
  BothCores fun _ _ mk => ∀ p addr width v, p.busy = false → (addr.toNat % 4 ≠ 0 ∨ width ≠ 4) →
    step (mk (asked (.read addr width) p)) = .next (mk { raiseErr .bus p with lastRead := some (.word 0) }) ∧
    step (mk (asked (.write addr width v) p)) = .next (mk (raiseErr .bus p))

/-- R67: an access to an unmapped address reads 0, writes nothing, and raises `ERR(5)`. -/
def Obligations.UnmappedAccessRefused : Prop :=
  BothCores fun _ _ mk => ∀ p addr v, p.busy = false →
    ((0x48 ≤ addr.toNat ∧ addr.toNat ≤ 0xFF) ∨ (0x100 ≤ addr.toNat ∧ addr.toNat ≤ 0x7FF) ∨
      (0xD20 ≤ addr.toNat ∧ addr.toNat ≤ 0xFFF) ∨ (0x6000 ≤ addr.toNat ∧ addr.toNat ≤ 0xFFFF) ∨
      (0x19000 ≤ addr.toNat ∧ addr.toNat ≤ 0x1FFFF) ∨ (0x24704 ≤ addr.toNat ∧ addr.toNat ≤ 0x3FFFF)) →
    step (mk (asked (.read addr 4) p)) = .next (mk { raiseErr .bus p with lastRead := some (.word 0) }) ∧
    step (mk (asked (.write addr 4 v) p)) = .next (mk (raiseErr .bus p))

/-- R33, R34, R65: a read of a register of the window returns it, and changes nothing else. -/
def Obligations.RegisterReads : Prop :=
  BothCores fun Num N mk => ∀ (p : Pabli Num), p.busy = false →
    let answers := fun (addr : BitVec 18) (v : BusWord Num) =>
      step (mk (asked (.read addr 4) p)) = .next (mk { p with lastRead := some v })
    answers 0x00 (.word 0) ∧ answers 0x04 (.word (statusWord p)) ∧
    answers 0x08 (.word (if p.freqConn then 1 else 0)) ∧ answers 0x0C (N.busOfNum p.fsamp) ∧
    answers 0x10 (N.busOfNum p.lowpass) ∧ answers 0x14 (N.busOfNum p.deffreq) ∧
    answers 0x18 (N.busOfNum p.opa) ∧ answers 0x1C (N.busOfNum p.opb) ∧
    answers 0x20 (N.busOfNum p.phase) ∧ answers 0x24 (N.busOfNum p.w) ∧
    answers 0x28 (N.busOfNum p.duty) ∧ answers 0x2C (N.busOfNum p.lastv) ∧
    answers 0x30 (N.busOfNum p.z) ∧ answers 0x34 (N.busOfNum p.a) ∧
    answers 0x38 (N.busOfNum p.dw) ∧ answers 0x3C (N.busOfNum p.db) ∧
    answers 0x40 (.word (BitVec.ofNat 32 p.j.val)) ∧ answers 0x44 (.word (flagsWord p))

/-- R33, R65: a write of a `num` register of the window stores the number and does nothing else. -/
def Obligations.RegisterWrites : Prop :=
  BothCores fun Num N mk => ∀ (p : Pabli Num) (x : Num), p.busy = false →
    let stores := fun (addr : BitVec 18) (q : Pabli Num) =>
      step (mk (asked (.write addr 4 (N.busOfNum x)) p)) = .next (mk q)
    stores 0x0C { p with fsamp := x } ∧ stores 0x10 { p with lowpass := x } ∧ stores 0x14 { p with deffreq := x } ∧
    stores 0x18 { p with opa := x } ∧ stores 0x1C { p with opb := x } ∧ stores 0x20 { p with phase := x } ∧
    stores 0x24 { p with w := x } ∧ stores 0x28 { p with duty := x } ∧ stores 0x2C { p with lastv := x } ∧
    stores 0x30 { p with z := x } ∧ stores 0x34 { p with a := x } ∧ stores 0x38 { p with dw := x } ∧
    stores 0x3C { p with db := x }

/-- R61, R65: a word of `BUF` or of a sample RAM that the host writes reads back; every other word and every register
stay; and a read of a word of memory returns it and changes nothing. -/
def Obligations.MemoryWords : Prop :=
  BothCores fun Num N mk => ∀ (p : Pabli Num) (addr : BitVec 18) (x : Num), p.busy = false → addr.toNat % 4 = 0 →
    (isBufAddr addr.toNat = true ∨ isRamAddr addr.toNat = true →
      ∃ q, step (mk (asked (.write addr 4 (N.busOfNum x)) p)) = .next (mk q) ∧
        readWord N q addr.toNat = x ∧ OnlyMem N (fun a => a = addr.toNat) p q) ∧
    (isBufAddr addr.toNat = true ∨ isRamAddr addr.toNat = true ∨ isRomAddr addr.toNat = true →
      step (mk (asked (.read addr 4) p)) =
        .next (mk { p with lastRead := some (N.busOfNum (readWord N p addr.toNat)) }))

/-- R68: a write to a table ROM raises `ERR(5)` and changes nothing, a read of `CMD` returns 0 without an error, a write
to `STATUS` raises no error, and an illegal value for `CTRL`, `J` or `FLAGS` raises `ERR(4)` and changes nothing. -/
def Obligations.RefusedWrites : Prop :=
  (BothCores fun _ _ mk => ∀ p addr v, p.busy = false → addr.toNat % 4 = 0 → isRomAddr addr.toNat = true →
    step (mk (asked (.write addr 4 v) p)) = .next (mk (raiseErr .bus p))) ∧
  (BothCores fun _ _ mk => ∀ p, p.busy = false →
    step (mk (asked (.read 0x00 4) p)) = .next (mk { p with lastRead := some (.word 0) })) ∧
  (BothCores fun Num _ mk => ∀ (p : Pabli Num) w, p.busy = false →
    ∃ q : Pabli Num, step (mk (asked (.write 0x04 4 (.word w)) p)) = .next (mk q) ∧
      ((q.err = p.err ∧ q.errcode = p.errcode) ∨ q.err = false)) ∧
  (BothCores fun _ _ mk => ∀ p w, p.busy = false →
    (w.extractLsb' 1 31 ≠ 0 →
      step (mk (asked (.write 0x08 4 (.word w)) p)) = .next (mk (raiseErr .badRegValue p))) ∧
    (256 ≤ w.toNat → step (mk (asked (.write 0x40 4 (.word w)) p)) = .next (mk (raiseErr .badRegValue p))) ∧
    (w.extractLsb' 2 30 ≠ 0 →
      step (mk (asked (.write 0x44 4 (.word w)) p)) = .next (mk (raiseErr .badRegValue p))))

/-- R35: where the fields of `STATUS` stand, and what a write to it does: 1 in bit 1 clears `ERR` and `ERRCODE`, every
other bit is ignored. -/
def Obligations.StatusFields : Prop :=
  BothCores fun Num _ mk => ∀ (p : Pabli Num) (w : Word), p.busy = false →
    (statusWord p).getLsbD 0 = false ∧ (statusWord p).getLsbD 1 = p.err ∧ (statusWord p).extractLsb' 2 2 = 0 ∧
    (statusWord p).extractLsb' 4 4 = p.errcode ∧
    (statusWord p).extractLsb' 8 2 = (match p.shape with | .saw => 0 | .rect => 1 | .tri => 2) ∧
    (statusWord p).extractLsb' 10 22 = 0 ∧
    step (mk (asked (.write 0x04 4 (.word w)) p)) =
      .next (mk (if w.getLsbD 1 then { p with err := false, errcode := 0 } else p))

/-- R36: `CTRL` holds `FREQ_CONN` in bit 0; a write with a reserved bit set is refused with `ERR(4)`; and `FREQ_CONN`
selects the frequency input of every sample. -/
def Obligations.ControlRegister : Prop :=
  BothCores fun Num N mk => ∀ (p : Pabli Num) (w : Word) (i : Nat), p.busy = false →
    (w = 0 → step (mk (asked (.write 0x08 4 (.word w)) p)) = .next (mk { p with freqConn := false })) ∧
    (w = 1 → step (mk (asked (.write 0x08 4 (.word w)) p)) = .next (mk { p with freqConn := true })) ∧
    (w ≠ 0 ∧ w ≠ 1 → step (mk (asked (.write 0x08 4 (.word w)) p)) = .next (mk (raiseErr .badRegValue p))) ∧
    freqIn N { p with freqConn := true } i = readWord N p (0x1000 + 4 * i) ∧
    freqIn N { p with freqConn := false } i = p.deffreq

/-- R40: a write of 0 to 255 to `J` moves the cursor, a larger one is refused with `ERR(4)`; a read has bits 31:9 zero. -/
def Obligations.CursorRegister : Prop :=
  BothCores fun Num _ mk => ∀ (p : Pabli Num) (w : Word), p.busy = false →
    (w.toNat < 256 → ∃ q : Pabli Num, step (mk (asked (.write 0x40 4 (.word w)) p)) = .next (mk q) ∧
      q = { p with j := q.j } ∧ q.j.val = w.toNat) ∧
    (256 ≤ w.toNat → step (mk (asked (.write 0x40 4 (.word w)) p)) = .next (mk (raiseErr .badRegValue p))) ∧
    ∃ r : Word, step (mk (asked (.read 0x40 4) p)) = .next (mk { p with lastRead := some (.word r) }) ∧
      r.extractLsb' 9 23 = 0 ∧ (r.extractLsb' 0 9).toNat = p.j.val

/-- R41: `FLAGS` holds `INIT` in bit 0 and `EDGE` in bit 1 (0 for A); a write with a reserved bit set is refused with
`ERR(4)`. -/
def Obligations.FlagsRegister : Prop :=
  BothCores fun Num _ mk => ∀ (p : Pabli Num) (w : Word), p.busy = false →
    (w.extractLsb' 2 30 = 0 → step (mk (asked (.write 0x44 4 (.word w)) p)) =
      .next (mk { p with init := w.getLsbD 0, edge := if w.getLsbD 1 then .b else .a })) ∧
    (w.extractLsb' 2 30 ≠ 0 →
      step (mk (asked (.write 0x44 4 (.word w)) p)) = .next (mk (raiseErr .badRegValue p))) ∧
    ∃ r : Word, step (mk (asked (.read 0x44 4) p)) = .next (mk { p with lastRead := some (.word r) }) ∧
      r.getLsbD 0 = p.init ∧ r.getLsbD 1 = decide (p.edge = .b) ∧ r.extractLsb' 2 30 = 0

/-- R201, R202: the first error sets `ERR` and its code, a later one changes nothing but `BUSY`, and the host's clearing
write clears both. -/
def Obligations.FirstErrorSticks : Prop :=
  (BothCores fun Num _ mk => ∀ (p : Pabli Num) (e : ErrCode),
    (p.err = false → raiseErr e p = { p with err := true, errcode := errCodeBits e, busy := false }) ∧
    (p.err = true → raiseErr e p = { p with busy := false }) ∧
    (p.busy = false → step (mk (asked clrErrMove p)) = .next (mk { p with err := false, errcode := 0 }))) ∧
  errCodeBits .illegalOpcode = 1 ∧ errCodeBits .reservedField = 2 ∧ errCodeBits .range = 3 ∧
  errCodeBits .badRegValue = 4 ∧ errCodeBits .bus = 5

/-- R236, U8, and the model's treatment of it (log 10): the machine faults exactly when the host makes, while `BUSY = 1`, a
move that is neither a read of `STATUS` nor the reset input. -/
def Obligations.OnlyBusyAccessFaults : Prop :=
  BothCores fun Num _ mk => ∀ (p : Pabli Num) (f : Fault),
    step (mk p) = .fault f ↔
      f = .hostAccessWhileBusy ∧ p.busy = true ∧
        ∃ m rest, p.host = m :: rest ∧ m ≠ .read 0x04 4 ∧ m ≠ .hwReset

/-! ## Reset (10_state.md, 70_reset_and_hazards.md) -/

/-- R47, for the two starting states of the model; that `State.reset` is the EXACT one, with no host move and no listed word,
is the model's choice (logs 1, 2, 3). -/
def Obligations.StateAtReset : Prop :=
  (∃ p, State.reset = exactState p ∧ ResetRegisters exactOps p ∧ p.host = [] ∧ p.mem = [] ∧
    ∀ k, k < 328 → bufRead exactOps p k = 0) ∧
  (∃ p, State.resetB32 = b32State p ∧ ResetRegisters b32Ops p ∧ p.host = [] ∧ p.mem = [] ∧
    ∀ k, k < 328 → bufRead b32Ops p k = 0x00000000#32)

/-- R230: the reset input puts every register and every cell of `BUF` at its reset value, keeps the table ROMs, leaves the
sample RAMs at free values (log 3), and does not touch the host (log 18). -/
def Obligations.HardwareReset : Prop :=
  BothCores fun Num N mk => ∀ (p : Pabli Num), ∃ q : Pabli Num,
    step (mk (asked .hwReset p)) = .next (mk q) ∧ ResetRegisters N q ∧
    (∀ k, k < 328 → bufRead N q k = N.zero) ∧
    (∀ addr, isRomAddr addr = true → readWord N q addr = readWord N p addr) ∧
    (∀ addr, isRamAddr addr = true → readWord N q addr = N.ram (p.powerOns + 1) addr) ∧
    q.host = p.host ∧ q.lastRead = p.lastRead

/-- R231: after a hardware reset, `RESET SAW` leaves the state as it is. -/
def Obligations.ResetSawAfterHardwareReset : Prop :=
  BothCores fun Num _ mk => ∀ (p q : Pabli Num),
    step (mk (asked .hwReset p)) = .next (mk q) → exec (.reset .saw) (mk q) = .next (mk q)

/-! ## Whole-machine rules -/

/-- The invariant holds at both starting states. -/
def Obligations.InvariantAtReset : Prop := State.reset.Inv ∧ State.resetB32.Inv

/-- Every step keeps the invariant: canonical memory, an idle core between steps (R35, R46), and `ERRCODE` naming one of the
five errors exactly when `ERR` is set (R35, R202). -/
def Obligations.InvariantKept : Prop := ∀ s t : State, s.Inv → step s = .next t → t.Inv

/-- R7, R45, R74: no step changes a word of the table ROMs or the numeric configuration. -/
def Obligations.TablesNeverChange : Prop :=
  BothCores fun Num N mk => ∀ (p : Pabli Num) (t : State), step (mk p) = .next t →
    ∃ q : Pabli Num, t = mk q ∧ ∀ addr, isRomAddr addr = true → readWord N q addr = readWord N p addr

/-- R33, R42, R44, R30: no command with legal operands writes `CTRL`, `FSAMP`, `LOWPASS`, `DEFFREQ`, `OPA`, `OPB`, `ERR`,
`ERRCODE`, or a word of an input RAM or a table ROM; none but `RESET` writes `SHAPE` or clears `INIT`. -/
def Obligations.CommandsKeepHostState : Prop :=
  BothCores fun Num N mk => ∀ (p : Pabli Num) (i : Instr) (t : State), i.wellFormed = true →
    exec i (mk p) = .next t → ∃ q : Pabli Num, t = mk q ∧
      q.freqConn = p.freqConn ∧ q.fsamp = p.fsamp ∧ q.lowpass = p.lowpass ∧ q.deffreq = p.deffreq ∧
      q.opa = p.opa ∧ q.opb = p.opb ∧ q.err = p.err ∧ q.errcode = p.errcode ∧ q.busy = p.busy ∧
      (∀ addr, inRegion .freqIn addr = true ∨ inRegion .syncIn addr = true ∨ inRegion .dutyIn addr = true ∨
        isRomAddr addr = true → readWord N q addr = readWord N p addr) ∧
      ((∀ shape, i ≠ .reset shape) → q.shape = p.shape ∧ (p.init = true → q.init = true))

/-! ## Block level (41_core_loop.md) -/

/-- R130. -/
def Obligations.NopDoesNothing : Prop :=
  encode .nop = 0x00000000#32 ∧
  (BothCores fun _ _ mk => ∀ p, exec .nop (mk p) = .next (mk p) ∧
    (p.busy = false → step (mk (commanded 0x00000000#32 p)) = .next (mk p))) ∧
  ZErrors 0x00

/-- R131, R214: `RESET` of every shape, from every state. -/
def Obligations.ResetResult : Prop :=
  encode (.reset .saw) = 0x01000000#32 ∧ encode (.reset .rect) = 0x01000001#32 ∧ encode (.reset .tri) = 0x01000002#32 ∧
  (BothCores fun Num N mk => ∀ (p : Pabli Num) (shape : Shape), ∃ q : Pabli Num,
    exec (.reset shape) (mk p) = .next (mk q) ∧
    q = { p with shape := shape, j := 0, z := N.zero, init := false, edge := .a, phase := N.zero, w := N.zero,
                 duty := N.zero, lastv := N.zero, a := N.zero, dw := N.zero, db := N.zero, mem := q.mem } ∧
    (∀ k, k < 328 → bufRead N q k = N.zero) ∧ MemKept N BufCells p q) ∧
  RaisesOn (fun c => c.extractLsb' 24 8 = 0x01#8 ∧ c.extractLsb' 2 22 ≠ 0) .reservedField ∧
  RaisesOn (fun c => c.extractLsb' 24 8 = 0x01#8 ∧ c.extractLsb' 0 2 = 3) .reservedField

/-- R132, R211: `RUN n` is the sequence of single commands that defines it, in both configurations, also where one of them
is refused. It raises no error, and the words of the output RAMs from `n` on are not written. -/
def Obligations.RunIsItsSchedule : Prop :=
  (∀ n, encode (.run n) = 0x02000000#32 + n.zeroExtend 32) ∧
  (BothCores fun Num N mk => ∀ (p : Pabli Num) (n : BitVec 16), n.toNat ≤ 1024 →
    exec (.run n) (mk p) = execAll (runSchedule n.toNat p.init) (mk p) ∧
    ∀ q, exec (.run n) (mk p) = .next (mk q) →
      q.err = p.err ∧ q.errcode = p.errcode ∧ MemKept N (RunCells n.toNat) p q) ∧
  IErrors 0x02 1024

/-- R48, R143, R18: under EXACT, a block of well-formed sync words on a core in the range invariants (or before its first
sample) completes, leaves the range invariants, and advances the cursor by one per sample, modulo `FILLEN`. -/
def Obligations.RunKeepsRanges : Prop :=
  ∀ (p : Pabli Rat) (n : BitVec 16), 0 < n.toNat → n.toNat ≤ 1024 → p.fsamp ≠ 0 →
    (p.init = true → RangeInv p) → (∀ k, p.j.val + 71 < k → k < 328 → bufRead exactOps p k = 0) →
    (∀ i, i < n.toNat → SyncWordOk (readWord exactOps p (wordAddr .syncIn i))) →
    ∃ q, exec (.run n) (exactState p) = .next (exactState q) ∧ RangeInv q ∧ q.init = true ∧
      q.j.val = (p.j.val + n.toNat) % 256

/-- R134. -/
def Obligations.CoefResult : Prop :=
  encode .coef = 0x25000000#32 ∧
  (∀ p : Pabli Rat, exec .coef (exactState p) = .next (exactState { p with a := 1 / 5 + 4 / 5 * p.lowpass }) ∧
    (0 ≤ p.lowpass ∧ p.lowpass ≤ 1 → 1 / 5 ≤ 1 / 5 + 4 / 5 * p.lowpass ∧ 1 / 5 + 4 / 5 * p.lowpass ≤ 1)) ∧
  (∀ (p : Pabli B32) (x a : B32), b32Mul 0x3F4CCCCD#32 p.lowpass = .ok x → b32Add 0x3E4CCCCD#32 x = .ok a →
    exec .coef (b32State p) = .next (b32State { p with a := a })) ∧
  (∀ p : Pabli B32, p.lowpass = 0x3F800000#32 →
    exec .coef (b32State p) = .next (b32State { p with a := 0x3F800000#32 })) ∧
  ZErrors 0x25

/-- R135 under EXACT, with its exceptions. -/
def Obligations.BootResult : Prop :=
  (∀ (p : Pabli Rat) (idx : BitVec 16), idx.toNat ≤ 1023 → p.fsamp ≠ 0 →
    exec (.boot idx) (exactState p) = .next (exactState (refBoot p idx.toNat))) ∧
  IErrors 0x10 1023

/-- R136 under EXACT, with its exceptions. -/
def Obligations.SmoothResult : Prop :=
  (∀ (p : Pabli Rat) (cnt : BitVec 8) (idx : BitVec 16), 1 ≤ cnt.toNat → idx.toNat ≤ 1023 → p.fsamp ≠ 0 →
    exec (.smooth cnt idx) (exactState p) = .next (exactState (refSmooth p cnt.toNat idx.toNat))) ∧
  RaisesOn (fun c => c.extractLsb' 24 8 = 0x11#8 ∧
    ((c.extractLsb' 16 8).toNat = 0 ∨ 1023 < (c.extractLsb' 0 16).toNat)) .range

/-! ## The steps of one sample (41_core_loop.md) -/

/-- R137. -/
def Obligations.RampResult : Prop :=
  encode .ramp = 0x24000000#32 ∧
  (∀ p : Pabli Rat,
    exec .ramp (exactState p) = .next (exactState { p with w := p.w + p.dw, duty := p.duty + p.db })) ∧
  (∀ (p : Pabli B32) (w d : B32), b32Add p.w p.dw = .ok w → b32Add p.duty p.db = .ok d →
    exec .ramp (b32State p) = .next (b32State { p with w := w, duty := d })) ∧
  ZErrors 0x24

/-- R138. -/
def Obligations.AdvResult : Prop :=
  encode .adv = 0x20000000#32 ∧
  (∀ p : Pabli Rat, exec .adv (exactState p) = .next (exactState { p with phase := p.phase + p.w })) ∧
  (∀ (p : Pabli B32) (x : B32), b32Add p.phase p.w = .ok x →
    exec .adv (b32State p) = .next (b32State { p with phase := x })) ∧
  ZErrors 0x20

/-- R139: one cell, `DD` ahead of the cursor and inside `BUF`. -/
def Obligations.DepResult : Prop :=
  encode .dep = 0x21000000#32 ∧
  (∀ p : Pabli Rat, ∃ q, exec .dep (exactState p) = .next (exactState q) ∧
    bufRead exactOps q (p.j.val + 4) = bufRead exactOps p (p.j.val + 4) + p.lastv ∧
    OnlyMem exactOps (fun a => a = bufAddr (p.j.val + 4)) p q) ∧
  (∀ (p : Pabli B32) (v : B32), b32Add (bufRead b32Ops p (p.j.val + 4)) p.lastv = .ok v →
    ∃ q, exec .dep (b32State p) = .next (b32State q) ∧ bufRead b32Ops q (p.j.val + 4) = v ∧
      OnlyMem b32Ops (fun a => a = bufAddr (p.j.val + 4)) p q) ∧
  (∀ p : Pabli Rat, p.j.val + 4 ≤ 259) ∧
  ZErrors 0x21

/-- R140: the filter, and one word of `AUDIO_OUT`; `BUF[J]` and `J` stay. -/
def Obligations.RdsResult : Prop :=
  (∀ idx, encode (.rds idx) = 0x22000000#32 + idx.zeroExtend 32) ∧
  (∀ (p : Pabli Rat) (idx : BitVec 16), idx.toNat ≤ 1023 → ∃ q, exec (.rds idx) (exactState p) = .next (exactState q) ∧
    q = { p with z := p.z + p.a * (bufRead exactOps p p.j.val - p.z), mem := q.mem } ∧
    readWord exactOps q (wordAddr .audioOut idx.toNat) = q.z ∧
    MemKept exactOps (fun a => a = wordAddr .audioOut idx.toNat) p q ∧
    (p.a = 1 → q.z = bufRead exactOps p p.j.val)) ∧
  (∀ (p : Pabli B32) (idx : BitVec 16) (d x z : B32), idx.toNat ≤ 1023 →
    b32Sub (bufRead b32Ops p p.j.val) p.z = .ok d → b32Mul p.a d = .ok x → b32Add p.z x = .ok z →
    ∃ q, exec (.rds idx) (b32State p) = .next (b32State q) ∧ q = { p with z := z, mem := q.mem } ∧
      readWord b32Ops q (wordAddr .audioOut idx.toNat) = z ∧
      MemKept b32Ops (fun a => a = wordAddr .audioOut idx.toNat) p q) ∧
  IErrors 0x22 1023

/-- R141 and its exceptions: the cursor's advance, and the fold at `FILLEN`. Under B32 the fold copies finite words (U3). -/
def Obligations.RotResult : Prop :=
  encode .rot = 0x23000000#32 ∧
  (BothCores fun Num _ mk => ∀ (p : Pabli Num), p.j.val < 255 → ∃ q : Pabli Num,
    exec .rot (mk p) = .next (mk q) ∧ q = { p with j := q.j } ∧ q.j.val = p.j.val + 1) ∧
  (BothCores fun Num N mk => ∀ (p : Pabli Num), p.j.val = 255 →
    (∀ k, k < 72 → N.read (bufRead N p (256 + k)) = .ok (bufRead N p (256 + k))) → ∃ q : Pabli Num,
    exec .rot (mk p) = .next (mk q) ∧ q = { p with j := 0, mem := q.mem } ∧
    (∀ k, k < 72 → bufRead N q k = bufRead N p (256 + k)) ∧
    (∀ k, 72 ≤ k → k < 328 → bufRead N q k = N.zero) ∧ MemKept N BufCells p q) ∧
  ZErrors 0x23

/-- R142: `TICK` is its six steps, the third chosen by `SYNC_IN[idx] >= EPS` and `SHAPE`, in both configurations. -/
def Obligations.TickIsItsSteps : Prop :=
  (∀ idx, encode (.tick idx) = 0x12000000#32 + idx.zeroExtend 32) ∧
  (∀ (p : Pabli Rat) (idx : BitVec 16), idx.toNat ≤ 1023 →
    exec (.tick idx) (exactState p) =
      execAll [.ramp, .adv, handler (decide (Config.eps ≤ readWord exactOps p (wordAddr .syncIn idx.toNat))) p.shape idx,
        .dep, .rds idx, .rot] (exactState p)) ∧
  (∀ (p : Pabli B32) (idx : BitVec 16) (b : Bool), idx.toNat ≤ 1023 →
    b32Ge (readWord b32Ops p (wordAddr .syncIn idx.toNat)) 0x1E3CE508#32 = .ok b →
    exec (.tick idx) (b32State p) =
      execAll [.ramp, .adv, handler b p.shape idx, .dep, .rds idx, .rot] (b32State p)) ∧
  IErrors 0x12 1023

/-- R142, R200 under EXACT: a sample completes whenever the increment it ramps to is not zero and, for the triangle, the
duty it ramps to is not 0 or 1 (U6, U7); then the cursor is one further and the filter state is the audio output. -/
def Obligations.TickCompletes : Prop :=
  ∀ (p : Pabli Rat) (idx : BitVec 16), idx.toNat ≤ 1023 → p.w + p.dw ≠ 0 →
    (p.shape = .tri → p.duty + p.db ≠ 0 ∧ p.duty + p.db ≠ 1) →
    ∃ q, exec (.tick idx) (exactState p) = .next (exactState q) ∧ q.j.val = (p.j.val + 1) % 256 ∧
      readWord exactOps q (wordAddr .audioOut idx.toNat) = q.z ∧ q.w = p.w + p.dw ∧ q.duty = p.duty + p.db

/-! ## The injector (40_injector.md) -/

/-- R11: `rne` answers a nearest integer, and of two the even one. -/
def Obligations.RneIsNearestEven : Prop :=
  ∀ x : Rat, (∀ k : Int, |x - rneRat x| ≤ |x - k|) ∧ ∀ k : Int, k ≠ rneRat x → |x - k| = |x - rneRat x| → rneRat x % 2 = 0

/-- R111 under EXACT: the index mapping, and where its integer and remainder lie. -/
def Obligations.TableIndexExact : Prop :=
  ∀ phi w : Rat, w ≠ 0 → ∃ x : TableIndex Rat, tableIndex exactOps phi w = .ok x ∧
    x.rem = 64 * phi / w - refIndex phi w ∧ (x.phase : Int) = refIndex phi w % 64 ∧ 0 ≤ x.rem ∧ x.rem ≤ 1 ∧
    (∀ k : Int, 64 * phi / w = k → k % 2 = 0 → refIndex phi w = k ∧ x.rem = 0) ∧
    (∀ k : Int, 64 * phi / w = k → k % 2 = 1 → refIndex phi w = k - 1 ∧ x.rem = 1) ∧
    ((∀ k : Int, 64 * phi / w ≠ k) → refIndex phi w = (64 * phi / w).floor ∧ 0 < x.rem ∧ x.rem < 1)

/-- R116: every table entry and buffer cell of an injection is in range, in both configurations. -/
def Obligations.InjectionStaysInRange : Prop :=
  BothCores fun Num N _ => ∀ (p : Pabli Num) (phi : Num) (x : TableIndex Num) (k : Nat),
    tableIndex N phi p.w = .ok x →
    (k < 72 → x.phase + k * 64 ≤ 4607 ∧ isRomAddr (stepValueAddr (x.phase + k * 64)) = true ∧
      isRomAddr (stepDeltaAddr (x.phase + k * 64)) = true ∧ p.j.val + k ≤ 326 ∧
      isBufAddr (bufAddr (p.j.val + k)) = true) ∧
    (k < 71 → x.phase + k * 64 + 1 ≤ 4544 ∧ isRomAddr (slopeAddr (x.phase + k * 64)) = true ∧
      isRomAddr (slopeAddr (x.phase + k * 64 + 1)) = true)

/-- R114 under EXACT, with its exceptions. -/
def Obligations.InjsResult : Prop :=
  (∀ p : Pabli Rat, p.w ≠ 0 → ∃ q, exec .injs (exactState p) = .next (exactState q) ∧
    (∀ k, k < 72 → bufRead exactOps q (p.j.val + k) =
      bufRead exactOps p (p.j.val + k) + pulseAt p (.step p.opa p.opb) k) ∧
    OnlyMem exactOps (PulseCells p 72) p q) ∧
  ZErrors 0x30

/-- R115 under EXACT, with its exceptions: `BUF[J+71]` is not touched. -/
def Obligations.InjlResult : Prop :=
  (∀ p : Pabli Rat, p.w ≠ 0 → ∃ q, exec .injl (exactState p) = .next (exactState q) ∧
    (∀ k, k < 71 → bufRead exactOps q (p.j.val + k) =
      bufRead exactOps p (p.j.val + k) + pulseAt p (.slope p.opa p.opb) k) ∧
    OnlyMem exactOps (PulseCells p 71) p q) ∧
  ZErrors 0x31

/-- R119 (a) to (d) under EXACT, for both kinds and every table: linear in the magnitude, the identity at magnitude 0,
blind to whole increments of the offset, and a function of `phi / W`, the magnitude (times `W` for a slope) and the
tables. -/
def Obligations.InjectionProperties : Prop :=
  ∀ inject : Rat → Rat → Pabli Rat → Except Refusal (Pabli Rat),
    inject = injectStep exactOps ∨ inject = injectSlope exactOps → ∀ (p : Pabli Rat) (phi : Rat), p.w ≠ 0 →
    (∀ m1 m2 q r t, inject phi m1 p = .ok q → inject phi m2 q = .ok r → inject phi (m1 + m2) p = .ok t →
      ∀ addr, readWord exactOps r addr = readWord exactOps t addr) ∧
    (∀ q, inject phi 0 p = .ok q → ∀ addr, readWord exactOps q addr = readWord exactOps p addr) ∧
    (∀ (m : Rat) (n : Int) q r, inject phi m p = .ok q → inject (phi + n * p.w) m p = .ok r →
      ∀ addr, readWord exactOps q addr = readWord exactOps r addr) ∧
    (∀ (p' : Pabli Rat) (phi' m m' : Rat) q r, p'.w ≠ 0 → phi' / p'.w = phi / p.w → p'.j = p.j →
      (∀ addr, readWord exactOps p' addr = readWord exactOps p addr) →
      (inject = injectStep exactOps → m' = m) → (inject = injectSlope exactOps → m' * p'.w = m * p.w) →
      inject phi m p = .ok q → inject phi' m' p' = .ok r →
      ∀ addr, readWord exactOps r addr = readWord exactOps q addr)

/-! ## Detectors (42_detector.md) -/

/-- R162 under EXACT, with its exceptions (R160). -/
def Obligations.DetsResult : Prop :=
  (∀ (p : Pabli Rat) (idx : BitVec 16), idx.toNat ≤ 1023 → p.w ≠ 0 ∨ (sawSample p).pulses = [] →
    ∃ q, exec (.dets idx) (exactState p) = .next (exactState q) ∧ SampleDone p q idx.toNat (sawSample p)) ∧
  IErrors 0x40 1023

/-- R163 under EXACT, with its exceptions (R160). -/
def Obligations.DetrResult : Prop :=
  (∀ (p : Pabli Rat) (idx : BitVec 16), idx.toNat ≤ 1023 → p.w ≠ 0 ∨ (rectSample p).pulses = [] →
    ∃ q, exec (.detr idx) (exactState p) = .next (exactState q) ∧ SampleDone p q idx.toNat (rectSample p)) ∧
  IErrors 0x41 1023

/-- R164, R165 under EXACT, with the exceptions (R160). -/
def Obligations.DettResult : Prop :=
  (∀ (p : Pabli Rat) (idx : BitVec 16), idx.toNat ≤ 1023 → p.duty ≠ 0 → p.duty ≠ 1 →
    p.w ≠ 0 ∨ (triSample p).pulses = [] →
    ∃ q, exec (.dett idx) (exactState p) = .next (exactState q) ∧ SampleDone p q idx.toNat (triSample p)) ∧
  IErrors 0x42 1023

/-! ## Hard sync (43_hardsync.md) -/

/-- R182 under EXACT, with its exceptions (R180). -/
def Obligations.SynsResult : Prop :=
  (∀ (p : Pabli Rat) (idx : BitVec 16), idx.toNat ≤ 1023 → p.w ≠ 0 →
    ∃ q, exec (.syns idx) (exactState p) = .next (exactState q) ∧
      SampleDone p q idx.toNat (sawSync p (readWord exactOps p (wordAddr .syncIn idx.toNat)))) ∧
  IErrors 0x50 1023

/-- R183 under EXACT, with its exceptions (R180). -/
def Obligations.SynrResult : Prop :=
  (∀ (p : Pabli Rat) (idx : BitVec 16), idx.toNat ≤ 1023 →
    p.w ≠ 0 ∨ (rectSync p (readWord exactOps p (wordAddr .syncIn idx.toNat))).pulses = [] →
    ∃ q, exec (.synr idx) (exactState p) = .next (exactState q) ∧
      SampleDone p q idx.toNat (rectSync p (readWord exactOps p (wordAddr .syncIn idx.toNat)))) ∧
  IErrors 0x51 1023

/-- R184 under EXACT, with its exceptions (R180). -/
def Obligations.SyntResult : Prop :=
  (∀ (p : Pabli Rat) (idx : BitVec 16), idx.toNat ≤ 1023 → p.duty ≠ 0 → p.duty ≠ 1 → p.w ≠ 0 →
    ∃ q, exec (.synt idx) (exactState p) = .next (exactState q) ∧
      SampleDone p q idx.toNat (triSync p (readWord exactOps p (wordAddr .syncIn idx.toNat)))) ∧
  IErrors 0x52 1023

/-- R186 under EXACT: with `SYNC_IN[idx] = EPS + e`, a hard sync leaves `PHASE = e * W` whatever the phase was. -/
def Obligations.SyncPhaseFidelity : Prop :=
  ∀ (p : Pabli Rat) (idx : BitVec 16) (e : Rat) (i : Instr), idx.toNat ≤ 1023 → p.w ≠ 0 →
    i = .syns idx ∨ i = .synr idx ∨ (i = .synt idx ∧ p.duty ≠ 0 ∧ p.duty ≠ 1) →
    readWord exactOps p (wordAddr .syncIn idx.toNat) = Config.eps + e →
    ∃ q, exec i (exactState p) = .next (exactState q) ∧ q.phase = e * p.w

/-! ## Frames -/

/-- R134 to R138: the registers that `COEF`, `BOOT`, `SMOOTH`, `RAMP`, `ADV` write, and no word of memory. -/
def Obligations.FrameOfRegisterSteps : Prop :=
  BothCores fun Num N mk => ∀ (p q : Pabli Num),
    (exec .coef (mk p) = .next (mk q) → q = { p with a := q.a } ∧ MemKept N Nowhere p q) ∧
    (exec .ramp (mk p) = .next (mk q) → q = { p with w := q.w, duty := q.duty } ∧ MemKept N Nowhere p q) ∧
    (exec .adv (mk p) = .next (mk q) → q = { p with phase := q.phase } ∧ MemKept N Nowhere p q) ∧
    (∀ cnt idx, 1 ≤ cnt.toNat → idx.toNat ≤ 1023 → exec (.smooth cnt idx) (mk p) = .next (mk q) →
      q = { p with dw := q.dw, db := q.db } ∧ MemKept N Nowhere p q) ∧
    (∀ idx, idx.toNat ≤ 1023 → exec (.boot idx) (mk p) = .next (mk q) →
      q = { p with w := q.w, dw := N.zero, db := N.zero, edge := .a, phase := q.phase, lastv := q.lastv,
                   duty := q.duty, init := true } ∧
        (p.shape = .saw → q.duty = p.duty) ∧ MemKept N Nowhere p q)

/-- R110, R139, R140, R141: what `INJS`, `INJL`, `DEP`, `RDS` and `ROT` write; an injection nothing but
`BUF[J .. J+L-1]`. -/
def Obligations.FrameOfBufferSteps : Prop :=
  BothCores fun Num N mk => ∀ (p q : Pabli Num),
    (exec .injs (mk p) = .next (mk q) → OnlyMem N (PulseCells p 72) p q) ∧
    (exec .injl (mk p) = .next (mk q) → OnlyMem N (PulseCells p 71) p q) ∧
    (exec .dep (mk p) = .next (mk q) → OnlyMem N (fun a => a = bufAddr (p.j.val + 4)) p q) ∧
    (∀ idx, idx.toNat ≤ 1023 → exec (.rds idx) (mk p) = .next (mk q) →
      q = { p with z := q.z, mem := q.mem } ∧ MemKept N (fun a => a = wordAddr .audioOut idx.toNat) p q) ∧
    (exec .rot (mk p) = .next (mk q) → q = { p with j := q.j, mem := q.mem } ∧
      (p.j.val < 255 → MemKept N Nowhere p q) ∧ (p.j.val = 255 → MemKept N BufCells p q))

/-- R160, R180: what a detector or hard-sync command writes: `PHASE`, `LASTV`, `SYNC_OUT[idx]`, cells of `BUF`, and but for
the sawtooth `EDGE`. -/
def Obligations.FrameOfSampleCommands : Prop :=
  BothCores fun Num N mk => ∀ (p q : Pabli Num) (idx : BitVec 16), idx.toNat ≤ 1023 →
    (exec (.dets idx) (mk p) = .next (mk q) ∨ exec (.syns idx) (mk p) = .next (mk q) →
      q = { p with phase := q.phase, lastv := q.lastv, mem := q.mem } ∧ MemKept N (SampleCells p idx.toNat) p q) ∧
    (exec (.detr idx) (mk p) = .next (mk q) ∨ exec (.dett idx) (mk p) = .next (mk q) ∨
        exec (.synr idx) (mk p) = .next (mk q) ∨ exec (.synt idx) (mk p) = .next (mk q) →
      q = { p with phase := q.phase, edge := q.edge, lastv := q.lastv, mem := q.mem } ∧
        MemKept N (SampleCells p idx.toNat) p q)

/-- R132, R142: what `TICK` and `RUN` write. -/
def Obligations.FrameOfTickAndRun : Prop :=
  BothCores fun Num N mk => ∀ (p q : Pabli Num),
    (∀ idx, idx.toNat ≤ 1023 → exec (.tick idx) (mk p) = .next (mk q) →
      q = { p with w := q.w, duty := q.duty, phase := q.phase, edge := q.edge, lastv := q.lastv, z := q.z, j := q.j,
                   mem := q.mem } ∧ MemKept N (TickCells idx.toNat) p q) ∧
    (∀ n, n.toNat ≤ 1024 → exec (.run n) (mk p) = .next (mk q) →
      q = { p with phase := q.phase, w := q.w, duty := q.duty, lastv := q.lastv, z := q.z, a := q.a, dw := q.dw,
                   db := q.db, j := q.j, edge := q.edge, init := q.init, mem := q.mem } ∧
        MemKept N (RunCells n.toNat) p q)

/-! ## Where the model stops (93_implementation_defined.md) -/

/-- U4, U6, U7 (log 6), for these commands under EXACT: `BOOT` and `SMOOTH` with `FSAMP = 0`; `INJS`, `INJL`, `SYNS`, and `DETS`
at a wrap, with `W = 0`; `DETT` and `SYNT` with `DUTY` 0 or 1. Each is refused with divideByZero. -/
def Obligations.ZeroDivisorsRefused : Prop :=
  ∀ (p : Pabli Rat) (idx : BitVec 16) (cnt : BitVec 8), idx.toNat ≤ 1023 → 1 ≤ cnt.toNat →
    (p.fsamp = 0 → exec (.boot idx) (exactState p) = .refused .divideByZero ∧
      exec (.smooth cnt idx) (exactState p) = .refused .divideByZero) ∧
    (p.w = 0 → exec .injs (exactState p) = .refused .divideByZero ∧
      exec .injl (exactState p) = .refused .divideByZero ∧
      exec (.syns idx) (exactState p) = .refused .divideByZero ∧
      (1 ≤ p.phase → exec (.dets idx) (exactState p) = .refused .divideByZero)) ∧
    (p.duty = 0 ∨ p.duty = 1 → exec (.dett idx) (exactState p) = .refused .divideByZero ∧
      exec (.synt idx) (exactState p) = .refused .divideByZero)

/-- U3 (log 5), for these words under B32: an infinity or a NaN in `PHASE` refuses `ADV`, in `LOWPASS` `COEF`, in `LASTV` `DEP`, in
`BUF[J]` `RDS`, and in a tail cell the fold of `ROT`. -/
def Obligations.NonFiniteWordsRefused : Prop :=
  ∀ (p : Pabli B32) (idx : BitVec 16), idx.toNat ≤ 1023 →
    (b32Finite p.phase = false → exec .adv (b32State p) = .refused .nonFinite) ∧
    (b32Finite p.lowpass = false → exec .coef (b32State p) = .refused .nonFinite) ∧
    (b32Finite p.lastv = false → exec .dep (b32State p) = .refused .nonFinite) ∧
    (b32Finite (bufRead b32Ops p p.j.val) = false → exec (.rds idx) (b32State p) = .refused .nonFinite) ∧
    (∀ k, k < 72 → p.j.val = 255 → b32Finite (bufRead b32Ops p (256 + k)) = false →
      exec .rot (b32State p) = .refused .nonFinite)
end

