-- ==== Sys2Proof/Laws/State.lean ====
section
/-! SUPPORT. One lemma per field for each named update of the state, true by rfl: a write of a memory word
(`writeWord`, `bufWrite`, `emitSync`) changes no register, `raiseErr` and `clearErr` change only the error fields (and
`BUSY`). -/

namespace Sys2Proof.Machine

variable {Num : Type}

/-! ## writeWord -/

@[simp] theorem writeWord_phase (N : NumOps Num) (p : Pabli Num) (addr : Nat) (v : Num) : (writeWord N p addr v).phase = p.phase := rfl
@[simp] theorem writeWord_w (N : NumOps Num) (p : Pabli Num) (addr : Nat) (v : Num) : (writeWord N p addr v).w = p.w := rfl
@[simp] theorem writeWord_duty (N : NumOps Num) (p : Pabli Num) (addr : Nat) (v : Num) : (writeWord N p addr v).duty = p.duty := rfl
@[simp] theorem writeWord_lastv (N : NumOps Num) (p : Pabli Num) (addr : Nat) (v : Num) : (writeWord N p addr v).lastv = p.lastv := rfl
@[simp] theorem writeWord_z (N : NumOps Num) (p : Pabli Num) (addr : Nat) (v : Num) : (writeWord N p addr v).z = p.z := rfl
@[simp] theorem writeWord_a (N : NumOps Num) (p : Pabli Num) (addr : Nat) (v : Num) : (writeWord N p addr v).a = p.a := rfl
@[simp] theorem writeWord_dw (N : NumOps Num) (p : Pabli Num) (addr : Nat) (v : Num) : (writeWord N p addr v).dw = p.dw := rfl
@[simp] theorem writeWord_db (N : NumOps Num) (p : Pabli Num) (addr : Nat) (v : Num) : (writeWord N p addr v).db = p.db := rfl
@[simp] theorem writeWord_opa (N : NumOps Num) (p : Pabli Num) (addr : Nat) (v : Num) : (writeWord N p addr v).opa = p.opa := rfl
@[simp] theorem writeWord_opb (N : NumOps Num) (p : Pabli Num) (addr : Nat) (v : Num) : (writeWord N p addr v).opb = p.opb := rfl
@[simp] theorem writeWord_j (N : NumOps Num) (p : Pabli Num) (addr : Nat) (v : Num) : (writeWord N p addr v).j = p.j := rfl
@[simp] theorem writeWord_edge (N : NumOps Num) (p : Pabli Num) (addr : Nat) (v : Num) : (writeWord N p addr v).edge = p.edge := rfl
@[simp] theorem writeWord_init (N : NumOps Num) (p : Pabli Num) (addr : Nat) (v : Num) : (writeWord N p addr v).init = p.init := rfl
@[simp] theorem writeWord_shape (N : NumOps Num) (p : Pabli Num) (addr : Nat) (v : Num) : (writeWord N p addr v).shape = p.shape := rfl
@[simp] theorem writeWord_freqConn (N : NumOps Num) (p : Pabli Num) (addr : Nat) (v : Num) : (writeWord N p addr v).freqConn = p.freqConn := rfl
@[simp] theorem writeWord_fsamp (N : NumOps Num) (p : Pabli Num) (addr : Nat) (v : Num) : (writeWord N p addr v).fsamp = p.fsamp := rfl
@[simp] theorem writeWord_lowpass (N : NumOps Num) (p : Pabli Num) (addr : Nat) (v : Num) : (writeWord N p addr v).lowpass = p.lowpass := rfl
@[simp] theorem writeWord_deffreq (N : NumOps Num) (p : Pabli Num) (addr : Nat) (v : Num) : (writeWord N p addr v).deffreq = p.deffreq := rfl
@[simp] theorem writeWord_busy (N : NumOps Num) (p : Pabli Num) (addr : Nat) (v : Num) : (writeWord N p addr v).busy = p.busy := rfl
@[simp] theorem writeWord_err (N : NumOps Num) (p : Pabli Num) (addr : Nat) (v : Num) : (writeWord N p addr v).err = p.err := rfl
@[simp] theorem writeWord_errcode (N : NumOps Num) (p : Pabli Num) (addr : Nat) (v : Num) : (writeWord N p addr v).errcode = p.errcode := rfl
@[simp] theorem writeWord_powerOns (N : NumOps Num) (p : Pabli Num) (addr : Nat) (v : Num) : (writeWord N p addr v).powerOns = p.powerOns := rfl
@[simp] theorem writeWord_host (N : NumOps Num) (p : Pabli Num) (addr : Nat) (v : Num) : (writeWord N p addr v).host = p.host := rfl
@[simp] theorem writeWord_lastRead (N : NumOps Num) (p : Pabli Num) (addr : Nat) (v : Num) : (writeWord N p addr v).lastRead = p.lastRead := rfl

/-! ## bufWrite -/

@[simp] theorem bufWrite_phase (N : NumOps Num) (p : Pabli Num) (k : Nat) (v : Num) : (bufWrite N p k v).phase = p.phase := rfl
@[simp] theorem bufWrite_w (N : NumOps Num) (p : Pabli Num) (k : Nat) (v : Num) : (bufWrite N p k v).w = p.w := rfl
@[simp] theorem bufWrite_duty (N : NumOps Num) (p : Pabli Num) (k : Nat) (v : Num) : (bufWrite N p k v).duty = p.duty := rfl
@[simp] theorem bufWrite_lastv (N : NumOps Num) (p : Pabli Num) (k : Nat) (v : Num) : (bufWrite N p k v).lastv = p.lastv := rfl
@[simp] theorem bufWrite_z (N : NumOps Num) (p : Pabli Num) (k : Nat) (v : Num) : (bufWrite N p k v).z = p.z := rfl
@[simp] theorem bufWrite_a (N : NumOps Num) (p : Pabli Num) (k : Nat) (v : Num) : (bufWrite N p k v).a = p.a := rfl
@[simp] theorem bufWrite_dw (N : NumOps Num) (p : Pabli Num) (k : Nat) (v : Num) : (bufWrite N p k v).dw = p.dw := rfl
@[simp] theorem bufWrite_db (N : NumOps Num) (p : Pabli Num) (k : Nat) (v : Num) : (bufWrite N p k v).db = p.db := rfl
@[simp] theorem bufWrite_opa (N : NumOps Num) (p : Pabli Num) (k : Nat) (v : Num) : (bufWrite N p k v).opa = p.opa := rfl
@[simp] theorem bufWrite_opb (N : NumOps Num) (p : Pabli Num) (k : Nat) (v : Num) : (bufWrite N p k v).opb = p.opb := rfl
@[simp] theorem bufWrite_j (N : NumOps Num) (p : Pabli Num) (k : Nat) (v : Num) : (bufWrite N p k v).j = p.j := rfl
@[simp] theorem bufWrite_edge (N : NumOps Num) (p : Pabli Num) (k : Nat) (v : Num) : (bufWrite N p k v).edge = p.edge := rfl
@[simp] theorem bufWrite_init (N : NumOps Num) (p : Pabli Num) (k : Nat) (v : Num) : (bufWrite N p k v).init = p.init := rfl
@[simp] theorem bufWrite_shape (N : NumOps Num) (p : Pabli Num) (k : Nat) (v : Num) : (bufWrite N p k v).shape = p.shape := rfl
@[simp] theorem bufWrite_freqConn (N : NumOps Num) (p : Pabli Num) (k : Nat) (v : Num) : (bufWrite N p k v).freqConn = p.freqConn := rfl
@[simp] theorem bufWrite_fsamp (N : NumOps Num) (p : Pabli Num) (k : Nat) (v : Num) : (bufWrite N p k v).fsamp = p.fsamp := rfl
@[simp] theorem bufWrite_lowpass (N : NumOps Num) (p : Pabli Num) (k : Nat) (v : Num) : (bufWrite N p k v).lowpass = p.lowpass := rfl
@[simp] theorem bufWrite_deffreq (N : NumOps Num) (p : Pabli Num) (k : Nat) (v : Num) : (bufWrite N p k v).deffreq = p.deffreq := rfl
@[simp] theorem bufWrite_busy (N : NumOps Num) (p : Pabli Num) (k : Nat) (v : Num) : (bufWrite N p k v).busy = p.busy := rfl
@[simp] theorem bufWrite_err (N : NumOps Num) (p : Pabli Num) (k : Nat) (v : Num) : (bufWrite N p k v).err = p.err := rfl
@[simp] theorem bufWrite_errcode (N : NumOps Num) (p : Pabli Num) (k : Nat) (v : Num) : (bufWrite N p k v).errcode = p.errcode := rfl
@[simp] theorem bufWrite_powerOns (N : NumOps Num) (p : Pabli Num) (k : Nat) (v : Num) : (bufWrite N p k v).powerOns = p.powerOns := rfl
@[simp] theorem bufWrite_host (N : NumOps Num) (p : Pabli Num) (k : Nat) (v : Num) : (bufWrite N p k v).host = p.host := rfl
@[simp] theorem bufWrite_lastRead (N : NumOps Num) (p : Pabli Num) (k : Nat) (v : Num) : (bufWrite N p k v).lastRead = p.lastRead := rfl

/-! ## emitSync -/

@[simp] theorem emitSync_phase (N : NumOps Num) (p : Pabli Num) (i : Nat) (so : Num) : (emitSync N p i so).phase = p.phase := rfl
@[simp] theorem emitSync_w (N : NumOps Num) (p : Pabli Num) (i : Nat) (so : Num) : (emitSync N p i so).w = p.w := rfl
@[simp] theorem emitSync_duty (N : NumOps Num) (p : Pabli Num) (i : Nat) (so : Num) : (emitSync N p i so).duty = p.duty := rfl
@[simp] theorem emitSync_lastv (N : NumOps Num) (p : Pabli Num) (i : Nat) (so : Num) : (emitSync N p i so).lastv = p.lastv := rfl
@[simp] theorem emitSync_z (N : NumOps Num) (p : Pabli Num) (i : Nat) (so : Num) : (emitSync N p i so).z = p.z := rfl
@[simp] theorem emitSync_a (N : NumOps Num) (p : Pabli Num) (i : Nat) (so : Num) : (emitSync N p i so).a = p.a := rfl
@[simp] theorem emitSync_dw (N : NumOps Num) (p : Pabli Num) (i : Nat) (so : Num) : (emitSync N p i so).dw = p.dw := rfl
@[simp] theorem emitSync_db (N : NumOps Num) (p : Pabli Num) (i : Nat) (so : Num) : (emitSync N p i so).db = p.db := rfl
@[simp] theorem emitSync_opa (N : NumOps Num) (p : Pabli Num) (i : Nat) (so : Num) : (emitSync N p i so).opa = p.opa := rfl
@[simp] theorem emitSync_opb (N : NumOps Num) (p : Pabli Num) (i : Nat) (so : Num) : (emitSync N p i so).opb = p.opb := rfl
@[simp] theorem emitSync_j (N : NumOps Num) (p : Pabli Num) (i : Nat) (so : Num) : (emitSync N p i so).j = p.j := rfl
@[simp] theorem emitSync_edge (N : NumOps Num) (p : Pabli Num) (i : Nat) (so : Num) : (emitSync N p i so).edge = p.edge := rfl
@[simp] theorem emitSync_init (N : NumOps Num) (p : Pabli Num) (i : Nat) (so : Num) : (emitSync N p i so).init = p.init := rfl
@[simp] theorem emitSync_shape (N : NumOps Num) (p : Pabli Num) (i : Nat) (so : Num) : (emitSync N p i so).shape = p.shape := rfl
@[simp] theorem emitSync_freqConn (N : NumOps Num) (p : Pabli Num) (i : Nat) (so : Num) : (emitSync N p i so).freqConn = p.freqConn := rfl
@[simp] theorem emitSync_fsamp (N : NumOps Num) (p : Pabli Num) (i : Nat) (so : Num) : (emitSync N p i so).fsamp = p.fsamp := rfl
@[simp] theorem emitSync_lowpass (N : NumOps Num) (p : Pabli Num) (i : Nat) (so : Num) : (emitSync N p i so).lowpass = p.lowpass := rfl
@[simp] theorem emitSync_deffreq (N : NumOps Num) (p : Pabli Num) (i : Nat) (so : Num) : (emitSync N p i so).deffreq = p.deffreq := rfl
@[simp] theorem emitSync_busy (N : NumOps Num) (p : Pabli Num) (i : Nat) (so : Num) : (emitSync N p i so).busy = p.busy := rfl
@[simp] theorem emitSync_err (N : NumOps Num) (p : Pabli Num) (i : Nat) (so : Num) : (emitSync N p i so).err = p.err := rfl
@[simp] theorem emitSync_errcode (N : NumOps Num) (p : Pabli Num) (i : Nat) (so : Num) : (emitSync N p i so).errcode = p.errcode := rfl
@[simp] theorem emitSync_powerOns (N : NumOps Num) (p : Pabli Num) (i : Nat) (so : Num) : (emitSync N p i so).powerOns = p.powerOns := rfl
@[simp] theorem emitSync_host (N : NumOps Num) (p : Pabli Num) (i : Nat) (so : Num) : (emitSync N p i so).host = p.host := rfl
@[simp] theorem emitSync_lastRead (N : NumOps Num) (p : Pabli Num) (i : Nat) (so : Num) : (emitSync N p i so).lastRead = p.lastRead := rfl

@[simp] theorem writeWord_mem (N : NumOps Num) (p : Pabli Num) (addr : Nat) (v : Num) :
    (writeWord N p addr v).mem = memWrite N p.mem addr v := rfl

/-! ## raiseErr and clearErr -/

@[simp] theorem raiseErr_phase (code : ErrCode) (p : Pabli Num) : (raiseErr code p).phase = p.phase := by
  unfold raiseErr; split <;> rfl
@[simp] theorem clearErr_phase (p : Pabli Num) : (clearErr p).phase = p.phase := rfl
@[simp] theorem raiseErr_w (code : ErrCode) (p : Pabli Num) : (raiseErr code p).w = p.w := by
  unfold raiseErr; split <;> rfl
@[simp] theorem clearErr_w (p : Pabli Num) : (clearErr p).w = p.w := rfl
@[simp] theorem raiseErr_duty (code : ErrCode) (p : Pabli Num) : (raiseErr code p).duty = p.duty := by
  unfold raiseErr; split <;> rfl
@[simp] theorem clearErr_duty (p : Pabli Num) : (clearErr p).duty = p.duty := rfl
@[simp] theorem raiseErr_lastv (code : ErrCode) (p : Pabli Num) : (raiseErr code p).lastv = p.lastv := by
  unfold raiseErr; split <;> rfl
@[simp] theorem clearErr_lastv (p : Pabli Num) : (clearErr p).lastv = p.lastv := rfl
@[simp] theorem raiseErr_z (code : ErrCode) (p : Pabli Num) : (raiseErr code p).z = p.z := by
  unfold raiseErr; split <;> rfl
@[simp] theorem clearErr_z (p : Pabli Num) : (clearErr p).z = p.z := rfl
@[simp] theorem raiseErr_a (code : ErrCode) (p : Pabli Num) : (raiseErr code p).a = p.a := by
  unfold raiseErr; split <;> rfl
@[simp] theorem clearErr_a (p : Pabli Num) : (clearErr p).a = p.a := rfl
@[simp] theorem raiseErr_dw (code : ErrCode) (p : Pabli Num) : (raiseErr code p).dw = p.dw := by
  unfold raiseErr; split <;> rfl
@[simp] theorem clearErr_dw (p : Pabli Num) : (clearErr p).dw = p.dw := rfl
@[simp] theorem raiseErr_db (code : ErrCode) (p : Pabli Num) : (raiseErr code p).db = p.db := by
  unfold raiseErr; split <;> rfl
@[simp] theorem clearErr_db (p : Pabli Num) : (clearErr p).db = p.db := rfl
@[simp] theorem raiseErr_opa (code : ErrCode) (p : Pabli Num) : (raiseErr code p).opa = p.opa := by
  unfold raiseErr; split <;> rfl
@[simp] theorem clearErr_opa (p : Pabli Num) : (clearErr p).opa = p.opa := rfl
@[simp] theorem raiseErr_opb (code : ErrCode) (p : Pabli Num) : (raiseErr code p).opb = p.opb := by
  unfold raiseErr; split <;> rfl
@[simp] theorem clearErr_opb (p : Pabli Num) : (clearErr p).opb = p.opb := rfl
@[simp] theorem raiseErr_j (code : ErrCode) (p : Pabli Num) : (raiseErr code p).j = p.j := by
  unfold raiseErr; split <;> rfl
@[simp] theorem clearErr_j (p : Pabli Num) : (clearErr p).j = p.j := rfl
@[simp] theorem raiseErr_edge (code : ErrCode) (p : Pabli Num) : (raiseErr code p).edge = p.edge := by
  unfold raiseErr; split <;> rfl
@[simp] theorem clearErr_edge (p : Pabli Num) : (clearErr p).edge = p.edge := rfl
@[simp] theorem raiseErr_init (code : ErrCode) (p : Pabli Num) : (raiseErr code p).init = p.init := by
  unfold raiseErr; split <;> rfl
@[simp] theorem clearErr_init (p : Pabli Num) : (clearErr p).init = p.init := rfl
@[simp] theorem raiseErr_shape (code : ErrCode) (p : Pabli Num) : (raiseErr code p).shape = p.shape := by
  unfold raiseErr; split <;> rfl
@[simp] theorem clearErr_shape (p : Pabli Num) : (clearErr p).shape = p.shape := rfl
@[simp] theorem raiseErr_freqConn (code : ErrCode) (p : Pabli Num) : (raiseErr code p).freqConn = p.freqConn := by
  unfold raiseErr; split <;> rfl
@[simp] theorem clearErr_freqConn (p : Pabli Num) : (clearErr p).freqConn = p.freqConn := rfl
@[simp] theorem raiseErr_fsamp (code : ErrCode) (p : Pabli Num) : (raiseErr code p).fsamp = p.fsamp := by
  unfold raiseErr; split <;> rfl
@[simp] theorem clearErr_fsamp (p : Pabli Num) : (clearErr p).fsamp = p.fsamp := rfl
@[simp] theorem raiseErr_lowpass (code : ErrCode) (p : Pabli Num) : (raiseErr code p).lowpass = p.lowpass := by
  unfold raiseErr; split <;> rfl
@[simp] theorem clearErr_lowpass (p : Pabli Num) : (clearErr p).lowpass = p.lowpass := rfl
@[simp] theorem raiseErr_deffreq (code : ErrCode) (p : Pabli Num) : (raiseErr code p).deffreq = p.deffreq := by
  unfold raiseErr; split <;> rfl
@[simp] theorem clearErr_deffreq (p : Pabli Num) : (clearErr p).deffreq = p.deffreq := rfl
@[simp] theorem raiseErr_powerOns (code : ErrCode) (p : Pabli Num) : (raiseErr code p).powerOns = p.powerOns := by
  unfold raiseErr; split <;> rfl
@[simp] theorem clearErr_powerOns (p : Pabli Num) : (clearErr p).powerOns = p.powerOns := rfl
@[simp] theorem raiseErr_host (code : ErrCode) (p : Pabli Num) : (raiseErr code p).host = p.host := by
  unfold raiseErr; split <;> rfl
@[simp] theorem clearErr_host (p : Pabli Num) : (clearErr p).host = p.host := rfl
@[simp] theorem raiseErr_lastRead (code : ErrCode) (p : Pabli Num) : (raiseErr code p).lastRead = p.lastRead := by
  unfold raiseErr; split <;> rfl
@[simp] theorem clearErr_lastRead (p : Pabli Num) : (clearErr p).lastRead = p.lastRead := rfl
@[simp] theorem raiseErr_mem (code : ErrCode) (p : Pabli Num) : (raiseErr code p).mem = p.mem := by
  unfold raiseErr; split <;> rfl
@[simp] theorem clearErr_mem (p : Pabli Num) : (clearErr p).mem = p.mem := rfl
@[simp] theorem raiseErr_busy (code : ErrCode) (p : Pabli Num) : (raiseErr code p).busy = false := by
  unfold raiseErr; split <;> rfl
@[simp] theorem raiseErr_err (code : ErrCode) (p : Pabli Num) : (raiseErr code p).err = true := by
  unfold raiseErr; split <;> simp_all
@[simp] theorem raiseErr_errcode (code : ErrCode) (p : Pabli Num) :
    (raiseErr code p).errcode = if p.err then p.errcode else errCodeBits code := by
  unfold raiseErr; split <;> rfl
@[simp] theorem clearErr_busy (p : Pabli Num) : (clearErr p).busy = p.busy := rfl
@[simp] theorem clearErr_err (p : Pabli Num) : (clearErr p).err = false := rfl
@[simp] theorem clearErr_errcode (p : Pabli Num) : (clearErr p).errcode = 0 := rfl

/-! ## The configuration -/

@[simp] theorem onPabli_exact (f : (Num : Type) → Pabli Num → Pabli Num) (p : Pabli Rat) :
    onPabli f ⟨.exact p⟩ = ⟨.exact (f Rat p)⟩ := rfl
@[simp] theorem onPabli_b32 (f : (Num : Type) → Pabli Num → Pabli Num) (p : Pabli B32) :
    onPabli f ⟨.b32 p⟩ = ⟨.b32 (f B32 p)⟩ := rfl
@[simp] theorem runRule_exact (rule : (Num : Type) → NumOps Num → Pabli Num → Except Refusal (Pabli Num))
    (p : Pabli Rat) : runRule rule ⟨.exact p⟩ = outcomeOf .exact (rule Rat exactOps p) := rfl
@[simp] theorem runRule_b32 (rule : (Num : Type) → NumOps Num → Pabli Num → Except Refusal (Pabli Num))
    (p : Pabli B32) : runRule rule ⟨.b32 p⟩ = outcomeOf .b32 (rule B32 b32Ops p) := rfl
@[simp] theorem outcomeOf_ok (mk : Pabli Num → Configured) (p : Pabli Num) :
    outcomeOf mk (.ok p) = .next ⟨mk p⟩ := rfl
@[simp] theorem outcomeOf_error (mk : Pabli Num → Configured) (r : Refusal) :
    outcomeOf mk (.error r) = .refused r := rfl

/-- A rule whose outcome is a next state answered ok. -/
theorem outcomeOf_next {mk : Pabli Num → Configured} {r : Except Refusal (Pabli Num)} {t : State}
    (h : outcomeOf mk r = .next t) : ∃ q, r = .ok q ∧ t = ⟨mk q⟩ := by
  cases r with
  | error e => simp at h
  | ok q => simp at h; exact ⟨q, rfl, h.symm⟩

/-- A rule answers no fault. -/
theorem outcomeOf_ne_fault (mk : Pabli Num → Configured) (r : Except Refusal (Pabli Num)) (f : Fault) :
    outcomeOf mk r ≠ .fault f := by
  cases r <;> simp

/-- A bind that answers ok: both parts did. The one inversion lemma for the rules' sequences. -/
theorem bind_ok {ε α β : Type} {x : Except ε α} {f : α → Except ε β} {b : β} (h : (x >>= f) = .ok b) :
    ∃ a, x = .ok a ∧ f a = .ok b := by
  cases x with
  | error e => simp [bind, Except.bind] at h
  | ok a => exact ⟨a, rfl, h⟩

@[simp] theorem ok_bind {ε α β : Type} (a : α) (f : α → Except ε β) : ((.ok a : Except ε α) >>= f) = f a := rfl
@[simp] theorem error_bind {ε α β : Type} (e : ε) (f : α → Except ε β) :
    ((.error e : Except ε α) >>= f) = .error e := rfl

end Sys2Proof.Machine
end

