-- ==== Sys2Proof/Laws/Memory.lean ====
section
/-! SUPPORT. The laws of memory: a read after a write, the address map, and the canonical form that every memory operation
keeps. -/

namespace Sys2Proof.Machine

variable {Num : Type}

/-! ## Lists -/

theorem memFind_memInsert (m : Memory Num) (addr other : Nat) (v : Num) :
    memFind (memInsert m addr v) other = if other = addr then some v else memFind m other := by
  induction m with
  | nil => simp [memInsert, memFind]
  | cons e rest ih =>
    obtain ⟨b, u⟩ := e
    simp only [memInsert]
    split
    · simp [memFind]
    · split
      · subst_vars
        simp only [memFind]
        split <;> simp_all
      · simp only [memFind, ih]
        by_cases h : other = addr <;> by_cases h' : other = b <;> simp_all

theorem memFind_memErase (m : Memory Num) (addr other : Nat) :
    memFind (memErase m addr) other = if other = addr then none else memFind m other := by
  induction m with
  | nil => simp [memErase, memFind]
  | cons e rest ih =>
    obtain ⟨b, u⟩ := e
    have hc : memErase ((b, u) :: rest) addr = if b ≠ addr then (b, u) :: memErase rest addr else memErase rest addr := by
      simp [memErase, List.filter_cons]
    rw [hc]
    by_cases hb : b = addr
    · subst hb
      simp only [ne_eq, not_true_eq_false, if_false, ih, memFind]
      by_cases ho : other = b <;> simp [ho]
    · simp only [ne_eq, hb, not_false_eq_true, if_true, memFind, ih]
      by_cases ho : other = b
      · subst ho; simp [hb]
      · simp [ho]

/-- Keeping only some pairs by their address: a kept address is found as before. -/
theorem memFind_filter (m : Memory Num) (keep : Nat → Bool) (addr : Nat) :
    memFind (m.filter fun e => keep e.1) addr = if keep addr then memFind m addr else none := by
  induction m with
  | nil => simp [memFind]
  | cons e rest ih =>
    obtain ⟨b, u⟩ := e
    rw [List.filter_cons]
    by_cases hb : keep b
    · simp only [hb, if_true, memFind, ih]
      by_cases ho : addr = b
      · subst ho; simp [hb]
      · simp [ho]
    · simp only [hb, if_false, ih, memFind, Bool.false_eq_true]
      by_cases ho : addr = b
      · subst ho; simp [hb]
      · simp [ho]

/-! ## The number types: what `isZero` decides -/

/-- The word `isZero` accepts is the one that an unlisted `BUF` cell reads as. -/
def ZeroLaw (N : NumOps Num) : Prop := ∀ v, N.isZero v = true → v = N.zero

theorem exactOps_zeroLaw : ZeroLaw exactOps := fun v h => by simpa [exactOps] using h
theorem b32Ops_zeroLaw : ZeroLaw b32Ops := fun v h => by simpa [b32Ops] using h

/-! ## Read after write -/

/-- Reading after a write: the word written at its address, every other address as before. -/
theorem readWord_writeWord {N : NumOps Num} (hN : ZeroLaw N) (p : Pabli Num) (addr other : Nat) (v : Num) :
    readWord N (writeWord N p addr v) other = if other = addr then v else readWord N p other := by
  simp only [readWord, writeWord, memWrite]
  split
  · rename_i h
    simp only [Bool.and_eq_true] at h
    rw [memFind_memErase]
    by_cases ho : other = addr
    · subst ho
      simp [unlistedWord, h.1, hN v h.2]
    · simp [ho]
  · rw [memFind_memInsert]
    by_cases ho : other = addr <;> simp [ho]

theorem readWord_writeWord_same {N : NumOps Num} (hN : ZeroLaw N) (p : Pabli Num) (addr : Nat) (v : Num) :
    readWord N (writeWord N p addr v) addr = v := by simp [readWord_writeWord hN]

theorem readWord_writeWord_other {N : NumOps Num} (hN : ZeroLaw N) (p : Pabli Num) {addr other : Nat} (v : Num)
    (h : other ≠ addr) : readWord N (writeWord N p addr v) other = readWord N p other := by
  simp [readWord_writeWord hN, h]

/-- A read looks only at the memory and the power-up count. -/
theorem readWord_congr (N : NumOps Num) {p q : Pabli Num} (hm : q.mem = p.mem) (hp : q.powerOns = p.powerOns)
    (addr : Nat) : readWord N q addr = readWord N p addr := by
  simp [readWord, hm, hp]

/-! ## The address map -/

theorem bufAddr_eq (k : Nat) : bufAddr k = 0x800 + 4 * k := rfl

@[simp] theorem bufAddr_inj {k l : Nat} : bufAddr k = bufAddr l ↔ k = l := by
  rw [bufAddr_eq, bufAddr_eq]; omega

/-- The cells of `BUF` are the words of its region (R61). -/
theorem isBufAddr_iff (addr : Nat) : isBufAddr addr = true ↔ 0x800 ≤ addr ∧ addr < 0xD20 := by
  simp only [isBufAddr, inRegion, Bool.and_eq_true, decide_eq_true_eq]
  simp only [regionBase, regionWords]

theorem isRamAddr_iff (addr : Nat) : isRamAddr addr = true ↔ 0x1000 ≤ addr ∧ addr < 0x6000 := by
  simp only [isRamAddr, inRegion, Bool.or_eq_true, Bool.and_eq_true, decide_eq_true_eq]
  simp only [regionBase, regionWords]
  omega

theorem isRomAddr_iff (addr : Nat) :
    isRomAddr addr = true ↔ (0x10000 ≤ addr ∧ addr < 0x19000) ∨ (0x20000 ≤ addr ∧ addr < 0x24704) := by
  simp only [isRomAddr, inRegion, Bool.or_eq_true, Bool.and_eq_true, decide_eq_true_eq]
  simp only [regionBase, regionWords]

theorem isBufAddr_bufAddr {k : Nat} : isBufAddr (bufAddr k) = true ↔ k < 328 := by
  rw [isBufAddr_iff, bufAddr_eq]; omega

/-- A sample RAM word's address (R61). -/
theorem ramAddr_cases {r : Region} (hr : r = .freqIn ∨ r = .syncIn ∨ r = .dutyIn ∨ r = .audioOut ∨ r = .syncOut)
    {i : Nat} (hi : i < 1024) : isRamAddr (wordAddr r i) = true := by
  rw [isRamAddr_iff]
  rcases hr with h | h | h | h | h <;> subst h <;> simp only [wordAddr, regionBase] <;> omega

/-! ## The canonical form -/

theorem wf_cons (N : NumOps Num) (addr : Nat) (v : Num) (rest : Memory Num) :
    Memory.wf N ((addr, v) :: rest) = true ↔
      Memory.entryOk N addr v = true ∧ (∀ e ∈ rest, addr < e.1) ∧ Memory.wf N rest = true := by
  simp [Memory.wf, and_assoc]

theorem mem_memInsert {m : Memory Num} {addr : Nat} {v : Num} {e : Nat × Num} (h : e ∈ memInsert m addr v) :
    e = (addr, v) ∨ e ∈ m := by
  induction m with
  | nil => simpa [memInsert] using h
  | cons d rest ih =>
    obtain ⟨b, u⟩ := d
    simp only [memInsert] at h
    split at h
    · simpa using h
    · split at h
      · rcases List.mem_cons.1 h with h | h
        · exact .inl h
        · exact .inr (by simp [h])
      · rcases List.mem_cons.1 h with h | h
        · exact .inr (by simp [h])
        · rcases ih h with h | h
          · exact .inl h
          · exact .inr (by simp [h])

/-- Listing a pair that may be listed keeps the canonical form. -/
theorem wf_memInsert {N : NumOps Num} {m : Memory Num} {addr : Nat} {v : Num} (hm : Memory.wf N m = true)
    (hv : Memory.entryOk N addr v = true) : Memory.wf N (memInsert m addr v) = true := by
  induction m with
  | nil => simp [memInsert, Memory.wf, hv]
  | cons d rest ih =>
    obtain ⟨b, u⟩ := d
    obtain ⟨hb, hlt, hr⟩ := (wf_cons N b u rest).1 hm
    simp only [memInsert]
    split
    · rename_i h
      refine (wf_cons _ _ _ _).2 ⟨hv, ?_, hm⟩
      intro e he
      rcases List.mem_cons.1 he with he | he
      · subst he; exact h
      · exact lt_trans h (hlt e he)
    · split
      · rename_i h
        subst h
        exact (wf_cons _ _ _ _).2 ⟨hv, hlt, hr⟩
      · refine (wf_cons _ _ _ _).2 ⟨hb, ?_, ih hr⟩
        intro e he
        rcases mem_memInsert he with he | he
        · subst he; simp only; omega
        · exact hlt e he

/-- Keeping only some of the pairs keeps the canonical form. -/
theorem wf_filter {N : NumOps Num} {m : Memory Num} (keep : Nat × Num → Bool) (hm : Memory.wf N m = true) :
    Memory.wf N (m.filter keep) = true := by
  induction m with
  | nil => rfl
  | cons d rest ih =>
    obtain ⟨b, u⟩ := d
    obtain ⟨hb, hlt, hr⟩ := (wf_cons N b u rest).1 hm
    rw [List.filter_cons]
    split
    · exact (wf_cons _ _ _ _).2 ⟨hb, fun e he => hlt e (List.mem_of_mem_filter he), ih hr⟩
    · exact ih hr

/-- Writing a word of the mapped memories keeps the canonical form. -/
theorem wf_memWrite {N : NumOps Num} {m : Memory Num} {addr : Nat} (v : Num) (hm : Memory.wf N m = true)
    (h4 : addr % 4 = 0) (hr : isBufAddr addr = true ∨ isRomAddr addr = true ∨ isRamAddr addr = true) :
    Memory.wf N (memWrite N m addr v) = true := by
  unfold memWrite
  split
  · exact wf_filter _ hm
  · rename_i h
    refine wf_memInsert hm ?_
    have h' : isBufAddr addr = false ∨ N.isZero v = false := by
      cases hb : isBufAddr addr <;> simp_all
    simp only [Memory.entryOk, h4]
    rcases hr with hr | hr | hr <;> simp_all

theorem wf_bufWrite {N : NumOps Num} {p : Pabli Num} {k : Nat} (v : Num) (hm : Memory.wf N p.mem = true)
    (hk : k < 328) : Memory.wf N (bufWrite N p k v).mem = true :=
  wf_memWrite v hm (by rw [bufAddr_eq]; omega) (.inl (isBufAddr_bufAddr.2 hk))

theorem wf_writeRam {N : NumOps Num} {p : Pabli Num} {r : Region} {i : Nat} (v : Num)
    (hm : Memory.wf N p.mem = true)
    (hr : r = .freqIn ∨ r = .syncIn ∨ r = .dutyIn ∨ r = .audioOut ∨ r = .syncOut) (hi : i < 1024) :
    Memory.wf N (writeWord N p (wordAddr r i) v).mem = true := by
  refine wf_memWrite v hm ?_ (.inr (.inr (ramAddr_cases hr hi)))
  rcases hr with h | h | h | h | h <;> subst h <;> simp only [wordAddr, regionBase] <;> omega

/-- The memory right after reset is in canonical form. -/
theorem wf_reset (N : NumOps Num) : Memory.wf N (resetPabli Num N.zero N.one).mem = true := rfl

end Sys2Proof.Machine
end

