-- ==== Sys2Proof/Laws/Exact.lean ====
section
/-! SUPPORT. What the operations of `NUM = EXACT` are: they push the rules down to rational arithmetic. -/

namespace Sys2Proof.Machine

@[simp] theorem exact_zero : exactOps.zero = 0 := rfl
@[simp] theorem exact_one : exactOps.one = 1 := rfl
@[simp] theorem exact_half : exactOps.half = 1 / 2 := rfl
@[simp] theorem exact_negHalf : exactOps.negHalf = -1 / 2 := rfl
@[simp] theorem exact_negOne : exactOps.negOne = -1 := rfl
@[simp] theorem exact_eps : exactOps.eps = Config.eps := rfl
@[simp] theorem exact_wMin : exactOps.wMin = Config.wMin := rfl
@[simp] theorem exact_wMax : exactOps.wMax = Config.wMax := rfl
@[simp] theorem exact_a0 : exactOps.a0 = Config.a0 := rfl
@[simp] theorem exact_a1 : exactOps.a1 = Config.a1 := rfl
@[simp] theorem exact_read (x : Rat) : exactOps.read x = .ok x := rfl
@[simp] theorem exact_neg (x : Rat) : exactOps.neg x = -x := rfl
@[simp] theorem exact_add (x y : Rat) : exactOps.add x y = .ok (x + y) := rfl
@[simp] theorem exact_sub (x y : Rat) : exactOps.sub x y = .ok (x - y) := rfl
@[simp] theorem exact_mul (x y : Rat) : exactOps.mul x y = .ok (x * y) := rfl
@[simp] theorem exact_div_zero (x : Rat) : exactOps.div x 0 = .error .divideByZero := rfl
@[simp] theorem exact_div {x y : Rat} (h : y ≠ 0) : exactOps.div x y = .ok (x / y) := by
  simp [exactOps, exactDiv, h]
@[simp] theorem exact_lt (x y : Rat) : exactOps.lt x y = .ok (decide (x < y)) := rfl
@[simp] theorem exact_ge (x y : Rat) : exactOps.ge x y = .ok (decide (y ≤ x)) := rfl
@[simp] theorem exact_rne (x : Rat) : exactOps.rne x = .ok (rneRat x) := rfl
@[simp] theorem exact_i2n (k : Int) : exactOps.i2n k = .ok (k : Rat) := rfl

/-- `clamp` under EXACT always answers, within the bounds when they are in order (R10). -/
theorem clamp_exact (x lo hi : Rat) :
    clamp exactOps x lo hi = .ok (if x < lo then lo else if hi < x then hi else x) := by
  simp only [clamp, exact_lt, ok_bind, decide_eq_true_eq]
  split
  · rfl
  · split <;> rfl

theorem clamp_exact_mem {x lo hi y : Rat} (h : lo ≤ hi) (hy : clamp exactOps x lo hi = .ok y) :
    lo ≤ y ∧ y ≤ hi := by
  rw [clamp_exact] at hy
  injection hy with hy
  subst hy
  split
  · exact ⟨le_refl _, h⟩
  · split
    · exact ⟨h, le_refl _⟩
    · rename_i h1 h2
      exact ⟨not_lt.1 h1, not_lt.1 h2⟩

/-- The index mapping of R111 under EXACT, for a divisor that is not zero. -/
theorem tableIndex_exact {phi w : Rat} (hw : w ≠ 0) :
    tableIndex exactOps phi w =
      .ok ⟨64 * phi / w - (rneRat (64 * phi / w - 1 / 2) : Rat), maskIndex (rneRat (64 * phi / w - 1 / 2))⟩ := by
  simp [tableIndex, hw]

/-- With a zero divisor the index mapping has no meaning (U6). -/
theorem tableIndex_exact_zero (phi : Rat) : tableIndex exactOps phi 0 = .error .divideByZero := by
  simp [tableIndex]

end Sys2Proof.Machine
end

