-- ==== Sys2Proof/Laws/Injector.lean ====
section
/-! SUPPORT. What an injection can do (R110): the one lemma of `bufAdd`, of the stride walk, and of `inject_step` and
`inject_slope`, in any configuration; and their value under EXACT. -/

namespace Sys2Proof.Machine

variable {Num : Type}

/-! ## Effects on memory alone -/

/-- Nothing but memory changed, of memory nothing outside the addresses given, and the canonical form is kept. -/
structure MemEffect (N : NumOps Num) (written : Nat → Prop) (p q : Pabli Num) : Prop where
  only : q = { p with mem := q.mem }
  kept : MemKept N written p q
  wf : Memory.wf N p.mem = true → Memory.wf N q.mem = true

namespace MemEffect

variable {N : NumOps Num} {S T : Nat → Prop} {p q r : Pabli Num}

theorem refl (N : NumOps Num) (S : Nat → Prop) (p : Pabli Num) : MemEffect N S p p :=
  ⟨rfl, fun _ _ => rfl, id⟩

theorem mono (h : MemEffect N S p q) (hST : ∀ a, S a → T a) : MemEffect N T p q :=
  ⟨h.only, fun a ha => h.kept a fun hs => ha (hST a hs), h.wf⟩

theorem trans (h1 : MemEffect N S p q) (h2 : MemEffect N S q r) : MemEffect N S p r := by
  refine ⟨?_, fun a ha => (h2.kept a ha).trans (h1.kept a ha), fun h => h2.wf (h1.wf h)⟩
  rw [h2.only, h1.only]

theorem j (h : MemEffect N S p q) : q.j = p.j := by rw [h.only]
theorem w (h : MemEffect N S p q) : q.w = p.w := by rw [h.only]
theorem duty (h : MemEffect N S p q) : q.duty = p.duty := by rw [h.only]
theorem phase (h : MemEffect N S p q) : q.phase = p.phase := by rw [h.only]
theorem edge (h : MemEffect N S p q) : q.edge = p.edge := by rw [h.only]
theorem powerOns (h : MemEffect N S p q) : q.powerOns = p.powerOns := by rw [h.only]

end MemEffect

/-- One write of a mapped word. -/
theorem writeWord_effect {N : NumOps Num} (hN : ZeroLaw N) (p : Pabli Num) {addr : Nat} (v : Num)
    (h4 : addr % 4 = 0) (hr : isBufAddr addr = true ∨ isRomAddr addr = true ∨ isRamAddr addr = true) :
    MemEffect N (fun a => a = addr) p (writeWord N p addr v) :=
  ⟨rfl, fun _ ha => readWord_writeWord_other hN p v ha, fun h => wf_memWrite v h h4 hr⟩

theorem bufWrite_effect {N : NumOps Num} (hN : ZeroLaw N) (p : Pabli Num) {k : Nat} (v : Num) (hk : k < 328) :
    MemEffect N (fun a => a = bufAddr k) p (bufWrite N p k v) :=
  writeWord_effect hN p v (by rw [bufAddr_eq]; omega) (.inl (isBufAddr_bufAddr.2 hk))

theorem emitSync_effect {N : NumOps Num} (hN : ZeroLaw N) (p : Pabli Num) {i : Nat} (so : Num) (hi : i < 1024) :
    MemEffect N (fun a => a = wordAddr .syncOut i) p (emitSync N p i so) :=
  writeWord_effect hN p so (by simp only [wordAddr, regionBase]; omega) (.inr (.inr (ramAddr_cases (by simp) hi)))

/-! ## bufAdd and the stride walk -/

/-- What `bufAdd` can do: add once into one cell, and nothing else. -/
theorem bufAdd_ok {N : NumOps Num} (hN : ZeroLaw N) {p q : Pabli Num} {k : Nat} {x : Num} (hk : k < 328)
    (h : bufAdd N p k x = .ok q) :
    MemEffect N (fun a => a = bufAddr k) p q ∧ N.add (bufRead N p k) x = .ok (bufRead N q k) := by
  obtain ⟨v, hv, hq⟩ := bind_ok h
  injection hq with hq
  subst hq
  refine ⟨bufWrite_effect hN p v hk, ?_⟩
  rw [hv]
  simp only [bufRead, bufWrite, readWord_writeWord_same hN]

/-- What the stride walk can do (R113): stride `k` adds its term once into `BUF[J + k]`, and nothing else changes. -/
theorem injectStrides_ok {N : NumOps Num} (hN : ZeroLaw N) {term : Nat → Except Refusal Num} {p q : Pabli Num}
    {count : Nat} (hc : count ≤ 72) (h : injectStrides N term p count = .ok q) :
    MemEffect N (PulseCells p count) p q ∧
      ∀ k, k < count → ∃ t, term k = .ok t ∧ N.add (bufRead N p (p.j.val + k)) t = .ok (bufRead N q (p.j.val + k)) := by
  induction count generalizing q with
  | zero =>
    injection h with h
    subst h
    exact ⟨MemEffect.refl N _ p, fun k hk => absurd hk (Nat.not_lt_zero k)⟩
  | succ n ih =>
    obtain ⟨r, hr, h⟩ := bind_ok h
    obtain ⟨t, ht, h⟩ := bind_ok h
    obtain ⟨hpr, hcells⟩ := ih (by omega) hr
    have hj : p.j.val < 256 := p.j.isLt
    obtain ⟨hrq, hadd⟩ := bufAdd_ok hN (by omega) h
    have hrq' : MemEffect N (PulseCells p (n + 1)) r q :=
      hrq.mono fun a ha => ⟨n, by omega, ha⟩
    refine ⟨(hpr.mono fun a ⟨k, hk, ha⟩ => ⟨k, by omega, ha⟩).trans hrq', fun k hk => ?_⟩
    rcases Nat.lt_succ_iff_lt_or_eq.1 hk with hk | hk
    · obtain ⟨t', ht', hadd'⟩ := hcells k hk
      refine ⟨t', ht', ?_⟩
      rw [hadd']
      exact congrArg _ (hrq.kept _ (by simp; omega)).symm
    · subst hk
      refine ⟨t, ht, ?_⟩
      rw [← hadd]
      refine congrArg (fun v => N.add v t) (hpr.kept _ ?_).symm
      rintro ⟨k', hk', he⟩
      simp at he
      omega

/-- What `inject_step` can do in any configuration (R110, R114). -/
theorem injectStep_ok {N : NumOps Num} (hN : ZeroLaw N) {phi m : Num} {p q : Pabli Num}
    (h : injectStep N phi m p = .ok q) : MemEffect N (PulseCells p 72) p q := by
  obtain ⟨x, _, h⟩ := bind_ok h
  exact (injectStrides_ok hN (by decide) h).1

/-- What `inject_slope` can do in any configuration (R110, R115). -/
theorem injectSlope_ok {N : NumOps Num} (hN : ZeroLaw N) {phi m : Num} {p q : Pabli Num}
    (h : injectSlope N phi m p = .ok q) : MemEffect N (PulseCells p 71) p q := by
  obtain ⟨x, _, h⟩ := bind_ok h
  obtain ⟨ms, _, h⟩ := bind_ok h
  exact (injectStrides_ok hN (by decide) h).1

/-! ## Under EXACT -/

/-- The stride walk under EXACT completes when every term does. -/
theorem injectStrides_exact {term : Nat → Except Refusal Rat} {f : Nat → Rat} (p : Pabli Rat) (count : Nat)
    (ht : ∀ k, k < count → term k = .ok (f k)) : ∃ q, injectStrides exactOps term p count = .ok q := by
  induction count with
  | zero => exact ⟨p, rfl⟩
  | succ n ih =>
    obtain ⟨q, hq⟩ := ih fun k hk => ht k (by omega)
    simp [injectStrides, hq, ht n (by omega), bufAdd]

/-- The state `q` is `p` with the pulses added to `BUF[J ..]`. -/
structure Pulsed (p q : Pabli Rat) (pulses : List Pulse) : Prop where
  effect : MemEffect exactOps (PulseCells p 72) p q
  cells : ∀ k, k < 72 → bufRead exactOps q (p.j.val + k) = bufRead exactOps p (p.j.val + k) + pulseSum p pulses k

/-- `inject_step` under EXACT (R114). -/
theorem injectStep_exact {phi m : Rat} {p : Pabli Rat} (hw : p.w ≠ 0) :
    ∃ q, injectStep exactOps phi m p = .ok q ∧ Pulsed p q [.step phi m] := by
  have hterm : ∀ k, k < 72 → stepTerm exactOps p
      ⟨64 * phi / p.w - (rneRat (64 * phi / p.w - 1 / 2) : Rat), maskIndex (rneRat (64 * phi / p.w - 1 / 2))⟩ m k
      = .ok (pulseAt p (.step phi m) k) := by
    intro k hk
    simp [stepTerm, pulseAt, hk, refEntry, refRem, refIndex, maskIndex]
  obtain ⟨q, hq⟩ := injectStrides_exact p 72 hterm
  refine ⟨q, ?_, ?_⟩
  · simp only [injectStep, tableIndex_exact hw, ok_bind]
    exact hq
  · obtain ⟨he, hc⟩ := injectStrides_ok exactOps_zeroLaw (by decide) hq
    refine ⟨he, fun k hk => ?_⟩
    obtain ⟨t, ht, ha⟩ := hc k hk
    rw [hterm k hk] at ht
    injection ht with ht
    simp only [exact_add, Except.ok.injEq] at ha
    rw [← ha, ← ht]
    simp [pulseSum]

/-- `inject_slope` under EXACT (R115). -/
theorem injectSlope_exact {phi m : Rat} {p : Pabli Rat} (hw : p.w ≠ 0) :
    ∃ q, injectSlope exactOps phi m p = .ok q ∧ Pulsed p q [.slope phi m] := by
  have hterm : ∀ k, k < 71 → slopeTerm exactOps p
      ⟨64 * phi / p.w - (rneRat (64 * phi / p.w - 1 / 2) : Rat), maskIndex (rneRat (64 * phi / p.w - 1 / 2))⟩ (m * p.w) k
      = .ok (pulseAt p (.slope phi m) k) := by
    intro k hk
    simp [slopeTerm, pulseAt, hk, refEntry, refRem, refIndex, maskIndex]
  obtain ⟨q, hq⟩ := injectStrides_exact p 71 hterm
  refine ⟨q, ?_, ?_⟩
  · simp only [injectSlope, tableIndex_exact hw, ok_bind, exact_mul]
    exact hq
  · obtain ⟨he, hc⟩ := injectStrides_ok exactOps_zeroLaw (by decide) hq
    refine ⟨he.mono fun a ⟨k, hk, ha⟩ => ⟨k, by omega, ha⟩, fun k hk => ?_⟩
    by_cases hk' : k < 71
    · obtain ⟨t, ht, ha⟩ := hc k hk'
      rw [hterm k hk'] at ht
      injection ht with ht
      simp only [exact_add, Except.ok.injEq] at ha
      rw [← ha, ← ht]
      simp [pulseSum]
    · have hk71 : k = 71 := by omega
      subst hk71
      rw [show bufRead exactOps q (p.j.val + 71) = bufRead exactOps p (p.j.val + 71) from he.kept _ ?_]
      · simp [pulseSum, pulseAt]
      · rintro ⟨k', hk', h⟩
        simp at h
        omega

end Sys2Proof.Machine
end

