-- ==== Sys2Proof/Laws/Frames.lean ====
section
/-! SUPPORT. What each rule of 40 to 43 can do, in any configuration: if it answers a state, the registers and words that
may have changed. One lemma per operation, which later proofs cite instead of unfolding it. -/

namespace Sys2Proof.Machine

variable {Num : Type} {N : NumOps Num}

/-! ## Effects of a sample: PHASE, EDGE, LASTV and memory -/

/-- Only `PHASE`, `EDGE`, `LASTV` and memory changed, of memory nothing outside the addresses given, and the canonical
form is kept. -/
structure SampleEffect (N : NumOps Num) (written : Nat → Prop) (p q : Pabli Num) : Prop where
  only : q = { p with phase := q.phase, edge := q.edge, lastv := q.lastv, mem := q.mem }
  kept : MemKept N written p q
  wf : Memory.wf N p.mem = true → Memory.wf N q.mem = true

namespace SampleEffect

variable {S T : Nat → Prop} {p q r : Pabli Num}

theorem of_mem (h : MemEffect N S p q) : SampleEffect N S p q :=
  ⟨by rw [h.only], h.kept, h.wf⟩

theorem refl (N : NumOps Num) (S : Nat → Prop) (p : Pabli Num) : SampleEffect N S p p := of_mem (MemEffect.refl N S p)

/-- Writing the three registers. -/
theorem regs (N : NumOps Num) (S : Nat → Prop) (p : Pabli Num) (phase : Num) (edge : Edge) (lastv : Num) :
    SampleEffect N S p { p with phase := phase, edge := edge, lastv := lastv } :=
  ⟨rfl, fun _ _ => rfl, id⟩

theorem mono (h : SampleEffect N S p q) (hST : ∀ a, S a → T a) : SampleEffect N T p q :=
  ⟨h.only, fun a ha => h.kept a fun hs => ha (hST a hs), h.wf⟩

theorem trans (h1 : SampleEffect N S p q) (h2 : SampleEffect N S q r) : SampleEffect N S p r := by
  refine ⟨?_, fun a ha => (h2.kept a ha).trans (h1.kept a ha), fun h => h2.wf (h1.wf h)⟩
  rw [h2.only, h1.only]

theorem j (h : SampleEffect N S p q) : q.j = p.j := by rw [h.only]
theorem w (h : SampleEffect N S p q) : q.w = p.w := by rw [h.only]
theorem duty (h : SampleEffect N S p q) : q.duty = p.duty := by rw [h.only]
theorem shape (h : SampleEffect N S p q) : q.shape = p.shape := by rw [h.only]
theorem powerOns (h : SampleEffect N S p q) : q.powerOns = p.powerOns := by rw [h.only]

/-- Writing the three registers afterwards. -/
theorem set (h : SampleEffect N S p q) (phase : Num) (edge : Edge) (lastv : Num) :
    SampleEffect N S p { q with phase := phase, edge := edge, lastv := lastv } :=
  h.trans (regs N S q phase edge lastv)

end SampleEffect

/-- What a pulse may write, seen from a state with the same cursor. -/
theorem pulse_mono {p q : Pabli Num} {len : Nat} (hj : q.j = p.j) (hl : len ≤ 72) (a : Nat)
    (h : PulseCells q len a) : PulseCells p 72 a := by
  obtain ⟨k, hk, he⟩ := h
  exact ⟨k, by omega, by rw [he, hj]⟩

/-- A step injection, seen from an earlier state of the sample. -/
theorem SampleEffect.step (hN : ZeroLaw N) {p q r : Pabli Num} {phi m : Num} (h : SampleEffect N (PulseCells p 72) p q)
    (hi : injectStep N phi m q = .ok r) : SampleEffect N (PulseCells p 72) p r :=
  h.trans (SampleEffect.of_mem ((injectStep_ok hN hi).mono (pulse_mono h.j (by decide))))

/-- A slope injection, seen from an earlier state of the sample. -/
theorem SampleEffect.slope (hN : ZeroLaw N) {p q r : Pabli Num} {phi m : Num} (h : SampleEffect N (PulseCells p 72) p q)
    (hi : injectSlope N phi m q = .ok r) : SampleEffect N (PulseCells p 72) p r :=
  h.trans (SampleEffect.of_mem ((injectSlope_ok hN hi).mono (pulse_mono h.j (by decide))))

theorem SampleEffect.emit (hN : ZeroLaw N) {p q : Pabli Num} {i : Nat} {so : Num} (hi : i < 1024)
    (h : SampleEffect N (PulseCells p 72) p q) : SampleEffect N (SampleCells p i) p (emitSync N q i so) :=
  (h.mono fun _ ha => .inr ha).trans (SampleEffect.of_mem ((emitSync_effect hN q so hi).mono fun _ ha => .inl ha))

/-! ## Detectors (R160) -/

theorem detsRule_ok (hN : ZeroLaw N) {p q : Pabli Num} {i : Nat} (hi : i < 1024) (h : detsRule N i p = .ok q) :
    SampleEffect N (SampleCells p i) p q := by
  obtain ⟨b, _, h⟩ := bind_ok h
  cases b
  · obtain ⟨v, _, h⟩ := bind_ok h
    injection h with h
    subst h
    exact ((SampleEffect.refl N _ p).emit hN hi).set _ _ _
  · obtain ⟨ph, _, h⟩ := bind_ok h
    obtain ⟨so, _, h⟩ := bind_ok h
    obtain ⟨r, hr, h⟩ := bind_ok h
    obtain ⟨v, _, h⟩ := bind_ok h
    injection h with h
    subst h
    exact (((SampleEffect.regs N _ p ph p.edge p.lastv).step hN hr).emit hN hi).set _ _ _

/-- `DETS` does not touch `EDGE` (R162). -/
theorem detsRule_edge (hN : ZeroLaw N) {p q : Pabli Num} {i : Nat} (h : detsRule N i p = .ok q) : q.edge = p.edge := by
  obtain ⟨b, _, h⟩ := bind_ok h
  cases b
  · obtain ⟨v, _, h⟩ := bind_ok h
    injection h with h
    subst h
    rfl
  · obtain ⟨ph, _, h⟩ := bind_ok h
    obtain ⟨so, _, h⟩ := bind_ok h
    obtain ⟨r, hr, h⟩ := bind_ok h
    obtain ⟨v, _, h⟩ := bind_ok h
    injection h with h
    subst h
    exact (injectStep_ok hN hr).edge

theorem rectFall_ok (hN : ZeroLaw N) {p q r : Pabli Num} {phi : Num} (h : SampleEffect N (PulseCells p 72) p q)
    (hr : rectFall N phi q = .ok r) : SampleEffect N (PulseCells p 72) p r ∧ r.edge = .b ∧ r.lastv = N.negHalf ∧ r.phase = q.phase := by
  obtain ⟨t, ht, hr⟩ := bind_ok hr
  injection hr with hr
  subst hr
  exact ⟨(h.step hN ht).set _ _ _, rfl, rfl, (injectStep_ok hN ht).phase⟩

theorem rectRise_ok (hN : ZeroLaw N) {p q r : Pabli Num} {phi : Num} (h : SampleEffect N (PulseCells p 72) p q)
    (hr : rectRise N phi q = .ok r) : SampleEffect N (PulseCells p 72) p r ∧ r.edge = .a ∧ r.lastv = N.half ∧ r.phase = q.phase := by
  obtain ⟨t, ht, hr⟩ := bind_ok hr
  injection hr with hr
  subst hr
  exact ⟨(h.step hN ht).set _ _ _, rfl, rfl, (injectStep_ok hN ht).phase⟩

theorem rectFallTest_ok (hN : ZeroLaw N) {p q r : Pabli Num} (h : SampleEffect N (PulseCells p 72) p q)
    (hr : rectFallTest N q = .ok r) : SampleEffect N (PulseCells p 72) p r := by
  obtain ⟨b, _, hr⟩ := bind_ok hr
  cases b
  · injection hr with hr
    exact hr ▸ h
  · obtain ⟨phi, _, hr⟩ := bind_ok hr
    exact (rectFall_ok hN h hr).1

theorem rectWrapTest_ok (hN : ZeroLaw N) {p q r : Pabli Num} {so : Num} (h : SampleEffect N (PulseCells p 72) p q)
    (hr : rectWrapTest N q = .ok (so, r)) : SampleEffect N (PulseCells p 72) p r := by
  obtain ⟨b, _, hr⟩ := bind_ok hr
  cases b
  · injection hr with hr
    injection hr with _ hr
    exact hr ▸ h
  · obtain ⟨ph, _, hr⟩ := bind_ok hr
    obtain ⟨so', _, hr⟩ := bind_ok hr
    obtain ⟨t, ht, hr⟩ := bind_ok hr
    injection hr with hr
    injection hr with _ hr
    exact hr ▸ (rectRise_ok hN (h.set ph q.edge q.lastv) ht).1

theorem detrRule_ok (hN : ZeroLaw N) {p q : Pabli Num} {i : Nat} (hi : i < 1024) (h : detrRule N i p = .ok q) :
    SampleEffect N (SampleCells p i) p q := by
  have h0 := SampleEffect.refl N (PulseCells p 72) p
  unfold detrRule at h
  split at h
  · obtain ⟨r, hr, h⟩ := bind_ok h
    obtain ⟨⟨so, t⟩, ht, h⟩ := bind_ok h
    injection h with h
    subst h
    exact (rectWrapTest_ok hN (rectFallTest_ok hN h0 hr) ht).emit hN hi
  · obtain ⟨⟨so, r⟩, hr, h⟩ := bind_ok h
    have hw := rectWrapTest_ok hN h0 hr
    dsimp only at h
    split at h
    · obtain ⟨t, ht, h⟩ := bind_ok h
      injection h with h
      subst h
      exact (rectFallTest_ok hN hw ht).emit hN hi
    · injection h with h
      subst h
      exact hw.emit hN hi

theorem triBreakTest_ok (hN : ZeroLaw N) {c : TriConsts Num} {p q r : Pabli Num}
    (h : SampleEffect N (PulseCells p 72) p q) (hr : triBreakTest N c q = .ok r) :
    SampleEffect N (PulseCells p 72) p r := by
  obtain ⟨b, _, hr⟩ := bind_ok hr
  cases b
  · injection hr with hr
    exact hr ▸ h
  · obtain ⟨v, _, hr⟩ := bind_ok hr
    obtain ⟨phi, _, hr⟩ := bind_ok hr
    obtain ⟨t, ht, hr⟩ := bind_ok hr
    injection hr with hr
    subst hr
    exact ((h.set q.phase q.edge v).slope hN ht).set _ _ _

theorem triWrapTest_ok (hN : ZeroLaw N) {c : TriConsts Num} {p q r : Pabli Num} {so : Num}
    (h : SampleEffect N (PulseCells p 72) p q) (hr : triWrapTest N c q = .ok (so, r)) :
    SampleEffect N (PulseCells p 72) p r := by
  obtain ⟨b, _, hr⟩ := bind_ok hr
  cases b
  · injection hr with hr
    injection hr with _ hr
    exact hr ▸ h
  · obtain ⟨ph, _, hr⟩ := bind_ok hr
    obtain ⟨so', _, hr⟩ := bind_ok hr
    obtain ⟨v, _, hr⟩ := bind_ok hr
    obtain ⟨t, ht, hr⟩ := bind_ok hr
    injection hr with hr
    injection hr with _ hr
    exact hr ▸ ((h.set ph q.edge v).slope hN ht).set _ _ _

theorem dettRule_ok (hN : ZeroLaw N) {p q : Pabli Num} {i : Nat} (hi : i < 1024) (h : dettRule N i p = .ok q) :
    SampleEffect N (SampleCells p i) p q := by
  have h0 (v : Num) : SampleEffect N (PulseCells p 72) p { p with lastv := v } := SampleEffect.regs N _ p p.phase p.edge v
  obtain ⟨c, _, h⟩ := bind_ok h
  split at h
  · obtain ⟨v, _, h⟩ := bind_ok h
    obtain ⟨r, hr, h⟩ := bind_ok h
    obtain ⟨⟨so, t⟩, ht, h⟩ := bind_ok h
    injection h with h
    subst h
    exact (triWrapTest_ok hN (triBreakTest_ok hN (h0 v) hr) ht).emit hN hi
  · obtain ⟨v, _, h⟩ := bind_ok h
    obtain ⟨⟨so, r⟩, hr, h⟩ := bind_ok h
    have hw := triWrapTest_ok hN (h0 v) hr
    dsimp only at h
    split at h
    · obtain ⟨t, ht, h⟩ := bind_ok h
      injection h with h
      subst h
      exact (triBreakTest_ok hN hw ht).emit hN hi
    · injection h with h
      subst h
      exact hw.emit hN hi

/-! ## Hard sync (R180) -/

theorem sawCatchUp_ok (hN : ZeroLaw N) {eof par x : Num} {p q r : Pabli Num} (h : SampleEffect N (PulseCells p 72) p q)
    (hr : sawCatchUp N eof par q = .ok (x, r)) : SampleEffect N (PulseCells p 72) p r := by
  obtain ⟨b, _, hr⟩ := bind_ok hr
  cases b
  · injection hr with hr
    injection hr with _ hr
    exact hr ▸ h
  · obtain ⟨par', _, hr⟩ := bind_ok hr
    obtain ⟨phi, _, hr⟩ := bind_ok hr
    obtain ⟨t, ht, hr⟩ := bind_ok hr
    injection hr with hr
    injection hr with _ hr
    exact hr ▸ h.step hN ht

theorem synsRule_ok (hN : ZeroLaw N) {p q : Pabli Num} {i : Nat} (hi : i < 1024) (h : synsRule N i p = .ok q) :
    SampleEffect N (SampleCells p i) p q := by
  obtain ⟨y, _, h⟩ := bind_ok h
  obtain ⟨⟨par, r⟩, hr, h⟩ := bind_ok h
  obtain ⟨t, ht, h⟩ := bind_ok h
  obtain ⟨v, _, h⟩ := bind_ok h
  injection h with h
  subst h
  exact (((sawCatchUp_ok hN (SampleEffect.regs N _ p y.eof p.edge p.lastv) hr).step hN ht).emit hN hi).set _ _ _

/-- `SYNS` does not touch `EDGE` (R182). -/
theorem synsRule_edge (hN : ZeroLaw N) {p q : Pabli Num} {i : Nat} (h : synsRule N i p = .ok q) : q.edge = p.edge := by
  obtain ⟨y, _, h⟩ := bind_ok h
  obtain ⟨⟨par, r⟩, hr, h⟩ := bind_ok h
  obtain ⟨t, ht, h⟩ := bind_ok h
  obtain ⟨v, _, h⟩ := bind_ok h
  injection h with h
  subst h
  refine (injectStep_ok hN ht).edge.trans ?_
  obtain ⟨b, _, hr⟩ := bind_ok hr
  cases b
  · injection hr with hr
    injection hr with _ hr
    rw [← hr]
  · obtain ⟨par', _, hr⟩ := bind_ok hr
    obtain ⟨phi, _, hr⟩ := bind_ok hr
    obtain ⟨u, hu, hr⟩ := bind_ok hr
    injection hr with hr
    injection hr with _ hr
    rw [← hr]
    exact (injectStep_ok hN hu).edge

theorem rectCatchFall_ok (hN : ZeroLaw N) {eof par : Num} {p q r : Pabli Num}
    (h : SampleEffect N (PulseCells p 72) p q) (hr : rectCatchFall N eof par q = .ok r) :
    SampleEffect N (PulseCells p 72) p r := by
  obtain ⟨b, _, hr⟩ := bind_ok hr
  cases b
  · injection hr with hr
    exact hr ▸ h
  · obtain ⟨d, _, hr⟩ := bind_ok hr
    obtain ⟨phi, _, hr⟩ := bind_ok hr
    exact (rectFall_ok hN h hr).1

theorem rectCatchWrap_ok (hN : ZeroLaw N) {eof par x : Num} {p q r : Pabli Num}
    (h : SampleEffect N (PulseCells p 72) p q) (hr : rectCatchWrap N eof par q = .ok (x, r)) :
    SampleEffect N (PulseCells p 72) p r := by
  obtain ⟨b, _, hr⟩ := bind_ok hr
  cases b
  · injection hr with hr
    injection hr with _ hr
    exact hr ▸ h
  · obtain ⟨par', _, hr⟩ := bind_ok hr
    obtain ⟨phi, _, hr⟩ := bind_ok hr
    obtain ⟨t, ht, hr⟩ := bind_ok hr
    injection hr with hr
    injection hr with _ hr
    exact hr ▸ (rectRise_ok hN h ht).1

theorem rectCatchUp_ok (hN : ZeroLaw N) {eof par : Num} {p q r : Pabli Num}
    (h : SampleEffect N (PulseCells p 72) p q) (hr : rectCatchUp N eof par q = .ok r) :
    SampleEffect N (PulseCells p 72) p r := by
  unfold rectCatchUp at hr
  split at hr
  · obtain ⟨t, ht, hr⟩ := bind_ok hr
    obtain ⟨⟨x, u⟩, hu, hr⟩ := bind_ok hr
    injection hr with hr
    exact hr ▸ rectCatchWrap_ok hN (rectCatchFall_ok hN h ht) hu
  · obtain ⟨⟨x, u⟩, hu, hr⟩ := bind_ok hr
    have hw := rectCatchWrap_ok hN h hu
    dsimp only at hr
    split at hr
    · exact rectCatchFall_ok hN hw hr
    · injection hr with hr
      exact hr ▸ hw

theorem rectResetRise_ok (hN : ZeroLaw N) {p q r : Pabli Num} (h : SampleEffect N (PulseCells p 72) p q)
    (hr : rectResetRise N q = .ok r) : SampleEffect N (PulseCells p 72) p r := by
  unfold rectResetRise at hr
  split at hr
  · injection hr with hr
    exact hr ▸ h
  · exact (rectRise_ok hN h hr).1

theorem synrRule_ok (hN : ZeroLaw N) {p q : Pabli Num} {i : Nat} (hi : i < 1024) (h : synrRule N i p = .ok q) :
    SampleEffect N (SampleCells p i) p q := by
  obtain ⟨y, _, h⟩ := bind_ok h
  obtain ⟨r, hr, h⟩ := bind_ok h
  obtain ⟨t, ht, h⟩ := bind_ok h
  obtain ⟨u, hu, h⟩ := bind_ok h
  injection h with h
  subst h
  exact (rectFallTest_ok hN (rectResetRise_ok hN (rectCatchUp_ok hN
    (SampleEffect.regs N _ p y.eof p.edge p.lastv) hr) ht) hu).emit hN hi

theorem triCatchBreak_ok (hN : ZeroLaw N) {c : TriConsts Num} {eof par x y : Num} {p q r : Pabli Num}
    (h : SampleEffect N (PulseCells p 72) p q) (hr : triCatchBreak N c eof par x q = .ok (y, r)) :
    SampleEffect N (PulseCells p 72) p r := by
  obtain ⟨b, _, hr⟩ := bind_ok hr
  cases b
  · injection hr with hr
    injection hr with _ hr
    exact hr ▸ h
  · obtain ⟨x', _, hr⟩ := bind_ok hr
    obtain ⟨d, _, hr⟩ := bind_ok hr
    obtain ⟨phi, _, hr⟩ := bind_ok hr
    obtain ⟨t, ht, hr⟩ := bind_ok hr
    injection hr with hr
    injection hr with _ hr
    exact hr ▸ (h.slope hN ht).set _ _ _

theorem triCatchWrap_ok (hN : ZeroLaw N) {c : TriConsts Num} {eof par x y z : Num} {p q r : Pabli Num}
    (h : SampleEffect N (PulseCells p 72) p q) (hr : triCatchWrap N c eof par x q = .ok (y, z, r)) :
    SampleEffect N (PulseCells p 72) p r := by
  obtain ⟨b, _, hr⟩ := bind_ok hr
  cases b
  · injection hr with hr
    injection hr with _ hr
    injection hr with _ hr
    exact hr ▸ h
  · obtain ⟨par', _, hr⟩ := bind_ok hr
    obtain ⟨x', _, hr⟩ := bind_ok hr
    obtain ⟨phi, _, hr⟩ := bind_ok hr
    obtain ⟨t, ht, hr⟩ := bind_ok hr
    injection hr with hr
    injection hr with _ hr
    injection hr with _ hr
    exact hr ▸ (h.slope hN ht).set _ _ _

theorem triCatchUp_ok (hN : ZeroLaw N) {c : TriConsts Num} {eof par x : Num} {p q r : Pabli Num}
    (h : SampleEffect N (PulseCells p 72) p q) (hr : triCatchUp N c eof par q = .ok (x, r)) :
    SampleEffect N (PulseCells p 72) p r := by
  unfold triCatchUp at hr
  split at hr
  · obtain ⟨v, _, hr⟩ := bind_ok hr
    obtain ⟨⟨y, t⟩, ht, hr⟩ := bind_ok hr
    obtain ⟨⟨y', z, u⟩, hu, hr⟩ := bind_ok hr
    injection hr with hr
    injection hr with _ hr
    exact hr ▸ triCatchWrap_ok hN (triCatchBreak_ok hN h ht) hu
  · obtain ⟨v, _, hr⟩ := bind_ok hr
    obtain ⟨⟨y', z, u⟩, hu, hr⟩ := bind_ok hr
    have hw := triCatchWrap_ok hN h hu
    dsimp only at hr
    split at hr
    · exact triCatchBreak_ok hN hw hr
    · injection hr with hr
      injection hr with _ hr
      exact hr ▸ hw

theorem triResetPass_ok (hN : ZeroLaw N) {c : TriConsts Num} {x : Num} {p q r : Pabli Num}
    (h : SampleEffect N (PulseCells p 72) p q) (hr : triResetPass N c x q = .ok r) :
    SampleEffect N (PulseCells p 72) p r := by
  obtain ⟨t, ht, hr⟩ := bind_ok hr
  obtain ⟨gap, _, hr⟩ := bind_ok hr
  obtain ⟨u, hu, hr⟩ := bind_ok hr
  obtain ⟨x', _, hr⟩ := bind_ok hr
  obtain ⟨⟨v, o⟩, ho, hr⟩ := bind_ok hr
  injection hr with hr
  subst hr
  have h1 : SampleEffect N (PulseCells p 72) p t := by
    unfold triResetSlope at ht
    split at ht
    · injection ht with ht
      exact ht ▸ h
    · exact h.slope hN ht
  have h2 := (h1.step hN hu).set u.phase .a u.lastv
  obtain ⟨b, _, ho⟩ := bind_ok ho
  cases b
  · injection ho with ho
    injection ho with _ ho
    subst ho
    exact h2.set _ _ _
  · obtain ⟨x'', _, ho⟩ := bind_ok ho
    obtain ⟨phi, _, ho⟩ := bind_ok ho
    obtain ⟨m, hm, ho⟩ := bind_ok ho
    injection ho with ho
    injection ho with _ ho
    subst ho
    exact (h2.slope hN hm).set _ _ _

theorem syntRule_ok (hN : ZeroLaw N) {p q : Pabli Num} {i : Nat} (hi : i < 1024) (h : syntRule N i p = .ok q) :
    SampleEffect N (SampleCells p i) p q := by
  obtain ⟨c, _, h⟩ := bind_ok h
  obtain ⟨y, _, h⟩ := bind_ok h
  obtain ⟨⟨x, r⟩, hr, h⟩ := bind_ok h
  obtain ⟨t, ht, h⟩ := bind_ok h
  injection h with h
  subst h
  exact (triResetPass_ok hN (triCatchUp_ok hN (SampleEffect.regs N _ p y.eof p.edge p.lastv) hr) ht).emit hN hi

theorem handleRule_ok (hN : ZeroLaw N) {p q : Pabli Num} {i : Nat} (hi : i < 1024) (h : handleRule N i p = .ok q) :
    SampleEffect N (SampleCells p i) p q := by
  obtain ⟨b, _, h⟩ := bind_ok h
  cases b
  · simp only [Bool.false_eq_true, if_false] at h
    unfold detectRule at h
    split at h
    · exact detsRule_ok hN hi h
    · exact detrRule_ok hN hi h
    · exact dettRule_ok hN hi h
  · simp only [if_true] at h
    unfold syncRule at h
    split at h
    · exact synsRule_ok hN hi h
    · exact synrRule_ok hN hi h
    · exact syntRule_ok hN hi h

/-! ## Effects of the loop: all of the oscillator state -/

/-- Only the oscillator state but not `SHAPE`, and memory, changed; of memory nothing outside the addresses given; and
the canonical form is kept. -/
structure LoopEffect (N : NumOps Num) (written : Nat → Prop) (p q : Pabli Num) : Prop where
  only : q = { p with phase := q.phase, w := q.w, duty := q.duty, lastv := q.lastv, z := q.z, a := q.a, dw := q.dw,
                      db := q.db, j := q.j, edge := q.edge, init := q.init, mem := q.mem }
  init : p.init = true → q.init = true
  kept : MemKept N written p q
  wf : Memory.wf N p.mem = true → Memory.wf N q.mem = true

namespace LoopEffect

variable {S T : Nat → Prop} {p q r : Pabli Num}

theorem of_sample (h : SampleEffect N S p q) : LoopEffect N S p q :=
  ⟨by rw [h.only], fun hi => by rw [h.only]; exact hi, h.kept, h.wf⟩

theorem of_mem (h : MemEffect N S p q) : LoopEffect N S p q := of_sample (SampleEffect.of_mem h)

theorem refl (N : NumOps Num) (S : Nat → Prop) (p : Pabli Num) : LoopEffect N S p p := of_mem (MemEffect.refl N S p)

theorem mono (h : LoopEffect N S p q) (hST : ∀ a, S a → T a) : LoopEffect N T p q :=
  ⟨h.only, h.init, fun a ha => h.kept a fun hs => ha (hST a hs), h.wf⟩

theorem trans (h1 : LoopEffect N S p q) (h2 : LoopEffect N S q r) : LoopEffect N S p r := by
  refine ⟨?_, fun h => h2.init (h1.init h), fun a ha => (h2.kept a ha).trans (h1.kept a ha), fun h => h2.wf (h1.wf h)⟩
  rw [h2.only, h1.only]

theorem shape (h : LoopEffect N S p q) : q.shape = p.shape := by rw [h.only]
theorem powerOns (h : LoopEffect N S p q) : q.powerOns = p.powerOns := by rw [h.only]

end LoopEffect

theorem pulse_buf {p : Pabli Num} {len addr : Nat} (hl : len ≤ 72) (h : PulseCells p len addr) : BufCells addr := by
  obtain ⟨k, hk, he⟩ := h
  have := p.j.isLt
  have : Config.fillLen = 256 := rfl
  rw [he]
  exact isBufAddr_bufAddr.2 (by omega)

theorem sample_buf {p : Pabli Num} {i addr : Nat} (h : SampleCells p i addr) :
    addr = wordAddr .syncOut i ∨ BufCells addr :=
  h.imp id (pulse_buf (by decide))

/-! ## The loop steps -/

/-- `COEF` (R134). -/
theorem coefRule_ok {p q : Pabli Num} (h : coefRule N p = .ok q) : ∃ a, q = { p with a := a } := by
  obtain ⟨x, _, h⟩ := bind_ok h
  obtain ⟨a, _, h⟩ := bind_ok h
  injection h with h
  exact ⟨a, h.symm⟩

/-- `RAMP` (R137). -/
theorem rampRule_ok {p q : Pabli Num} (h : rampRule N p = .ok q) : ∃ w d, q = { p with w := w, duty := d } := by
  obtain ⟨w, _, h⟩ := bind_ok h
  obtain ⟨d, _, h⟩ := bind_ok h
  injection h with h
  exact ⟨w, d, h.symm⟩

/-- `ADV` (R138). -/
theorem advRule_ok {p q : Pabli Num} (h : advRule N p = .ok q) : ∃ x, q = { p with phase := x } := by
  obtain ⟨x, _, h⟩ := bind_ok h
  injection h with h
  exact ⟨x, h.symm⟩

/-- `BOOT` (R135): the registers it writes, `DUTY` not under SAW. -/
theorem bootRule_ok {p q : Pabli Num} {i : Nat} (h : bootRule N i p = .ok q) :
    ∃ phase w duty lastv, q = { p with phase := phase, w := w, duty := duty, lastv := lastv, dw := N.zero,
                                       db := N.zero, edge := .a, init := true } ∧ (p.shape = .saw → duty = p.duty) := by
  obtain ⟨w, _, h⟩ := bind_ok h
  obtain ⟨r, hr, h⟩ := bind_ok h
  injection h with h
  subst h
  unfold bootShape at hr
  split at hr <;> rename_i hs
  · injection hr with hr
    subst hr
    exact ⟨_, _, _, _, rfl, fun _ => rfl⟩
  · obtain ⟨d, _, hr⟩ := bind_ok hr
    injection hr with hr
    subst hr
    exact ⟨_, _, _, _, rfl, fun h' => by simp [h'] at hs⟩
  · obtain ⟨d, _, hr⟩ := bind_ok hr
    obtain ⟨x, _, hr⟩ := bind_ok hr
    injection hr with hr
    subst hr
    exact ⟨_, _, _, _, rfl, fun h' => by simp [h'] at hs⟩

/-- `SMOOTH` (R136). -/
theorem smoothRule_ok {p q : Pabli Num} {cnt i : Nat} (h : smoothRule N cnt i p = .ok q) :
    ∃ dw db, q = { p with dw := dw, db := db } := by
  obtain ⟨t, _, h⟩ := bind_ok h
  obtain ⟨dw, _, h⟩ := bind_ok h
  obtain ⟨db, _, h⟩ := bind_ok h
  injection h with h
  exact ⟨dw, db, h.symm⟩

/-- `DEP` (R139): one cell. -/
theorem depRule_ok (hN : ZeroLaw N) {p q : Pabli Num} (h : depRule N p = .ok q) :
    MemEffect N (fun a => a = bufAddr (p.j.val + 4)) p q ∧
      N.add (bufRead N p (p.j.val + 4)) p.lastv = .ok (bufRead N q (p.j.val + 4)) := by
  have := p.j.isLt
  have : Config.fillLen = 256 := rfl
  exact bufAdd_ok hN (by omega) h

/-- `RDS` (R140): `Z` and one word of `AUDIO_OUT`. -/
theorem rdsRule_ok (hN : ZeroLaw N) {p q : Pabli Num} {i : Nat} (hi : i < 1024) (h : rdsRule N i p = .ok q) :
    q = { p with z := q.z, mem := q.mem } ∧ readWord N q (wordAddr .audioOut i) = q.z ∧
      LoopEffect N (fun a => a = wordAddr .audioOut i) p q := by
  obtain ⟨d, _, h⟩ := bind_ok h
  obtain ⟨x, _, h⟩ := bind_ok h
  obtain ⟨z, _, h⟩ := bind_ok h
  injection h with h
  have he := writeWord_effect hN { p with z := z } z (addr := wordAddr .audioOut i)
    (by simp only [wordAddr, regionBase]; omega) (.inr (.inr (ramAddr_cases (by simp) hi)))
  subst h
  exact ⟨rfl, readWord_writeWord_same hN _ _ _, rfl, id, he.kept, he.wf⟩

/-- Clearing cells: each of them 0 afterwards, and nothing else changed. -/
theorem clearCells_effect (hN : ZeroLaw N) (p : Pabli Num) {first count : Nat} (hc : first + count ≤ 328) :
    MemEffect N (fun a => ∃ k, first ≤ k ∧ k < first + count ∧ a = bufAddr k) p (clearCells N p first count) ∧
      ∀ k, first ≤ k → k < first + count → bufRead N (clearCells N p first count) k = N.zero := by
  induction count with
  | zero => exact ⟨MemEffect.refl N _ p, fun k h1 h2 => by omega⟩
  | succ n ih =>
    obtain ⟨he, hz⟩ := ih (by omega)
    have hw := bufWrite_effect hN (clearCells N p first n) N.zero (k := first + n) (by omega)
    refine ⟨(he.mono ?_).trans (hw.mono ?_), fun k h1 h2 => ?_⟩
    · rintro a ⟨k, h1, h2, ha⟩
      exact ⟨k, h1, by omega, ha⟩
    · rintro a ha
      exact ⟨first + n, by omega, by omega, ha⟩
    · by_cases hk : k = first + n
      · subst hk
        exact readWord_writeWord_same hN _ _ _
      · rw [show bufRead N (clearCells N p first (n + 1)) k = bufRead N (clearCells N p first n) k from
          hw.kept _ (by simp; omega)]
        exact hz k h1 (by omega)

/-- Copying the tail: each cell of the front gets its word, and nothing else changed (R141). -/
theorem copyTail_ok (hN : ZeroLaw N) {p q : Pabli Num} {count : Nat} (hc : count ≤ 72)
    (h : copyTail N p count = .ok q) :
    MemEffect N (fun a => ∃ k, k < count ∧ a = bufAddr k) p q ∧
      ∀ k, k < count → N.read (bufRead N p (256 + k)) = .ok (bufRead N q k) := by
  induction count generalizing q with
  | zero =>
    injection h with h
    subst h
    exact ⟨MemEffect.refl N _ p, fun k hk => by omega⟩
  | succ n ih =>
    obtain ⟨r, hr, h⟩ := bind_ok h
    obtain ⟨v, hv, h⟩ := bind_ok h
    injection h with h
    subst h
    obtain ⟨he, hk⟩ := ih (by omega) hr
    have hw := bufWrite_effect hN r v (k := n) (by omega)
    refine ⟨(he.mono ?_).trans (hw.mono ?_), fun k hk' => ?_⟩
    · rintro a ⟨k, h1, ha⟩
      exact ⟨k, by omega, ha⟩
    · rintro a ha
      exact ⟨n, by omega, ha⟩
    · by_cases hkn : k = n
      · subst hkn
        rw [show bufRead N (bufWrite N r k v) k = v from readWord_writeWord_same hN _ _ _, ← hv]
        refine congrArg _ (he.kept _ ?_).symm
        rintro ⟨k', hk1, hk2⟩
        simp at hk2
        have : Config.fillLen = 256 := rfl
        omega
      · rw [show bufRead N (bufWrite N r n v) k = bufRead N r k from hw.kept _ (by simp; omega)]
        exact hk k (by omega)

/-- The fold (R141). -/
theorem foldBuffer_ok (hN : ZeroLaw N) {p q : Pabli Num} (h : foldBuffer N p = .ok q) :
    q = { p with j := 0, mem := q.mem } ∧ LoopEffect N BufCells p q ∧
      (∀ k, k < 72 → N.read (bufRead N p (256 + k)) = .ok (bufRead N q k)) ∧
      ∀ k, 72 ≤ k → k < 328 → bufRead N q k = N.zero := by
  obtain ⟨r, hr, h⟩ := bind_ok h
  obtain ⟨hc, hk⟩ := copyTail_ok hN (by decide) hr
  rw [show Config.bufLen - Config.lMax = 256 from rfl, show Config.lMax = 72 from rfl] at h
  obtain ⟨hz, hzero⟩ := clearCells_effect hN r (first := 72) (count := 256) (by decide)
  have hb : MemEffect N BufCells p (clearCells N r 72 256) := by
    refine (hc.mono ?_).trans (hz.mono ?_)
    · rintro a ⟨k, h1, ha⟩
      rw [ha]
      exact isBufAddr_bufAddr.2 (by have : Config.lMax = 72 := rfl; omega)
    · rintro a ⟨k, h1, h2, ha⟩
      rw [ha]
      exact isBufAddr_bufAddr.2 (by omega)
  generalize clearCells N r 72 256 = t at *
  have hq : q = { t with j := 0 } := (Except.ok.inj h).symm
  have hw : ∀ addr, readWord N q addr = readWord N t addr := readWord_congr N (by rw [hq]) (by rw [hq])
  refine ⟨by rw [hq, hb.only], ⟨by rw [hq, hb.only], fun hi => by rw [hq, hb.only]; exact hi,
    fun a ha => (hw a).trans (hb.kept a ha), fun h => by rw [hq]; exact hb.wf h⟩, fun k h1 => ?_,
    fun k h1 h2 => (hw _).trans (hzero k h1 h2)⟩
  rw [hk k h1]
  refine congrArg _ ((hw _).trans (hz.kept _ ?_)).symm
  rintro ⟨k', h2, h3, h4⟩
  simp at h4
  omega

/-- `ROT` (R141): `J`, and at the fold `BUF`. -/
theorem rotRule_ok (hN : ZeroLaw N) {p q : Pabli Num} (h : rotRule N p = .ok q) :
    q = { p with j := q.j, mem := q.mem } ∧ q.j.val = (p.j.val + 1) % 256 ∧ LoopEffect N BufCells p q := by
  have hj := p.j.isLt
  have hf : Config.fillLen = 256 := rfl
  unfold rotRule at h
  split at h
  · injection h with h
    subst h
    exact ⟨rfl, by simp only; omega, rfl, id, fun _ _ => rfl, id⟩
  · obtain ⟨h1, h2, -, -⟩ := foldBuffer_ok hN h
    refine ⟨?_, ?_, h2⟩
    · rw [h1]
    · rw [h1]
      simp only [Fin.val_zero]
      omega

/-- A word of `AUDIO_OUT` is no cell of `BUF`. -/
theorem audioOut_not_buf (i : Nat) : isBufAddr (wordAddr .audioOut i) = false := by
  rw [Bool.eq_false_iff]
  intro h
  rw [isBufAddr_iff, wordAddr, regionBase] at h
  omega

/-- `TICK` (R142). -/
theorem tickRule_ok (hN : ZeroLaw N) {p q : Pabli Num} {i : Nat} (hi : i < 1024) (h : tickRule N i p = .ok q) :
    LoopEffect N (TickCells i) p q := by
  obtain ⟨p1, h1, h⟩ := bind_ok h
  obtain ⟨p2, h2, h⟩ := bind_ok h
  obtain ⟨p3, h3, h⟩ := bind_ok h
  obtain ⟨p4, h4, h⟩ := bind_ok h
  obtain ⟨p5, h5, h⟩ := bind_ok h
  have e1 : LoopEffect N (TickCells i) p p1 := by
    obtain ⟨w, d, rfl⟩ := rampRule_ok h1
    exact ⟨rfl, id, fun _ _ => rfl, id⟩
  have e2 : LoopEffect N (TickCells i) p1 p2 := by
    obtain ⟨x, rfl⟩ := advRule_ok h2
    exact ⟨rfl, id, fun _ _ => rfl, id⟩
  have e3 : LoopEffect N (TickCells i) p2 p3 :=
    (LoopEffect.of_sample (handleRule_ok hN hi h3)).mono fun _ ha => .inr (sample_buf ha)
  have e4 : LoopEffect N (TickCells i) p3 p4 := by
    refine (LoopEffect.of_mem (depRule_ok hN h4).1).mono fun a ha => .inr (.inr ?_)
    have := p3.j.isLt
    have : Config.fillLen = 256 := rfl
    rw [ha]
    exact isBufAddr_bufAddr.2 (by omega)
  have e5 : LoopEffect N (TickCells i) p4 p5 := (rdsRule_ok hN hi h5).2.2.mono fun _ ha => .inl ha
  have e6 : LoopEffect N (TickCells i) p5 q := (rotRule_ok hN h).2.2.mono fun _ ha => .inr (.inr ha)
  exact ((((e1.trans e2).trans e3).trans e4).trans e5).trans e6

/-- `TICK` moves `W` and `DUTY` once, takes the cursor one further, leaves the filter state as the audio output, and leaves
`A`, `DW`, `DB`, `INIT` (R142). -/
theorem tickRule_registers (hN : ZeroLaw N) {p q : Pabli Num} {i : Nat} (hi : i < 1024) (h : tickRule N i p = .ok q) :
    N.add p.w p.dw = .ok q.w ∧ N.add p.duty p.db = .ok q.duty ∧ q.j.val = (p.j.val + 1) % 256 ∧
      readWord N q (wordAddr .audioOut i) = q.z ∧
      q.a = p.a ∧ q.dw = p.dw ∧ q.db = p.db ∧ q.init = p.init := by
  obtain ⟨p1, h1, h⟩ := bind_ok h
  obtain ⟨p2, h2, h⟩ := bind_ok h
  obtain ⟨p3, h3, h⟩ := bind_ok h
  obtain ⟨p4, h4, h⟩ := bind_ok h
  obtain ⟨p5, h5, h⟩ := bind_ok h
  obtain ⟨w, hw, h1⟩ := bind_ok h1
  obtain ⟨d, hd, h1⟩ := bind_ok h1
  injection h1 with h1
  obtain ⟨x, e2⟩ := advRule_ok h2
  have e3 := (handleRule_ok hN hi h3).only
  have e4 := (depRule_ok hN h4).1.only
  obtain ⟨e5, hz, -⟩ := rdsRule_ok hN hi h5
  obtain ⟨e6, hj, hk⟩ := rotRule_ok hN h
  have hp (addr : Nat) (ha : isBufAddr addr = false) : readWord N q addr = readWord N p5 addr :=
    hk.kept addr fun hb => by
      unfold BufCells at hb
      rw [ha] at hb
      exact Bool.false_ne_true hb
  have hq : readWord N q (wordAddr .audioOut i) = q.z := by
    rw [hp _ (audioOut_not_buf i), hz, e6]
  have hj5 : p5.j = p.j := by rw [e5, e4, e3, e2, ← h1]
  rw [hj5] at hj
  refine ⟨?_, ?_, hj, hq, ?_, ?_, ?_, ?_⟩
  · rw [hw, e6, e5, e4, e3, e2, ← h1]
  · rw [hd, e6, e5, e4, e3, e2, ← h1]
  all_goals rw [e6, e5, e4, e3, e2, ← h1]

/-! ## The block -/

theorem tick_run {i n addr : Nat} (hi : i < n) (h : TickCells i addr) : RunCells n addr := by
  rcases h with h | h | h
  · exact .inl ⟨i, hi, .inl h⟩
  · exact .inl ⟨i, hi, .inr h⟩
  · exact .inr h

theorem tickRange_ok (hN : ZeroLaw N) {p q : Pabli Num} {first count n : Nat} (hf : first + count ≤ n) (hn : n ≤ 1024)
    (h : tickRange N first p count = .ok q) : LoopEffect N (RunCells n) p q := by
  induction count generalizing q with
  | zero =>
    injection h with h
    exact h ▸ LoopEffect.refl N _ p
  | succ c ih =>
    obtain ⟨r, hr, h⟩ := bind_ok h
    exact (ih (by omega) hr).trans
      ((tickRule_ok hN (by omega) h).mono fun _ ha => tick_run (by omega) ha)

theorem chunkRule_ok (hN : ZeroLaw N) {p q : Pabli Num} {base c n : Nat} (hf : base + c ≤ n) (hn : n ≤ 1024)
    (h : chunkRule N base c p = .ok q) : LoopEffect N (RunCells n) p q := by
  obtain ⟨r, hr, h⟩ := bind_ok h
  obtain ⟨dw, db, rfl⟩ := smoothRule_ok hr
  exact LoopEffect.trans (q := { p with dw := dw, db := db }) ⟨rfl, id, fun _ _ => rfl, id⟩ (tickRange_ok hN hf hn h)

theorem chunksFrom_ok (hN : ZeroLaw N) {p q : Pabli Num} {rounds base left n : Nat} (hf : base + left ≤ n)
    (hn : n ≤ 1024) (h : chunksFrom N rounds base left p = .ok q) : LoopEffect N (RunCells n) p q := by
  induction rounds generalizing base left p with
  | zero =>
    injection h with h
    exact h ▸ LoopEffect.refl N _ p
  | succ k ih =>
    unfold chunksFrom at h
    split at h
    · injection h with h
      exact h ▸ LoopEffect.refl N _ p
    · obtain ⟨r, hr, h⟩ := bind_ok h
      have hm : min Config.chunk left ≤ left := Nat.min_le_right _ _
      exact (chunkRule_ok hN (by omega) hn hr).trans (ih (by omega) h)

/-- `RUN n` (R132). -/
theorem runBlock_ok (hN : ZeroLaw N) {p q : Pabli Num} {n : Nat} (hn : n ≤ 1024) (h : runBlock N n p = .ok q) :
    LoopEffect N (RunCells n) p q := by
  unfold runBlock at h
  split at h
  · injection h with h
    exact h ▸ LoopEffect.refl N _ p
  · obtain ⟨p1, h1, h⟩ := bind_ok h
    obtain ⟨p2, h2, h⟩ := bind_ok h
    have e1 : LoopEffect N (RunCells n) p p1 := by
      obtain ⟨a, rfl⟩ := coefRule_ok h1
      exact ⟨rfl, id, fun _ _ => rfl, id⟩
    have e2 : LoopEffect N (RunCells n) p1 p2 := by
      unfold bootIfNeeded at h2
      split at h2
      · injection h2 with h2
        exact h2 ▸ LoopEffect.refl N _ p1
      · obtain ⟨_, _, _, _, rfl, _⟩ := bootRule_ok h2
        exact ⟨rfl, fun _ => rfl, fun _ _ => rfl, id⟩
    exact (e1.trans e2).trans (chunksFrom_ok hN (by omega) hn h)

/-- `RESET` (R131). -/
theorem resetRule_effect (hN : ZeroLaw N) (shape : Shape) (p : Pabli Num) :
    resetRule N shape p =
        { p with shape := shape, j := 0, z := N.zero, init := false, edge := .a, phase := N.zero, w := N.zero,
                 duty := N.zero, lastv := N.zero, a := N.zero, dw := N.zero, db := N.zero,
                 mem := (resetRule N shape p).mem } ∧
      MemKept N BufCells p (resetRule N shape p) ∧
      (Memory.wf N p.mem = true → Memory.wf N (resetRule N shape p).mem = true) ∧
      ∀ k, k < 328 → bufRead N (resetRule N shape p) k = N.zero := by
  obtain ⟨he, hz⟩ := clearCells_effect hN p (first := 0) (count := 328) (by decide)
  have hk : MemKept N BufCells p (clearCells N p 0 328) := by
    refine fun a ha => he.kept a ?_
    rintro ⟨k, _, hk, h⟩
    exact ha (by rw [h]; exact isBufAddr_bufAddr.2 (by omega))
  have hr : resetRule N shape p =
      { clearCells N p 0 328 with
        shape := shape, j := 0, z := N.zero, init := false, edge := .a, phase := N.zero, w := N.zero, duty := N.zero,
        lastv := N.zero, a := N.zero, dw := N.zero, db := N.zero } := rfl
  rw [hr]
  generalize clearCells N p 0 328 = t at *
  exact ⟨by rw [he.only], hk, he.wf, fun k h => hz k (Nat.zero_le k) (by omega)⟩

end Sys2Proof.Machine
end

