-- ==== Sys2Proof/Laws/Bus.lean ====
section
/-! SUPPORT. What a step can do, by the host's next move: the location an address reaches, and the outcome of a read, a
write, a command and the reset input on an idle core. -/

namespace Sys2Proof.Machine

variable {Num : Type}

/-! ## Locations -/

/-- Beyond the register window an address reaches a word of a memory, or nothing (R61, R67). -/
theorem locate_memory {addr : Nat} (h : 0x48 ≤ addr) :
    locate addr =
      if isBufAddr addr || isRamAddr addr then some (.cell addr)
      else if isRomAddr addr then some (.rom addr)
      else none := by
  unfold locate
  split <;> first | omega | rfl

theorem locate_cell {addr : Nat} (h : isBufAddr addr = true ∨ isRamAddr addr = true) :
    locate addr = some (.cell addr) := by
  have h48 : 0x48 ≤ addr := by
    rcases h with h | h
    · rw [isBufAddr_iff] at h; omega
    · rw [isRamAddr_iff] at h; omega
  rw [locate_memory h48]
  rcases h with h | h <;> simp [h]

theorem rom_not_cell {addr : Nat} (h : isRomAddr addr = true) :
    isBufAddr addr = false ∧ isRamAddr addr = false := by
  rw [isRomAddr_iff] at h
  constructor <;> rw [Bool.eq_false_iff] <;> intro hh
  · rw [isBufAddr_iff] at hh; omega
  · rw [isRamAddr_iff] at hh; omega

theorem ram_not_buf {addr : Nat} (h : isRamAddr addr = true) : isBufAddr addr = false := by
  rw [isRamAddr_iff] at h
  rw [Bool.eq_false_iff]
  intro hh
  rw [isBufAddr_iff] at hh
  omega

theorem locate_rom {addr : Nat} (h : isRomAddr addr = true) : locate addr = some (.rom addr) := by
  have hr := h
  rw [isRomAddr_iff] at hr
  rw [locate_memory (by omega)]
  simp [h, rom_not_cell h]

/-- What an address reaches beyond the registers is a word of the memory it names. -/
theorem locate_cell_addr {addr a : Nat} (h : locate addr = some (.cell a)) :
    a = addr ∧ (isBufAddr addr = true ∨ isRamAddr addr = true) := by
  unfold locate at h
  split at h
  all_goals try (simp only [Option.some.injEq, reduceCtorEq] at h)
  split at h
  · rename_i hc
    injection h with h
    injection h with h
    exact ⟨h.symm, by simpa using hc⟩
  · split at h <;> simp at h

theorem target_some {addr : BitVec 18} {width : Nat} {l : Location} (h : target addr width = some l) :
    addr.toNat % 4 = 0 ∧ width = 4 ∧ locate addr.toNat = some l := by
  unfold target at h
  split at h
  · rename_i hc
    exact ⟨hc.1, hc.2, h⟩
  · simp at h

theorem target_aligned {addr : BitVec 18} (h : addr.toNat % 4 = 0) : target addr 4 = locate addr.toNat := by
  simp [target, h]

/-! ## The next move of an idle core -/

theorem moveOn_asked (N : NumOps Num) (mk : Pabli Num → Configured) (m : HostMove Num) {p : Pabli Num}
    (h : p.busy = false) : moveOn N mk (asked m p) = takeMove N mk m p := by
  cases p
  cases h
  rfl

theorem nextMove_exact (m : HostMove Rat) {p : Pabli Rat} (h : p.busy = false) :
    nextMove (exactState (asked m p)) = takeMove exactOps .exact m p := moveOn_asked exactOps .exact m h

theorem nextMove_b32 (m : HostMove B32) {p : Pabli B32} (h : p.busy = false) :
    nextMove (b32State (asked m p)) = takeMove b32Ops .b32 m p := moveOn_asked b32Ops .b32 m h

/-- A step that takes a command (R34). -/
theorem step_commanded_exact (c : Word) {p : Pabli Rat} (h : p.busy = false) :
    step (exactState (commanded c p)) = runCommand c (exactState p) := by
  unfold step commanded
  rw [nextMove_exact _ h]
  rfl

theorem step_commanded_b32 (c : Word) {p : Pabli B32} (h : p.busy = false) :
    step (b32State (commanded c p)) = runCommand c (b32State p) := by
  unfold step commanded
  rw [nextMove_b32 _ h]
  rfl

/-- A step that takes a read (R65). -/
theorem step_read_exact (addr : BitVec 18) (width : Nat) {p : Pabli Rat} (h : p.busy = false) :
    step (exactState (asked (.read addr width) p)) = .next (exactState (hostRead exactOps addr width p)) := by
  unfold step
  rw [nextMove_exact _ h]
  rfl

theorem step_read_b32 (addr : BitVec 18) (width : Nat) {p : Pabli B32} (h : p.busy = false) :
    step (b32State (asked (.read addr width) p)) = .next (b32State (hostRead b32Ops addr width p)) := by
  unfold step
  rw [nextMove_b32 _ h]
  rfl

/-- The outcome of a move that is not a command. -/
def Move.outcome (s : State) : Move → Host.Outcome State Fault Refusal
  | .idle => .next s
  | .stuck f => .fault f
  | .done o => o
  | .command w t => runCommand w t

/-- A step that takes a write (R65). -/
theorem step_write_exact (addr : BitVec 18) (width : Nat) (v : BusWord Rat) {p : Pabli Rat} (h : p.busy = false) :
    step (exactState (asked (.write addr width v) p)) =
      (writeMove exactOps .exact addr width v p).outcome (exactState p) := by
  unfold step
  rw [nextMove_exact _ h]
  cases hm : writeMove exactOps .exact addr width v p <;> simp only [takeMove, hm, Move.outcome]
  unfold writeMove at hm
  split at hm <;> try split at hm
  all_goals simp at hm

theorem step_write_b32 (addr : BitVec 18) (width : Nat) (v : BusWord B32) {p : Pabli B32} (h : p.busy = false) :
    step (b32State (asked (.write addr width v) p)) =
      (writeMove b32Ops .b32 addr width v p).outcome (b32State p) := by
  unfold step
  rw [nextMove_b32 _ h]
  cases hm : writeMove b32Ops .b32 addr width v p <;> simp only [takeMove, hm, Move.outcome]
  unfold writeMove at hm
  split at hm <;> try split at hm
  all_goals simp at hm

/-! ## Commands on an idle core -/

theorem raiseErr_raiseBusy (e : ErrCode) (p : Pabli Num) : raiseErr e { p with busy := true } = raiseErr e p := rfl

theorem raiseErr_dropBusy (e : ErrCode) (p : Pabli Num) : { raiseErr e p with busy := false } = raiseErr e p := by
  unfold raiseErr
  split <;> rfl

/-- A word that does not decode raises its error and does nothing else (R94, R201). -/
theorem step_bad_word {c : Word} {e : ErrCode} (hd : decode c = .error e) :
    BothCores fun _ _ mk => ∀ p, p.busy = false → step (mk (commanded c p)) = .next (mk (raiseErr e p)) := by
  constructor
  · intro p h
    rw [step_commanded_exact c h]
    unfold runCommand
    rw [hd]
    exact congrArg (fun q => Host.Outcome.next (exactState q)) (raiseErr_raiseBusy e p)
  · intro p h
    rw [step_commanded_b32 c h]
    unfold runCommand
    rw [hd]
    exact congrArg (fun q => Host.Outcome.next (b32State q)) (raiseErr_raiseBusy e p)

/-- A word that decodes to a command with an operand out of range raises `ERR(3)` and does nothing else. -/
theorem step_bad_operand {c : Word} {i : Instr} (hd : decode c = .ok i)
    (hi : ∀ s, exec i s = .next (onPabli (fun _ p => raiseErr .range p) s)) :
    BothCores fun _ _ mk => ∀ p, p.busy = false → step (mk (commanded c p)) = .next (mk (raiseErr .range p)) := by
  constructor
  · intro p h
    rw [step_commanded_exact c h]
    unfold runCommand
    rw [hd]
    simp only [hi, finishCommand]
    simp only [raiseBusy, dropBusy, exactState, onPabli_exact, raiseErr_raiseBusy, raiseErr_dropBusy]
  · intro p h
    rw [step_commanded_b32 c h]
    unfold runCommand
    rw [hd]
    simp only [hi, finishCommand]
    simp only [raiseBusy, dropBusy, b32State, onPabli_b32, raiseErr_raiseBusy, raiseErr_dropBusy]

end Sys2Proof.Machine
end

