-- ==== Sys2Proof/Laws/Samples.lean ====
section
/-! SUPPORT. How a sample is put together under EXACT: a state that differs from another by `PHASE`, `EDGE`, `LASTV` and a
list of pulses, one more pulse at a time. -/

namespace Sys2Proof.Machine

/-- The state `q` is `p` with `PHASE`, `EDGE`, `LASTV` written and the pulses added to `BUF[J ..]`. -/
structure Injected (p q : Pabli Rat) (pulses : List Pulse) : Prop where
  effect : SampleEffect exactOps (PulseCells p 72) p q
  cells : ∀ k, k < 72 → bufRead exactOps q (p.j.val + k) = bufRead exactOps p (p.j.val + k) + pulseSum p pulses k

namespace Injected

variable {p q : Pabli Rat} {pulses : List Pulse}

/-- Nothing injected yet. -/
theorem start (p : Pabli Rat) (phase : Rat) (edge : Edge) (lastv : Rat) :
    Injected p { p with phase := phase, edge := edge, lastv := lastv } [] :=
  ⟨SampleEffect.regs _ _ p phase edge lastv, fun _ _ => (add_zero _).symm⟩

/-- Writing the three registers. -/
theorem set (h : Injected p q pulses) (phase : Rat) (edge : Edge) (lastv : Rat) :
    Injected p { q with phase := phase, edge := edge, lastv := lastv } pulses :=
  ⟨h.effect.set phase edge lastv, h.cells⟩

/-- A table word, and any other word outside the pulse cells, is as at the start. -/
theorem rom (h : Injected p q pulses) {addr : Nat} (hr : isBufAddr addr = false) :
    readWord exactOps q addr = readWord exactOps p addr :=
  h.effect.kept addr fun hp => by
    have hb := pulse_buf (by decide) hp
    unfold BufCells at hb
    rw [hr] at hb
    exact Bool.false_ne_true hb

theorem stepValueAddr_not_buf (e : Nat) : isBufAddr (stepValueAddr e) = false := by
  rw [Bool.eq_false_iff]
  intro h
  rw [isBufAddr_iff, stepValueAddr] at h
  omega

theorem stepDeltaAddr_not_buf (e : Nat) : isBufAddr (stepDeltaAddr e) = false := by
  rw [Bool.eq_false_iff]
  intro h
  rw [isBufAddr_iff, stepDeltaAddr] at h
  omega

theorem slopeAddr_not_buf (e : Nat) : isBufAddr (slopeAddr e) = false := by
  rw [Bool.eq_false_iff]
  intro h
  rw [isBufAddr_iff, slopeAddr, wordAddr, regionBase] at h
  omega

/-- A pulse seen from a later state of the sample adds what it adds from the first. -/
theorem pulseAt_eq (h : Injected p q pulses) (x : Pulse) (k : Nat) : pulseAt q x k = pulseAt p x k := by
  cases x <;>
    simp only [pulseAt, h.effect.w, h.rom (stepValueAddr_not_buf _), h.rom (stepDeltaAddr_not_buf _),
      h.rom (slopeAddr_not_buf _)]

theorem pulseSum_append (p : Pabli Rat) (xs ys : List Pulse) (k : Nat) :
    pulseSum p (xs ++ ys) k = pulseSum p xs k + pulseSum p ys k := by
  simp [pulseSum]

theorem more (h : Injected p q pulses) {r : Pabli Rat} {x : Pulse} (hr : Pulsed q r [x]) :
    Injected p r (pulses ++ [x]) := by
  refine ⟨h.effect.trans (SampleEffect.of_mem (hr.effect.mono (pulse_mono h.effect.j (le_refl _)))), fun k hk => ?_⟩
  have hc := hr.cells k hk
  rw [h.effect.j] at hc
  rw [hc, h.cells k hk, pulseSum_append, add_assoc]
  simp [pulseSum, h.pulseAt_eq]

/-- One more step pulse. -/
theorem step (h : Injected p q pulses) (hw : p.w ≠ 0) (phi m : Rat) :
    ∃ r, injectStep exactOps phi m q = .ok r ∧ Injected p r (pulses ++ [.step phi m]) ∧ r = { q with mem := r.mem } := by
  obtain ⟨r, hr, hp⟩ := injectStep_exact (phi := phi) (m := m) (p := q) (by rw [h.effect.w]; exact hw)
  exact ⟨r, hr, h.more hp, hp.effect.only⟩

/-- One more slope pulse. -/
theorem slope (h : Injected p q pulses) (hw : p.w ≠ 0) (phi m : Rat) :
    ∃ r, injectSlope exactOps phi m q = .ok r ∧ Injected p r (pulses ++ [.slope phi m]) ∧ r = { q with mem := r.mem } := by
  obtain ⟨r, hr, hp⟩ := injectSlope_exact (phi := phi) (m := m) (p := q) (by rw [h.effect.w]; exact hw)
  exact ⟨r, hr, h.more hp, hp.effect.only⟩

/-- The sync output written: the sample is done. -/
theorem done (h : Injected p q pulses) {i : Nat} (hi : i < 1024) (so : Rat) :
    SampleDone p (emitSync exactOps q i so) i ⟨q.phase, q.edge, q.lastv, so, pulses⟩ := by
  have he := emitSync_effect exactOps_zeroLaw q so hi
  refine ⟨?_, readWord_writeWord_same exactOps_zeroLaw _ _ _, fun k hk => ?_, fun addr ha => ?_⟩
  · have := h.effect.only
    rw [emitSync, writeWord, this]
  · have hj := p.j.isLt
    have hf : Config.fillLen = 256 := rfl
    rw [← h.cells k hk]
    refine he.kept _ ?_
    simp only [bufAddr_eq, wordAddr, regionBase]
    omega
  · rw [he.kept addr fun h' => ha (.inl h')]
    exact h.effect.kept addr fun h' => ha (.inr h')

end Injected

end Sys2Proof.Machine
end

