-- ==== Sys2Proof/Laws/Commands.lean ====
section
/-! SUPPORT. Every command as its rule behind its range check, and what any command can do. -/

namespace Sys2Proof.Machine

/-- The rule of a command. -/
def ruleOf {Num : Type} (N : NumOps Num) : Instr → Pabli Num → Except Refusal (Pabli Num)
  | .nop => fun p => .ok p
  | .reset shape => fun p => .ok (resetRule N shape p)
  | .run n => runBlock N n.toNat
  | .boot idx => bootRule N idx.toNat
  | .smooth cnt idx => smoothRule N cnt.toNat idx.toNat
  | .tick idx => tickRule N idx.toNat
  | .adv => advRule N
  | .dep => depRule N
  | .rds idx => rdsRule N idx.toNat
  | .rot => rotRule N
  | .ramp => rampRule N
  | .coef => coefRule N
  | .injs => fun p => injectStep N p.opa p.opb p
  | .injl => fun p => injectSlope N p.opa p.opb p
  | .dets idx => detsRule N idx.toNat
  | .detr idx => detrRule N idx.toNat
  | .dett idx => dettRule N idx.toNat
  | .syns idx => synsRule N idx.toNat
  | .synr idx => synrRule N idx.toNat
  | .synt idx => syntRule N idx.toNat

theorem chunkInRange_eq (cnt : BitVec 8) : chunkInRange cnt = ChunkLength.ok cnt := by
  rw [chunkInRange, ChunkLength.ok, chunkOperand, Bool.eq_iff_iff, decide_eq_true_eq, decide_eq_true_eq, ne_eq,
    ← BitVec.toNat_inj]
  simp only [BitVec.ofNat_eq_ofNat, BitVec.toNat_ofNat, Nat.zero_mod]
  omega

/-- Every command is its rule behind the check of its operand ranges (R92, R94). -/
theorem exec_eq (i : Instr) (s : State) :
    exec i s = rangeChecked i.wellFormed (fun _ N p => ruleOf N i p) s := by
  cases i with
  | nop => obtain ⟨p | p⟩ := s <;> rfl
  | smooth cnt idx =>
    show rangeChecked (chunkInRange cnt && indexInRange idx) _ s = _
    rw [chunkInRange_eq]
    rfl
  | _ => rfl

theorem exec_exact {i : Instr} (h : i.wellFormed = true) (p : Pabli Rat) :
    exec i (exactState p) = outcomeOf .exact (ruleOf exactOps i p) := by
  rw [exec_eq, rangeChecked, h]
  rfl

theorem exec_b32 {i : Instr} (h : i.wellFormed = true) (p : Pabli B32) :
    exec i (b32State p) = outcomeOf .b32 (ruleOf b32Ops i p) := by
  rw [exec_eq, rangeChecked, h]
  rfl

/-- An operand out of range raises `ERR(3)` (R94). -/
theorem exec_illFormed {i : Instr} (h : i.wellFormed = false) (s : State) :
    exec i s = .next (onPabli (fun _ p => raiseErr .range p) s) := by
  rw [exec_eq, rangeChecked, h]
  rfl

/-- A command raises no fault. -/
theorem exec_ne_fault (i : Instr) (s : State) (f : Fault) : exec i s ≠ .fault f := by
  rw [exec_eq, rangeChecked]
  split
  · obtain ⟨p | p⟩ := s <;> exact outcomeOf_ne_fault _ _ f
  · simp

/-- The next state of a command under EXACT. -/
theorem exec_exact_next {i : Instr} (h : i.wellFormed = true) {p : Pabli Rat} {t : State}
    (ht : exec i (exactState p) = .next t) : ∃ q, ruleOf exactOps i p = .ok q ∧ t = exactState q := by
  rw [exec_exact h] at ht
  exact outcomeOf_next ht

theorem exec_b32_next {i : Instr} (h : i.wellFormed = true) {p : Pabli B32} {t : State}
    (ht : exec i (b32State p) = .next t) : ∃ q, ruleOf b32Ops i p = .ok q ∧ t = b32State q := by
  rw [exec_b32 h] at ht
  exact outcomeOf_next ht

theorem exactState_inj {p q : Pabli Rat} (h : exactState p = exactState q) : p = q := by
  injection h with h
  injection h

theorem b32State_inj {p q : Pabli B32} (h : b32State p = b32State q) : p = q := by
  injection h with h
  injection h

theorem index_lt {idx : BitVec 16} (h : SampleIndex.ok idx = true) : idx.toNat < 1024 := by
  have h' : idx.toNat ≤ 1023 := of_decide_eq_true h
  omega

/-- What any command but `RESET` can do, in any configuration: the oscillator state but `SHAPE`, words of the two output
RAMs, and cells of `BUF`. -/
theorem ruleOf_ok {Num : Type} {N : NumOps Num} (hN : ZeroLaw N) {i : Instr} (hi : i.wellFormed = true)
    (hr : ∀ shape, i ≠ .reset shape) {p q : Pabli Num} (h : ruleOf N i p = .ok q) :
    LoopEffect N (RunCells 1024) p q := by
  have hs {k : Nat} (hk : k < 1024) {p q : Pabli Num} (h : SampleEffect N (SampleCells p k) p q) :
      LoopEffect N (RunCells 1024) p q :=
    (LoopEffect.of_sample h).mono fun _ ha =>
      (sample_buf ha).elim (fun h => .inl ⟨k, hk, .inr h⟩) .inr
  cases i with
  | nop =>
    injection h with h
    exact h ▸ LoopEffect.refl N _ p
  | reset shape => exact absurd rfl (hr shape)
  | run n =>
    have hn : n.toNat ≤ 1024 := of_decide_eq_true hi
    refine (runBlock_ok hN hn h).mono ?_
    rintro a (⟨k, hk, ha⟩ | ha)
    · exact .inl ⟨k, by omega, ha⟩
    · exact .inr ha
  | boot idx =>
    obtain ⟨_, _, _, _, rfl, _⟩ := bootRule_ok h
    exact ⟨rfl, fun _ => rfl, fun _ _ => rfl, id⟩
  | smooth cnt idx =>
    obtain ⟨_, _, rfl⟩ := smoothRule_ok h
    exact ⟨rfl, id, fun _ _ => rfl, id⟩
  | tick idx => exact (tickRule_ok hN (index_lt hi) h).mono fun _ ha => tick_run (index_lt hi) ha
  | adv =>
    obtain ⟨_, rfl⟩ := advRule_ok h
    exact ⟨rfl, id, fun _ _ => rfl, id⟩
  | dep =>
    refine (LoopEffect.of_mem (depRule_ok hN h).1).mono fun a ha => .inr ?_
    have := p.j.isLt
    have : Config.fillLen = 256 := rfl
    rw [ha]
    exact isBufAddr_bufAddr.2 (by omega)
  | rds idx => exact (rdsRule_ok hN (index_lt hi) h).2.2.mono fun _ ha => .inl ⟨_, index_lt hi, .inl ha⟩
  | rot => exact (rotRule_ok hN h).2.2.mono fun _ ha => .inr ha
  | ramp =>
    obtain ⟨_, _, rfl⟩ := rampRule_ok h
    exact ⟨rfl, id, fun _ _ => rfl, id⟩
  | coef =>
    obtain ⟨_, rfl⟩ := coefRule_ok h
    exact ⟨rfl, id, fun _ _ => rfl, id⟩
  | injs => exact (LoopEffect.of_mem (injectStep_ok hN h)).mono fun _ ha => .inr (pulse_buf (by decide) ha)
  | injl => exact (LoopEffect.of_mem (injectSlope_ok hN h)).mono fun _ ha => .inr (pulse_buf (by decide) ha)
  | dets idx => exact hs (index_lt hi) (detsRule_ok hN (index_lt hi) h)
  | detr idx => exact hs (index_lt hi) (detrRule_ok hN (index_lt hi) h)
  | dett idx => exact hs (index_lt hi) (dettRule_ok hN (index_lt hi) h)
  | syns idx => exact hs (index_lt hi) (synsRule_ok hN (index_lt hi) h)
  | synr idx => exact hs (index_lt hi) (synrRule_ok hN (index_lt hi) h)
  | synt idx => exact hs (index_lt hi) (syntRule_ok hN (index_lt hi) h)

end Sys2Proof.Machine
end

