-- ==== Sys2Proof/Laws/Encoding.lean ====
section
/-! SUPPORT. The fields of an encoded command word (R91): what the encoder puts where, and that a word is its three fields. -/

namespace Sys2Proof

theorem toNat_append_add {n m : Nat} (a : BitVec n) (b : BitVec m) :
    (a ++ b).toNat = a.toNat * 2 ^ m + b.toNat := by
  rw [BitVec.toNat_append, ← Nat.shiftLeft_add_eq_or_of_lt b.isLt, Nat.shiftLeft_eq]

theorem toNat_extract {n : Nat} (a : BitVec n) (s l : Nat) : (a.extractLsb' s l).toNat = a.toNat / 2 ^ s % 2 ^ l := by
  rw [BitVec.extractLsb'_toNat, Nat.shiftRight_eq_div_pow]

theorem opField_append (op : BitVec 8) (r : BitVec 24) : opField (op ++ r) = op := by
  apply BitVec.eq_of_toNat_eq
  have h1 := op.isLt
  have h2 := r.isLt
  simp only [opField, toNat_extract, toNat_append_add]
  omega

theorem cntField_append (op cnt : BitVec 8) (idx : BitVec 16) : cntField (op ++ (cnt ++ idx)) = cnt := by
  apply BitVec.eq_of_toNat_eq
  have h1 := op.isLt
  have h2 := cnt.isLt
  have h3 := idx.isLt
  simp only [cntField, toNat_extract, toNat_append_add]
  omega

theorem idxField_append (op cnt : BitVec 8) (idx : BitVec 16) : idxField (op ++ (cnt ++ idx)) = idx := by
  apply BitVec.eq_of_toNat_eq
  have h1 := op.isLt
  have h2 := cnt.isLt
  have h3 := idx.isLt
  simp only [idxField, toNat_extract, toNat_append_add]
  omega

/-- A word is its opcode, count and index fields. -/
theorem word_eq_fields (c : Word) : c = opField c ++ (cntField c ++ idxField c) := by
  apply BitVec.eq_of_toNat_eq
  have h := c.isLt
  simp only [opField, cntField, idxField, toNat_extract, toNat_append_add]
  omega

/-- A format-I word under a mask of the form `0xFFFF0000`. -/
theorem encodeI_and (op : BitVec 8) (idx : BitVec 16) (mask : Word)
    (hm : mask = (0xFF#8 ++ (0xFF#8 ++ 0x0000#16))) : encodeI op idx &&& mask = op ++ 0x000000#24 := by
  subst hm
  have h1 : op &&& 0xFF#8 = op := BitVec.and_allOnes
  have h2 : idx &&& 0x0000#16 = 0x0000#16 := BitVec.and_zero
  rw [encodeI, BitVec.and_append, BitVec.and_append, h1, h2]
  rfl

/-- A format-C word under the mask `0xFF000000`. -/
theorem encodeC_and (op cnt : BitVec 8) (idx : BitVec 16) (mask : Word)
    (hm : mask = (0xFF#8 ++ (0x00#8 ++ 0x0000#16))) : encodeC op cnt idx &&& mask = op ++ 0x000000#24 := by
  subst hm
  have h1 : op &&& 0xFF#8 = op := BitVec.and_allOnes
  have h2 : cnt &&& 0x00#8 = 0x00#8 := BitVec.and_zero
  have h3 : idx &&& 0x0000#16 = 0x0000#16 := BitVec.and_zero
  rw [encodeC, BitVec.and_append, BitVec.and_append, h1, h2, h3]
  rfl

end Sys2Proof
end

