-- ==== Sys2Proof/Laws/PerInstr.lean ====
section
/-! SUPPORT. The encoding of every instruction against the opcode map (R93) and the range check (R94), one lemma per
constructor. -/

namespace Sys2Proof.Laws.Encoding

open Sys2Proof Sys2Proof.Machine

/-- The instruction's word has a row's match bits under that row's mask, with the row's opcode, and its operands are in
range exactly when check 3 of R94 finds no failure in the word. -/
def Statement (i : Instr) : Prop :=
  (∃ row, row ∈ opcodeMap ∧ row.op = opField (encode i) ∧ encode i &&& row.mask = row.pattern) ∧
  i.wellFormed = !outOfRange (encode i)

/-- A format-I command of a sample index. -/
theorem ofIndex {i : Instr} {op : BitVec 8} {idx : BitVec 16} (he : encode i = encodeI op idx)
    (hrow : ⟨op, op ++ 0x000000#24, 0xFFFF0000⟩ ∈ opcodeMap) (hw : i.wellFormed = SampleIndex.ok idx)
    (hop : op ≠ 0x02 ∧ op ≠ 0x11 ∧ (op = 0x10 ∨ op = 0x12 ∨ op = 0x22 ∨ op = 0x40 ∨ op = 0x41 ∨ op = 0x42 ∨ op = 0x50 ∨
      op = 0x51 ∨ op = 0x52)) : Statement i := by
  have hf : opField (encodeI op idx) = op := opField_append op _
  have hx : idxField (encodeI op idx) = idx := idxField_append op 0 idx
  unfold Statement
  rw [he, hw, hf]
  refine ⟨⟨_, hrow, rfl, encodeI_and op idx 0xFFFF0000 rfl⟩, ?_⟩
  unfold opField at hf
  unfold idxField at hx
  simp only [outOfRange, hf, hx, hop.1, hop.2.1, hop.2.2, if_true, if_false, SampleIndex.ok, Config.nMax]
  by_cases h : idx.toNat ≤ 1023
  · simp [h]
  · simp [h]
    omega

theorem nop : Statement .nop := ⟨⟨⟨0x00, 0x00000000, 0xFFFFFFFF⟩, by decide⟩, by decide⟩
theorem reset (shape : Shape) : Statement (.reset shape) := by
  cases shape <;> exact ⟨⟨⟨0x01, 0x01000000, 0xFFFFFFFC⟩, by decide⟩, by decide⟩
theorem run (n : BitVec 16) : Statement (.run n) := by
  have hf : opField (encodeI 0x02 n) = 0x02 := opField_append 0x02 _
  have hx : idxField (encodeI 0x02 n) = n := idxField_append 0x02 0 n
  refine ⟨⟨⟨0x02, 0x02000000, 0xFFFF0000⟩, by decide, hf.symm, encodeI_and 0x02 n _ (by decide)⟩, ?_⟩
  unfold opField at hf
  unfold idxField at hx
  simp only [Instr.wellFormed, outOfRange, encode, hf, hx, if_true, BlockLength.ok, Config.nMax]
  by_cases h : n.toNat ≤ 1024
  · simp [h]
  · simp [h]
    omega
theorem boot (idx : BitVec 16) : Statement (.boot idx) := ofIndex rfl (by decide) rfl (by decide)
theorem smooth (cnt : BitVec 8) (idx : BitVec 16) : Statement (.smooth cnt idx) := by
  have hf : opField (encodeC 0x11 cnt idx) = 0x11 := opField_append 0x11 _
  have hc : cntField (encodeC 0x11 cnt idx) = cnt := cntField_append 0x11 cnt idx
  have hx : idxField (encodeC 0x11 cnt idx) = idx := idxField_append 0x11 cnt idx
  refine ⟨⟨⟨0x11, 0x11000000, 0xFF000000⟩, by decide, hf.symm, encodeC_and 0x11 cnt idx _ (by decide)⟩, ?_⟩
  unfold opField at hf
  unfold cntField at hc
  unfold idxField at hx
  have h0 : (0x11 : BitVec 8) ≠ 0x02 := by decide
  have hz : cnt = 0 ↔ cnt.toNat = 0 := by rw [← BitVec.toNat_inj]; rfl
  simp only [Instr.wellFormed, outOfRange, encode, hf, hc, hx, h0, if_true, if_false, ChunkLength.ok, SampleIndex.ok,
    Config.nMax, ne_eq, hz]
  by_cases h1 : cnt.toNat = 0
  · simp [h1]
  · by_cases h2 : idx.toNat ≤ 1023
    · simp [h1, h2]
    · simp [h1, h2]
      omega
theorem tick (idx : BitVec 16) : Statement (.tick idx) := ofIndex rfl (by decide) rfl (by decide)
theorem adv : Statement .adv := ⟨⟨⟨0x20, 0x20000000, 0xFFFFFFFF⟩, by decide⟩, by decide⟩
theorem dep : Statement .dep := ⟨⟨⟨0x21, 0x21000000, 0xFFFFFFFF⟩, by decide⟩, by decide⟩
theorem rds (idx : BitVec 16) : Statement (.rds idx) := ofIndex rfl (by decide) rfl (by decide)
theorem rot : Statement .rot := ⟨⟨⟨0x23, 0x23000000, 0xFFFFFFFF⟩, by decide⟩, by decide⟩
theorem ramp : Statement .ramp := ⟨⟨⟨0x24, 0x24000000, 0xFFFFFFFF⟩, by decide⟩, by decide⟩
theorem coef : Statement .coef := ⟨⟨⟨0x25, 0x25000000, 0xFFFFFFFF⟩, by decide⟩, by decide⟩
theorem injs : Statement .injs := ⟨⟨⟨0x30, 0x30000000, 0xFFFFFFFF⟩, by decide⟩, by decide⟩
theorem injl : Statement .injl := ⟨⟨⟨0x31, 0x31000000, 0xFFFFFFFF⟩, by decide⟩, by decide⟩
theorem dets (idx : BitVec 16) : Statement (.dets idx) := ofIndex rfl (by decide) rfl (by decide)
theorem detr (idx : BitVec 16) : Statement (.detr idx) := ofIndex rfl (by decide) rfl (by decide)
theorem dett (idx : BitVec 16) : Statement (.dett idx) := ofIndex rfl (by decide) rfl (by decide)
theorem syns (idx : BitVec 16) : Statement (.syns idx) := ofIndex rfl (by decide) rfl (by decide)
theorem synr (idx : BitVec 16) : Statement (.synr idx) := ofIndex rfl (by decide) rfl (by decide)
theorem synt (idx : BitVec 16) : Statement (.synt idx) := ofIndex rfl (by decide) rfl (by decide)

end Sys2Proof.Laws.Encoding
end

