-- ==== Sys2Proof/Laws/Ranges.lean ====
section
/-! SUPPORT. What R48 says of B32 and the rules give: the clamped targets lie in their interval (a), and a block keeps
the level of a rectangle (e) and the silent tail of the buffer (f). (d) is the type of `J`. -/

namespace Sys2Proof.Machine

variable {Num : Type} {N : NumOps Num}

/-! ## Clamped targets, R48 (a) under B32 -/

/-- `clamp` answers a word of its interval, under B32 (R10). -/
theorem b32_clamp_mem {x lo hi y : B32} (hlo : b32Value lo ≤ b32Value hi) (h : clamp b32Ops x lo hi = .ok y) :
    b32Value lo ≤ b32Value y ∧ b32Value y ≤ b32Value hi := by
  have lt_ok {u v : B32} {b : Bool} (h : b32Ops.lt u v = .ok b) : b = decide (b32Value u < b32Value v) := by
    change b32Both u v _ = _ at h
    unfold b32Both at h
    split at h
    · exact (Except.ok.inj h).symm
    · exact absurd h (by simp)
  obtain ⟨b, hb, h⟩ := bind_ok h
  have hb := lt_ok hb
  cases b
  · have h1 := not_lt.1 (of_decide_eq_false hb.symm)
    obtain ⟨c, hc, h⟩ := bind_ok h
    have hc := lt_ok hc
    cases c
    · obtain rfl := Except.ok.inj h
      exact ⟨h1, not_lt.1 (of_decide_eq_false hc.symm)⟩
    · obtain rfl := Except.ok.inj h
      exact ⟨hlo, le_refl _⟩
  · obtain rfl := Except.ok.inj h
    exact ⟨le_refl _, hlo⟩

/-- The increment that BOOT loads and SMOOTH ramps to lies between `WMIN` and `WMAX`, under B32 (R24, R48 (a)). -/
theorem b32_targetIncrement_mem {p : Pabli B32} {i : Nat} {t : B32} (h : targetIncrement b32Ops p i = .ok t) :
    b32Value b32Ops.wMin ≤ b32Value t ∧ b32Value t ≤ b32Value b32Ops.wMax := by
  obtain ⟨x, _, h⟩ := bind_ok h
  exact b32_clamp_mem (by decide +kernel) h

/-- Sixteen additions of one increment (R137). -/
def sixteenRamps (w dw : B32) : Except Refusal B32 :=
  (List.range 16).foldlM (fun x _ => b32Add x dw) w

/-- R48 (a) of a ramped `W` under B32 is no consequence of R8, R136 and R137 (log 19): from the increment
`0.5 - 121 * 2^-25`, which BOOT may load, SMOOTH to the target `WMAX` and the sixteen RAMPs of the chunk end above `WMAX`. -/
theorem b32_ramp_exceeds_wMax :
    (rampIncrement b32Ops b32Ops.wMax 0x3EFFFF87#32 16).toOption = some 0x34720000#32 ∧
    (sixteenRamps 0x3EFFFF87#32 0x34720000#32).toOption = some 0x3F000003#32 ∧
    b32Value b32Ops.wMax < b32Value 0x3F000003#32 := by decide +kernel

/-! ## The level of a rectangle, R48 (e) -/

/-- The ideal value is the level of the segment. -/
def AtLevel (N : NumOps Num) (p : Pabli Num) : Prop := p.lastv = if p.edge = .a then N.half else N.negHalf

theorem AtLevel.congr {p q : Pabli Num} (h : AtLevel N p) (he : q.edge = p.edge) (hv : q.lastv = p.lastv) :
    AtLevel N q := by
  unfold AtLevel
  rw [he, hv]
  exact h

theorem rectFall_level {p q : Pabli Num} {phi : Num} (h : rectFall N phi p = .ok q) : AtLevel N q := by
  obtain ⟨r, _, h⟩ := bind_ok h
  obtain rfl := Except.ok.inj h
  rfl

theorem rectRise_level {p q : Pabli Num} {phi : Num} (h : rectRise N phi p = .ok q) : AtLevel N q := by
  obtain ⟨r, _, h⟩ := bind_ok h
  obtain rfl := Except.ok.inj h
  rfl

theorem rectFallTest_level {p q : Pabli Num} (hp : AtLevel N p) (h : rectFallTest N p = .ok q) : AtLevel N q := by
  obtain ⟨b, _, h⟩ := bind_ok h
  cases b
  · obtain rfl := Except.ok.inj h
    exact hp
  · obtain ⟨phi, _, h⟩ := bind_ok h
    exact rectFall_level h

theorem rectWrapTest_level {p q : Pabli Num} {so : Num} (hp : AtLevel N p) (h : rectWrapTest N p = .ok (so, q)) :
    AtLevel N q := by
  obtain ⟨b, _, h⟩ := bind_ok h
  cases b
  · obtain ⟨-, rfl⟩ := Prod.mk.inj (Except.ok.inj h)
    exact hp
  · obtain ⟨phase, _, h⟩ := bind_ok h
    obtain ⟨so', _, h⟩ := bind_ok h
    obtain ⟨r, hr, h⟩ := bind_ok h
    obtain ⟨-, rfl⟩ := Prod.mk.inj (Except.ok.inj h)
    exact rectRise_level hr

theorem emitSync_level {p : Pabli Num} {i : Nat} {so : Num} (hp : AtLevel N p) : AtLevel N (emitSync N p i so) :=
  hp.congr rfl rfl

/-- `DETR` (R163). -/
theorem detrRule_level {p q : Pabli Num} {i : Nat} (hp : AtLevel N p) (h : detrRule N i p = .ok q) : AtLevel N q := by
  unfold detrRule at h
  split at h
  · obtain ⟨r, hr, h⟩ := bind_ok h
    obtain ⟨⟨so, t⟩, ht, h⟩ := bind_ok h
    obtain rfl := Except.ok.inj h
    exact emitSync_level (rectWrapTest_level (rectFallTest_level hp hr) ht)
  · obtain ⟨⟨so, r⟩, hr, h⟩ := bind_ok h
    have hl := rectWrapTest_level hp hr
    simp only at h
    split at h
    · obtain ⟨t, ht, h⟩ := bind_ok h
      obtain rfl := Except.ok.inj h
      exact emitSync_level (rectFallTest_level hl ht)
    · obtain rfl := Except.ok.inj h
      exact emitSync_level hl

theorem rectCatchFall_level {eof par : Num} {p q : Pabli Num} (hp : AtLevel N p)
    (h : rectCatchFall N eof par p = .ok q) : AtLevel N q := by
  obtain ⟨b, _, h⟩ := bind_ok h
  cases b
  · obtain rfl := Except.ok.inj h
    exact hp
  · obtain ⟨d, _, h⟩ := bind_ok h
    obtain ⟨phi, _, h⟩ := bind_ok h
    exact rectFall_level h

theorem rectCatchWrap_level {eof par x : Num} {p q : Pabli Num} (hp : AtLevel N p)
    (h : rectCatchWrap N eof par p = .ok (x, q)) : AtLevel N q := by
  obtain ⟨b, _, h⟩ := bind_ok h
  cases b
  · obtain ⟨-, rfl⟩ := Prod.mk.inj (Except.ok.inj h)
    exact hp
  · obtain ⟨par', _, h⟩ := bind_ok h
    obtain ⟨phi, _, h⟩ := bind_ok h
    obtain ⟨r, hr, h⟩ := bind_ok h
    obtain ⟨-, rfl⟩ := Prod.mk.inj (Except.ok.inj h)
    exact rectRise_level hr

theorem rectCatchUp_level {eof par : Num} {p q : Pabli Num} (hp : AtLevel N p)
    (h : rectCatchUp N eof par p = .ok q) : AtLevel N q := by
  unfold rectCatchUp at h
  split at h
  · obtain ⟨r, hr, h⟩ := bind_ok h
    obtain ⟨⟨x, t⟩, ht, h⟩ := bind_ok h
    obtain rfl := Except.ok.inj h
    exact rectCatchWrap_level (rectCatchFall_level hp hr) ht
  · obtain ⟨⟨x, r⟩, hr, h⟩ := bind_ok h
    have hl := rectCatchWrap_level hp hr
    simp only at h
    split at h
    · exact rectCatchFall_level hl h
    · obtain rfl := Except.ok.inj h
      exact hl

/-- `SYNR` (R183). -/
theorem synrRule_level {p q : Pabli Num} {i : Nat} (hp : AtLevel N p) (h : synrRule N i p = .ok q) : AtLevel N q := by
  obtain ⟨y, _, h⟩ := bind_ok h
  obtain ⟨r, hr, h⟩ := bind_ok h
  obtain ⟨t, ht, h⟩ := bind_ok h
  obtain ⟨u, hu, h⟩ := bind_ok h
  obtain rfl := Except.ok.inj h
  have h0 : AtLevel N { p with phase := y.eof } := hp
  have hl : AtLevel N r := rectCatchUp_level h0 hr
  refine emitSync_level (rectFallTest_level ?_ hu)
  unfold rectResetRise at ht
  split at ht
  · obtain rfl := Except.ok.inj ht
    exact hl
  · exact rectRise_level ht

theorem handleRule_level {p q : Pabli Num} {i : Nat} (hs : p.shape = .rect) (hp : AtLevel N p)
    (h : handleRule N i p = .ok q) : AtLevel N q := by
  obtain ⟨b, _, h⟩ := bind_ok h
  cases b
  · simp only [Bool.false_eq_true, if_false, detectRule, hs] at h
    exact detrRule_level hp h
  · simp only [if_true, syncRule, hs] at h
    exact synrRule_level hp h

/-! ## The silent tail, R48 (f), and both through a block -/

theorem rotRule_tail (hN : ZeroLaw N) {p q : Pabli Num} (h : rotRule N p = .ok q)
    (ht : ∀ k, p.j.val + 71 < k → k < 328 → bufRead N p k = N.zero) :
    ∀ k, q.j.val + 71 < k → k < 328 → bufRead N q k = N.zero := by
  unfold rotRule at h
  split at h
  · obtain rfl := Except.ok.inj h
    exact fun k h1 h2 => ht k (by simp only at h1; omega) h2
  · obtain ⟨h1, -, -, h4⟩ := foldBuffer_ok hN h
    intro k hk hk2
    rw [h1] at hk
    exact h4 k (by simp at hk; omega) hk2

/-- One sample keeps the level and the tail. -/
theorem tickRule_levelTail (hN : ZeroLaw N) {p q : Pabli Num} {i : Nat} (hi : i < 1024) (hp : LevelTail N p)
    (h : tickRule N i p = .ok q) : LevelTail N q := by
  have hinit : q.init = p.init := (tickRule_registers hN hi h).2.2.2.2.2.2.2
  have hshape : q.shape = p.shape := (tickRule_ok hN hi h).shape
  obtain ⟨p1, h1, h⟩ := bind_ok h
  obtain ⟨p2, h2, h⟩ := bind_ok h
  obtain ⟨p3, h3, h⟩ := bind_ok h
  obtain ⟨p4, h4, h⟩ := bind_ok h
  obtain ⟨p5, h5, h6⟩ := bind_ok h
  obtain ⟨w, d, e1⟩ := rampRule_ok h1
  obtain ⟨x, e2⟩ := advRule_ok h2
  have e3 := handleRule_ok hN hi h3
  obtain ⟨e4, -⟩ := depRule_ok hN h4
  obtain ⟨e5, -, e5'⟩ := rdsRule_ok hN hi h5
  obtain ⟨e6, -, -⟩ := rotRule_ok hN h6
  refine ⟨fun hq hs => ?_, rotRule_tail hN h6 fun k hk hk2 => ?_⟩
  · rw [hshape] at hs
    have h0 : AtLevel N p := hp.level (hinit ▸ hq) hs
    have hl := handleRule_level (by rw [e2, e1]; exact hs) (h0.congr (by rw [e2, e1]) (by rw [e2, e1])) h3
    exact hl.congr (by rw [e6, e5, e4.only]) (by rw [e6, e5, e4.only])
  · have j2 : p2.j = p.j := by rw [e2, e1]
    have j3 : p3.j = p.j := by rw [e3.only]; exact j2
    have j4 : p4.j = p.j := by rw [e4.only]; exact j3
    have j5 : p5.j = p.j := by rw [e5]; exact j4
    have hj := p.j.isLt
    have hf : Config.fillLen = 256 := rfl
    rw [j5] at hk
    rw [show bufRead N p5 k = bufRead N p4 k from
          e5'.kept _ (by simp [bufAddr, wordAddr, regionBase]; omega),
      show bufRead N p4 k = bufRead N p3 k from e4.kept _ (by simp; rw [j3]; omega),
      show bufRead N p3 k = bufRead N p2 k from e3.kept _ ?_,
      show bufRead N p2 k = bufRead N p k from readWord_congr N (by rw [e2, e1]) (by rw [e2, e1]) _]
    · exact hp.tail k hk hk2
    · rintro (h | ⟨k', hk', h⟩)
      · simp [bufAddr, wordAddr, regionBase] at h
        omega
      · simp [j2] at h
        omega

theorem tickRange_levelTail (hN : ZeroLaw N) {p q : Pabli Num} {first count : Nat} (hf : first + count ≤ 1024)
    (hp : LevelTail N p) (h : tickRange N first p count = .ok q) : LevelTail N q := by
  induction count generalizing q with
  | zero =>
    obtain rfl := Except.ok.inj h
    exact hp
  | succ n ih =>
    obtain ⟨r, hr, h⟩ := bind_ok h
    exact tickRule_levelTail hN (by omega) (ih (by omega) hr) h

theorem chunksFrom_levelTail (hN : ZeroLaw N) {p q : Pabli Num} {rounds base left : Nat} (hf : base + left ≤ 1024)
    (hp : LevelTail N p) (h : chunksFrom N rounds base left p = .ok q) : LevelTail N q := by
  induction rounds generalizing base left p with
  | zero =>
    obtain rfl := Except.ok.inj h
    exact hp
  | succ n ih =>
    unfold chunksFrom at h
    split at h
    · obtain rfl := Except.ok.inj h
      exact hp
    · obtain ⟨r, hr, h⟩ := bind_ok h
      obtain ⟨s, hs, hr⟩ := bind_ok hr
      obtain ⟨dw, db, rfl⟩ := smoothRule_ok hs
      have h0 : LevelTail N { p with dw := dw, db := db } := ⟨hp.level, hp.tail⟩
      exact ih (by omega) (tickRange_levelTail hN (by omega) h0 hr) h

/-- BOOT puts a rectangle at its level (R135). -/
theorem bootRule_level {p q : Pabli Num} {i : Nat} (hs : p.shape = .rect) (h : bootRule N i p = .ok q) : AtLevel N q := by
  obtain ⟨w, _, h⟩ := bind_ok h
  obtain ⟨r, hr, h⟩ := bind_ok h
  obtain rfl := Except.ok.inj h
  simp only [bootShape, hs] at hr
  obtain ⟨d, _, hr⟩ := bind_ok hr
  obtain rfl := Except.ok.inj hr
  rfl

/-- A block keeps R48 (e) and (f), in any configuration (R132). -/
theorem runBlock_levelTail (hN : ZeroLaw N) {p q : Pabli Num} {n : Nat} (hn : n ≤ 1024) (hp : LevelTail N p)
    (h : runBlock N n p = .ok q) : LevelTail N q := by
  unfold runBlock at h
  split at h
  · obtain rfl := Except.ok.inj h
    exact hp
  · obtain ⟨p1, h1, h⟩ := bind_ok h
    obtain ⟨p2, h2, h⟩ := bind_ok h
    have hp1 : LevelTail N p1 := by
      obtain ⟨a, rfl⟩ := coefRule_ok h1
      exact ⟨hp.level, hp.tail⟩
    have hp2 : LevelTail N p2 := by
      unfold bootIfNeeded at h2
      split at h2
      · obtain rfl := Except.ok.inj h2
        exact hp1
      · obtain ⟨phase, w, duty, lastv, hq, -⟩ := bootRule_ok h2
        refine ⟨fun _ hs => bootRule_level (by rw [hq] at hs; exact hs) h2, fun k hk hk2 => ?_⟩
        rw [hq] at hk
        exact (readWord_congr N (by rw [hq]) (by rw [hq]) _).trans (hp1.tail k hk hk2)
    exact chunksFrom_levelTail hN (by omega) hp2 h

end Sys2Proof.Machine
end

