-- ==== Sys2Proof/Tests/Slice0.lean ====
section
/-! SUPPORT. Tests: ill-formed commands, command words written out from the encoding tables, single steps with the expected
values of 95_test_vectors.md, and for every statement with hypotheses a concrete instance that meets them. -/

namespace Sys2Proof.Tests

open Sys2Proof Sys2Proof.Machine

-- one test after another: each thread that waits for another reserves memory of its own
set_option Elab.async false

/-! ## Small states -/

/-- An EXACT core after reset. -/
def exactCore : Pabli Rat := resetPabli Rat 0 1

/-- A B32 core after reset. -/
def b32Core : Pabli B32 := resetPabli B32 0x00000000#32 0x3F800000#32

/-- `T_RAMP` (95, section 0), the step entries of one masked phase. -/
def stepRamp (i : Nat) : Memory Rat :=
  (List.range 72).flatMap fun k =>
    [(stepValueAddr (i + 64 * k), ((i + 64 * k : Nat) : Rat) / 8192), (stepDeltaAddr (i + 64 * k), 1 / 8192)]

/-- `T_RAMP`, the slope entries of one masked phase. -/
def slopeRamp (i : Nat) : Memory Rat :=
  (List.range 71).flatMap fun k =>
    [(slopeAddr (i + 64 * k), ((i + 64 * k : Nat) : Rat) / 8192),
     (slopeAddr (i + 64 * k + 1), ((i + 64 * k + 1 : Nat) : Rat) / 8192)]

/-- A core with `W = 1/8` and the given words listed (95, section 2). -/
def bench (mem : Memory Rat) : Pabli Rat := { exactCore with w := 1 / 8, mem := mem }

/-- The EXACT next state of an outcome. -/
def exactOf : Host.Outcome State Fault Refusal → Option (Pabli Rat)
  | .next ⟨.exact p⟩ => some p
  | _ => none

/-- The B32 next state of an outcome. -/
def b32Of : Host.Outcome State Fault Refusal → Option (Pabli B32)
  | .next ⟨.b32 p⟩ => some p
  | _ => none

/-- The refusal of an outcome. -/
def refusalOf : Host.Outcome State Fault Refusal → Option Refusal
  | .refused r => some r
  | _ => none

/-- Cells 0, 1, 70, 71 ahead of cursor 0, as the vectors list them. -/
def cells (p : Pabli Rat) : List Rat := [0, 1, 70, 71].map (bufRead exactOps p)

/-- What a detector vector lists: `PHASE`, `EDGE`, `LASTV`, `SYNC_OUT[0]`, cells. -/
def sampleOf (o : Host.Outcome State Fault Refusal) : Option (Rat × Edge × Rat × Rat × List Rat) :=
  (exactOf o).map fun p => (p.phase, p.edge, p.lastv, readWord exactOps p 0x5000, cells p)

/-- `STATUS` after one step on a B32 core that takes the host move. -/
def statusAfter (move : HostMove B32) : Option Word := (b32Of (step (b32State (asked move b32Core)))).map statusWord

/-- Has a computation this answer? -/
def answersWith {α : Type} [DecidableEq α] (r : Except Refusal α) (a : α) : Bool :=
  match r with
  | .ok b => decide (b = a)
  | .error _ => false

/-- Has a computation an answer? -/
def answers {α : Type} : Except Refusal α → Bool
  | .ok _ => true
  | .error _ => false

/-! ## Ill-formed commands (R92, R94 check 3) -/

theorem test_wellFormed_run : (Instr.run 1024).wellFormed = true ∧ (Instr.run 1025).wellFormed = false := by decide
theorem test_wellFormed_boot : (Instr.boot 1023).wellFormed = true ∧ (Instr.boot 1024).wellFormed = false := by decide
theorem test_wellFormed_smooth :
    (Instr.smooth 1 1023).wellFormed = true ∧ (Instr.smooth 0 5).wellFormed = false ∧
      (Instr.smooth 255 1024).wellFormed = false := by decide
theorem test_wellFormed_tick : (Instr.tick 1024).wellFormed = false := by decide
theorem test_wellFormed_rds : (Instr.rds 1024).wellFormed = false := by decide
theorem test_wellFormed_detectors :
    (Instr.dets 1024).wellFormed = false ∧ (Instr.detr 1024).wellFormed = false ∧
      (Instr.dett 65535).wellFormed = false := by decide
theorem test_wellFormed_syncs :
    (Instr.syns 1024).wellFormed = false ∧ (Instr.synr 1024).wellFormed = false ∧
      (Instr.synt 65535).wellFormed = false := by decide

/-! ## Command words, written out from R91 and R93: opcode, `cnt` or reserved bits, `idx` -/

theorem test_decode_nop : decodeTableWord 32 0b00000000_00000000_00000000_00000000 = some .nop := by decide
theorem test_decode_reset : decodeTableWord 32 0b00000001_00000000_00000000_00000001 = some (.reset .rect) := by decide
theorem test_decode_run : decodeTableWord 32 0b00000010_00000000_00000100_00000000 = some (.run 1024) := by decide
theorem test_decode_boot : decodeTableWord 32 0b00010000_00000000_00000000_00000101 = some (.boot 5) := by decide
theorem test_decode_smooth : decodeTableWord 32 0b00010001_00010000_00000000_00001111 = some (.smooth 16 15) := by decide
theorem test_decode_tick : decodeTableWord 32 0b00010010_00000000_00000011_11111111 = some (.tick 1023) := by decide
theorem test_decode_adv : decodeTableWord 32 0b00100000_00000000_00000000_00000000 = some .adv := by decide
theorem test_decode_dep : decodeTableWord 32 0b00100001_00000000_00000000_00000000 = some .dep := by decide
theorem test_decode_rds : decodeTableWord 32 0b00100010_00000000_00000000_00001001 = some (.rds 9) := by decide
theorem test_decode_rot : decodeTableWord 32 0b00100011_00000000_00000000_00000000 = some .rot := by decide
theorem test_decode_ramp : decodeTableWord 32 0b00100100_00000000_00000000_00000000 = some .ramp := by decide
theorem test_decode_coef : decodeTableWord 32 0b00100101_00000000_00000000_00000000 = some .coef := by decide
theorem test_decode_injs : decodeTableWord 32 0b00110000_00000000_00000000_00000000 = some .injs := by decide
theorem test_decode_injl : decodeTableWord 32 0b00110001_00000000_00000000_00000000 = some .injl := by decide
theorem test_decode_dets : decodeTableWord 32 0b01000000_00000000_00000000_00000001 = some (.dets 1) := by decide
theorem test_decode_detr : decodeTableWord 32 0b01000001_00000000_00000000_00000010 = some (.detr 2) := by decide
theorem test_decode_dett : decodeTableWord 32 0b01000010_00000000_00000000_00000011 = some (.dett 3) := by decide
theorem test_decode_syns : decodeTableWord 32 0b01010000_00000000_00000001_00000000 = some (.syns 256) := by decide
theorem test_decode_synr : decodeTableWord 32 0b01010001_00000000_00000000_00000111 = some (.synr 7) := by decide
theorem test_decode_synt : decodeTableWord 32 0b01010010_00000000_00000010_00000000 = some (.synt 512) := by decide

/-- V9.1, V9.2, V9.3, V9.8, V9.9, V9.12, V9.13: words that check 1 or check 2 of R94 refuses. -/
theorem test_decode_refused :
    [0xFF00FFFF, 0x03000000, 0x0201FFFF, 0x01000003, 0x01000004, 0x30000001, 0x00000001].map (decodeTableWord 32)
      = [none, none, none, none, none, none, none] := by decide

/-- Assembler text (R97). -/
theorem test_asm : asm (.smooth 16 15) = "SMOOTH 16, 15" ∧ asm (.reset .tri) = "RESET TRI" ∧ asm (.run 40) = "RUN 40" := by
  decide

/-! ## Block level -/

/-- V4.9. -/
theorem test_nop : (b32Of (step (b32State (commanded 0x00000000#32 b32Core)))) = some b32Core := by decide +kernel

/-- V4.10: the shape, the oscillator state, and what is kept. -/
theorem test_reset :
    (exactOf (exec (.reset .rect) (exactState
      { bench [(bufAddr 100, 3)] with fsamp := 48000, err := true, errcode := 3, init := true }))).map
      (fun p => (p.shape, p.w, p.init, bufRead exactOps p 100, p.fsamp, statusWord p))
      = some (.rect, 0, false, 0, 48000, 0x00000132#32) := by decide +kernel

/-- V9.14: `RUN 0` writes nothing. -/
theorem test_run_zero : exactOf (exec (.run 0) (exactState (bench []))) = some (bench []) := by decide +kernel

/-- P1, its first sample: COEF, BOOT 0, SMOOTH, TICK 0. -/
theorem test_run_one :
    (exactOf (exec (.run 1) (exactState
      { exactCore with freqConn := true, fsamp := 48000, lowpass := 1, mem := [(0x1000, 6000), (0x2000, 0)] }))).map
      (fun p => [p.w, p.phase, p.lastv, p.a, p.z, readWord exactOps p 0x4000, readWord exactOps p 0x5000, p.j.val])
      = some [1 / 8, 5 / 8, -1 / 8, 1, 0, 0, 0, 1] := by decide +kernel

/-! ## Control loop -/

/-- V3.2 under EXACT and V3.2, V3.3 under B32. -/
theorem test_coef :
    (exactOf (exec .coef (exactState { exactCore with lowpass := 1 / 2 }))).map Pabli.a = some (3 / 5) ∧
    (b32Of (exec .coef (b32State { b32Core with lowpass := 0x3F000000#32 }))).map Pabli.a = some 0x3F19999A#32 ∧
    (b32Of (exec .coef (b32State { b32Core with lowpass := 0x3F800000#32 }))).map Pabli.a = some 0x3F800000#32 := by
  decide +kernel

/-- V3.8: the duty is clamped up to `W`; V3.13: clamped down to `1 - W`. -/
theorem test_boot :
    (exactOf (exec (.boot 0) (exactState { exactCore with
        shape := .rect, freqConn := true, fsamp := 48000, mem := [(0x1000, 6000), (0x3000, 1 / 16)] }))).map
      (fun p => (p.w, p.duty, p.phase, p.edge, p.lastv, p.init)) = some (1 / 8, 1 / 8, 0, .a, 1 / 2, true) ∧
    (exactOf (exec (.boot 0) (exactState { exactCore with
        shape := .tri, freqConn := true, fsamp := 48000, mem := [(0x1000, 6000), (0x3000, 31 / 32)] }))).map
      (fun p => (p.w, p.duty, p.phase, p.lastv)) = some (1 / 8, 7 / 8, 7 / 16, 0) := by decide +kernel

/-- V3.5 under B32: the smallest increment; V3.15: an unconnected input. -/
theorem test_boot_frequency :
    (b32Of (exec (.boot 0) (b32State { b32Core with
        freqConn := true, fsamp := 0x473B8000#32, mem := [(0x1000, 0x00000000#32)] }))).map
      (fun p => (p.w, p.phase)) = some (0x3727C5AC#32, 0x3F000000#32) ∧
    (exactOf (exec (.boot 5) (exactState { exactCore with fsamp := 48000, deffreq := 12000 }))).map Pabli.w
      = some (1 / 4) := by decide +kernel

/-- V4.1 and V4.3. -/
theorem test_smooth :
    (exactOf (exec (.smooth 16 15) (exactState { bench [(0x103C, 12000), (0x303C, 1 / 8)] with
        shape := .rect, freqConn := true, fsamp := 48000, duty := 1 / 4 }))).map
      (fun p => (p.dw, p.db, p.w, p.duty)) = some (1 / 128, 0, 1 / 8, 1 / 4) ∧
    (exactOf (exec (.smooth 4 3) (exactState { bench [(0x100C, 3000)] with
        freqConn := true, fsamp := 48000, db := 1 / 2, duty := 1 / 4 }))).map
      (fun p => (p.dw, p.db, p.duty)) = some (-1 / 64, 0, 1 / 4) := by decide +kernel

/-- V4.2. -/
theorem test_ramp :
    (exactOf (exec .ramp (exactState { bench [] with dw := 1 / 128, duty := 1 / 4 }))).map (fun p => (p.w, p.duty))
      = some (17 / 128, 1 / 4) := by decide +kernel

/-- By hand from R8 and R137 (log 19): `W = 0.5 - 2^-25`, `DW = 121 * 2^-29`; the sum `0.5 + 6.5625 * 2^-25` lies between
words `2 * 2^-25` apart and rounds to `0.5 + 6 * 2^-25`, above `WMAX`. -/
theorem test_ramp_rounds :
    (b32Of (exec .ramp (b32State { b32Core with w := 0x3EFFFFFF#32, dw := 0x34720000#32 }))).map Pabli.w
      = some 0x3F000003#32 := by decide +kernel

/-- V4.4, in both configurations: no wrap. -/
theorem test_adv :
    (exactOf (exec .adv (exactState { bench [] with phase := 15 / 16 }))).map Pabli.phase = some (17 / 16) ∧
    (b32Of (exec .adv (b32State { b32Core with phase := 0x3F700000#32, w := 0x3E000000#32 }))).map Pabli.phase
      = some 0x3F880000#32 := by decide +kernel

/-- V4.5. -/
theorem test_dep :
    (exactOf (exec .dep (exactState { bench [(bufAddr 259, 1 / 4)] with j := 255, lastv := -1 / 2 }))).map
      (fun p => bufRead exactOps p 259) = some (-1 / 4) := by decide +kernel

/-- V4.6. -/
theorem test_rds :
    (exactOf (exec (.rds 9) (exactState { bench [(bufAddr 7, 1)] with j := 7, a := 1 / 2, z := 1 / 4 }))).map
      (fun p => (p.z, readWord exactOps p 0x4024, bufRead exactOps p 7, p.j)) = some (5 / 8, 5 / 8, 1, 7) := by
  decide +kernel

/-- V4.7: no fold. -/
theorem test_rot :
    (exactOf (exec .rot (exactState { bench [(bufAddr 256, 1)] with j := 254 }))).map
      (fun p => (p.j, bufRead exactOps p 256)) = some (255, 1) := by decide +kernel

/-- V4.8: the fold, and its memory in canonical form. -/
theorem test_rot_fold :
    (exactOf (exec .rot (exactState
      { bench [(bufAddr 100, 3), (bufAddr 255, 4), (bufAddr 256, 1), (bufAddr 300, 2), (bufAddr 327, 5)] with j := 255 }))).map
      (fun p => (p.j, p.mem)) = some (0, [(bufAddr 0, 1), (bufAddr 44, 2), (bufAddr 71, 5)]) := by decide +kernel

/-- P1, sample 3: the wrap. -/
theorem test_tick :
    (exactOf (exec (.tick 3) (exactState { bench ((0x200C, 0) :: stepRamp 0) with
        phase := 7 / 8, lastv := -3 / 8, j := 3, a := 1 }))).map
      (fun p => (p.phase, p.lastv, p.j, readWord exactOps p 0x500C, readWord exactOps p 0x400C, bufRead exactOps p 4))
      = some (0, 1 / 2, 4, Config.eps, 0, 1 / 128) := by decide +kernel

/-! ## Injector -/

/-- V1.2: a tie of `rne`, and interpolation half way. -/
theorem test_injs :
    (exactOf (exec .injs (exactState { bench (stepRamp 2) with opa := 5 / 1024, opb := 1 }))).map cells
      = some [5 / 16384, 133 / 16384, 8965 / 16384, 9093 / 16384] := by decide +kernel

/-- V1.7: the mask case of a negative offset. -/
theorem test_index_mask : answersWith (tableIndex exactOps (-1 / 512) (1 / 8)) ⟨1, 62⟩ = true := by decide +kernel

/-- V2.2: `ms = 1`, and the cell `J + 71` is not touched. -/
theorem test_injl :
    (exactOf (exec .injl (exactState { bench (slopeRamp 2) with opa := 5 / 1024, opb := 8 }))).map cells
      = some [5 / 16384, 133 / 16384, 8965 / 16384, 0] := by decide +kernel

/-! ## Detectors -/

/-- V5.3. -/
theorem test_dets :
    sampleOf (exec (.dets 0) (exactState { bench (stepRamp 16) with phase := 33 / 32 }))
      = some (1 / 32, .a, 15 / 32, 1 / 4 + Config.eps, [1 / 512, 5 / 512, 281 / 512, 285 / 512]) := by decide +kernel

/-- V6.3: `PHASE >= DUTY` is inclusive. -/
theorem test_detr :
    sampleOf (exec (.detr 0) (exactState { bench (stepRamp 0) with phase := 1 / 4, duty := 1 / 4, lastv := 1 / 2 }))
      = some (1 / 4, .b, -1 / 2, 0, [0, -1 / 128, -35 / 64, -71 / 128]) := by decide +kernel

/-- V7.8. -/
theorem test_dett :
    sampleOf (exec (.dett 0) (exactState { bench (slopeRamp 16) with phase := 9 / 32, duty := 1 / 4 }))
      = some (9 / 32, .b, 11 / 24, 0, [-1 / 768, -5 / 768, -281 / 768, 0]) := by decide +kernel

/-! ## Hard sync -/

/-- V8.1: the jump. -/
theorem test_syns :
    sampleOf (exec (.syns 0) (exactState { bench ((0x2000, Config.eps + 1 / 2) :: stepRamp 32) with phase := 3 / 4 }))
      = some (1 / 16, .a, 7 / 16, Config.eps + 1 / 2, [11 / 4096, 33 / 4096, 1551 / 4096, 1573 / 4096]) := by decide +kernel

/-- V8.6: the reset pass rises. -/
theorem test_synr :
    sampleOf (exec (.synr 0) (exactState { bench ((0x2000, Config.eps + 1 / 2) :: stepRamp 32) with
        phase := 3 / 4, edge := .b, duty := 1 / 4, lastv := -1 / 2 }))
      = some (1 / 16, .a, 1 / 2, Config.eps + 1 / 2, [1 / 256, 3 / 256, 141 / 256, 143 / 256]) := by decide +kernel

/-- V8.9: the jump from the old cycle's value. -/
theorem test_synt :
    sampleOf (exec (.synt 0) (exactState { bench ((0x2000, Config.eps + 1 / 2) :: stepRamp 32) with
        phase := 5 / 16, duty := 1 / 2 }))
      = some (1 / 16, .a, -3 / 8, Config.eps + 1 / 2, [-1 / 512, -3 / 512, -141 / 512, -143 / 512]) := by decide +kernel

/-! ## Bus -/

/-- V10.3, V10.4, V10.5, V10.6, V10.7, V10.9, V10.11: `STATUS` after a refused access. -/
theorem test_bus_refused :
    [.read 0x0E 4, .read 0x0C 2, .write 0x10000 4 (.word 0), .read 0x48 4, .write 0x40 4 (.word 256),
      .write 0x08 4 (.word 2), .write 0x44 4 (.word 4)].map statusAfter
      = [some 0x52, some 0x52, some 0x52, some 0x52, some 0x42, some 0x42, some 0x42] := by decide +kernel

/-- V9.1, V9.3, V9.4, V9.6, V9.7, V9.8, V9.10, V9.11: `STATUS` after a refused command. -/
theorem test_command_refused :
    [0xFF00FFFF, 0x0201FFFF, 0x0200FFFF, 0x02000401, 0x12000400, 0x01000003, 0x11000005, 0x1100FFFF].map
        (fun w => statusAfter (cmdMove w))
      = [some 0x12, some 0x22, some 0x32, some 0x32, some 0x32, some 0x22, some 0x32, some 0x32] := by decide +kernel

/-- V10.8, V10.10, V10.12, V10.14. -/
theorem test_bus_written :
    (b32Of (step (b32State (asked (.write 0x40 4 (.word 255)) b32Core)))).map Pabli.j = some 255 ∧
    (b32Of (step (b32State (asked (.write 0x44 4 (.word 3)) b32Core)))).map flagsWord = some 3 ∧
    (b32Of (step (b32State (asked (.write 0x04 4 (.word 0x300)) b32Core)))) = some b32Core ∧
    (b32Of (step (b32State (asked (.write 0xD1C 4 (.word 0x3F800000)) b32Core)))).map Pabli.mem
      = some [(bufAddr 327, 0x3F800000#32)] := by decide +kernel

/-- V10.13, after hardware reset. -/
theorem test_reset_reads :
    [0x04, 0x0C, 0x44, 0x800].map
        (fun addr => (b32Of (step (b32State (asked (.read addr 4) b32Core)))).map Pabli.lastRead)
      = [some (some (.word 0)), some (some (.word 0x3F800000)), some (some (.word 0)), some (some (.word 0))] := by
  decide +kernel

/-- A command placed for the next step is fetched and runs: V4.4 through `withFetchWord`. -/
theorem test_fetch :
    (exactOf (step ((exactState { bench [] with phase := 15 / 16 }).withFetchWord 32 0x20000000))).map Pabli.phase
      = some (17 / 16) := by decide +kernel

/-! ## Instances that meet the hypotheses of the statements -/

theorem test_witness_EncodeOfDecode : decodeTableWord 32 0x110103FF = some (.smooth 1 1023) := by decide

/-- Every outcome of the checks occurs, at the boundaries of V9, and a core after reset is idle. -/
theorem test_witness_CommandChecksInOrder :
    [0x03000000, 0x0201FFFF, 0x02000401, 0x02000400].map firstFailure
      = [some .illegalOpcode, some .reservedField, some .range, none] ∧
    exactCore.busy = false ∧ b32Core.busy = false := by decide +kernel

theorem test_witness_StepRunsDecoded : b32Core.busy = false ∧ decode 0x20000000#32 = .ok .adv := ⟨rfl, rfl⟩

theorem test_witness_IllFormedRaisesRange :
    [Instr.run 1025, .smooth 0 0, .boot 1024, .synt 0xFFFF].map Instr.wellFormed = [false, false, false, false] := by decide

theorem test_witness_IdleCoreWaits : exactCore.host = [] ∧ b32Core.host = [] := ⟨rfl, rfl⟩

theorem test_witness_MisalignedAccessRefused :
    (0x01 : BitVec 18).toNat % 4 ≠ 0 ∧ (0x3FFFF : BitVec 18).toNat % 4 ≠ 0 ∧ (2 : Nat) ≠ 4 ∧ b32Core.busy = false := by decide

/-- The first and the last word of each hole of R67; their neighbours are mapped. -/
theorem test_witness_UnmappedAccessRefused :
    [0x48, 0xFC, 0x100, 0x7FC, 0xD20, 0xFFC, 0x6000, 0xFFFC, 0x19000, 0x1FFFC, 0x24704, 0x3FFFC].map locate
      = List.replicate 12 none ∧
    [0x44, 0x800, 0xD1C, 0x1000, 0x5FFC, 0x10000, 0x18FFC, 0x20000, 0x24700].map locate
      = [some .flags, some (.cell 0x800), some (.cell 0xD1C), some (.cell 0x1000), some (.cell 0x5FFC),
         some (.rom 0x10000), some (.rom 0x18FFC), some (.rom 0x20000), some (.rom 0x24700)] := by decide +kernel

theorem test_witness_MemoryWords :
    [0x800, 0xD1C].map isBufAddr = [true, true] ∧ [0x1000, 0x5FFC].map isRamAddr = [true, true] ∧
    [0x10000, 0x18FFC, 0x20000, 0x24700].map isRomAddr = [true, true, true, true] ∧ b32Core.busy = false := by decide

theorem test_witness_RegisterWords : exactCore.busy = false ∧ b32Core.busy = false := ⟨rfl, rfl⟩

theorem test_witness_RefusedWrites :
    isRomAddr 0x24700 = true ∧ (2 : Word).extractLsb' 1 31 ≠ 0 ∧ 256 ≤ (256 : Word).toNat ∧
      (4 : Word).extractLsb' 2 30 ≠ 0 := by decide

/-- The last accepted and the first refused value of `CTRL`, `J` and `FLAGS`. -/
theorem test_witness_RegisterBounds :
    [1, 2].map (fun w => statusAfter (.write 0x08 4 (.word w))) = [some 0, some 0x42] ∧
    [255, 256].map (fun w => statusAfter (.write 0x40 4 (.word w))) = [some 0, some 0x42] ∧
    [3, 4].map (fun w => statusAfter (.write 0x44 4 (.word w))) = [some 0, some 0x42] := by decide +kernel

theorem test_witness_FirstErrorSticks :
    b32Core.err = false ∧ (raiseErr .range b32Core).err = true ∧ (raiseErr .range b32Core).errcode = 3 := by decide

/-- A busy core with a host access fails; with a read of `STATUS` it does not. -/
theorem test_witness_OnlyBusyAccessFaults :
    step (b32State (asked (.read 0x08 4) { b32Core with busy := true })) = .fault .hostAccessWhileBusy ∧
    (b32Of (step (b32State (asked (.read 0x04 4) { b32Core with busy := true })))).isSome = true := by
  refine ⟨rfl, by decide +kernel⟩

theorem test_witness_ResetSawAfterHardwareReset :
    step (b32State (asked .hwReset b32Core)) = .next (b32State (hwReset b32Ops b32Core)) := rfl

theorem test_witness_InvariantKept :
    Memory.wf b32Ops [(bufAddr 3, 0x3F800000#32), (0x1000, 0)] = true ∧
    step State.resetB32 = .next State.resetB32 := ⟨by decide +kernel, rfl⟩

theorem test_witness_CommandsKeepHostState :
    (Instr.reset .tri).wellFormed = true ∧ (Instr.nop).wellFormed = true ∧
    (b32Of (exec (.reset .tri) (b32State b32Core))).isSome = true ∧ (b32Of (exec .nop (b32State b32Core))).isSome = true := by
  decide +kernel

/-- A core before its first sample, and one word of `SYNC_IN`, for a block of one sample. -/
theorem test_witness_RunKeepsRanges_first :
    exactCore.fsamp ≠ 0 ∧ exactCore.init = false ∧ (∀ k, k < 328 → exactCore.j.val + 71 < k → bufRead exactOps exactCore k = 0) ∧
      ∀ i, i < 1 → SyncWordOk (readWord exactOps { exactCore with mem := [(0x2000, Config.eps)] } (wordAddr .syncIn i)) := by
  refine ⟨by decide, rfl, by decide +kernel, ?_⟩
  intro i hi
  have : i = 0 := by omega
  subst this
  show Config.eps < Config.eps + 1
  decide +kernel

/-- A rectangle core in the middle of a run, in the range invariants. -/
def midRun : Pabli Rat := { bench [] with shape := .rect, duty := 1 / 4, lastv := 1 / 2, init := true }

theorem test_witness_RunKeepsRanges_later : RangeInv midRun where
  increment := by decide +kernel
  duty := fun _ => by decide +kernel
  phase := by decide +kernel
  level := fun _ => by decide +kernel
  tail := fun k h1 h2 =>
    (by decide +kernel : ∀ k, k < 328 → midRun.j.val + 71 < k → bufRead exactOps midRun k = 0) k h2 h1

theorem test_witness_B32Steps :
    answers (b32Mul 0x3F4CCCCD#32 0x3F000000#32) = true ∧ answers (b32Add 0x3F700000#32 0x3E000000#32) = true ∧
    answers (b32Sub 0x3F800000#32 0x3E800000#32) = true ∧
    (∀ k, k < 72 → answersWith (b32Ops.read (bufRead b32Ops b32Core (256 + k))) 0x00000000#32 = true) ∧
    answersWith (b32Ge 0x1E3CE508#32 0x1E3CE508#32) true = true ∧
    answersWith (b32Ge 0x00000000#32 0x1E3CE508#32) false = true := by decide +kernel

/-- Sample indices and counts at their limits, and the cursor on both sides of the fold. -/
theorem test_witness_Operands :
    (1023 : BitVec 16).toNat ≤ 1023 ∧ (1024 : BitVec 16).toNat ≤ 1024 ∧ 1 ≤ (1 : BitVec 8).toNat ∧ exactCore.fsamp ≠ 0 ∧
    ({ exactCore with j := 254 } : Pabli Rat).j.val < 255 ∧ ({ exactCore with j := 255 } : Pabli Rat).j.val = 255 := by decide

theorem test_witness_TickCompletes :
    (bench []).w + (bench []).dw ≠ 0 ∧
    ({ bench [] with shape := .tri, duty := 1 / 4 } : Pabli Rat).duty + (bench []).db ≠ 0 ∧
    ({ bench [] with shape := .tri, duty := 1 / 4 } : Pabli Rat).duty + (bench []).db ≠ 1 := by decide +kernel

/-- `r = 16` (V1.4), `r = 5` (V1.3), `r = 127/2` (V1.5): an even, an odd and no integer. -/
theorem test_witness_TableIndexExact :
    (64 * (1 / 32) / (1 / 8) : Rat) = 16 ∧ refIndex (1 / 32) (1 / 8) = 16 ∧
    (64 * (5 / 512) / (1 / 8) : Rat) = 5 ∧ refIndex (5 / 512) (1 / 8) = 4 ∧
    (64 * (127 / 1024) / (1 / 8) : Rat) = 127 / 2 ∧ refIndex (127 / 1024) (1 / 8) = 63 := by decide +kernel

/-- R11's own examples of a tie. -/
theorem test_witness_RneIsNearestEven :
    [-1 / 2, 1 / 2, 3 / 2, 5 / 2, -3 / 2].map rneRat = [0, 0, 2, 2, -2] := by decide +kernel

theorem test_witness_InjectionStaysInRange :
    answers (tableIndex exactOps (1 / 32) (1 / 8)) = true ∧ answers (tableIndex b32Ops 0x3D000000#32 0x3E000000#32) = true := by
  decide +kernel

theorem test_witness_Injections :
    answers (injectStep exactOps 0 1 (bench [])) = true ∧ (bench []).w ≠ 0 ∧
    (10 / 1024 / (1 / 4) : Rat) = 5 / 1024 / (1 / 8) := by decide +kernel

/-- Without an edge, an increment of 0 is allowed; a triangle needs its duty. -/
theorem test_witness_Detectors :
    (sawSample { exactCore with phase := 3 / 4 }).pulses = [] ∧
    (rectSample { exactCore with phase := 3 / 16, duty := 1 / 4 }).pulses = [] ∧
    (triSample { exactCore with phase := 3 / 8, duty := 1 / 2 }).pulses = [] ∧
    (rectSync { exactCore with phase := 3 / 16, duty := 1 / 4 } Config.eps).pulses = [] ∧
    (1 / 2 : Rat) ≠ 0 ∧ (1 / 2 : Rat) ≠ 1 := by decide +kernel

theorem test_witness_SyncPhaseFidelity :
    readWord exactOps (bench [(0x2000, Config.eps + 1 / 4)]) (wordAddr .syncIn 0) = Config.eps + 1 / 4 ∧
    (bench []).w ≠ 0 := by decide +kernel

/-- The register, buffer and sample commands of the frames do answer next states. -/
theorem test_witness_Frames :
    [Instr.coef, .ramp, .adv, .smooth 1 1023, .boot 1023, .dep, .rds 1023, .rot, .dets 1023, .detr 0, .run 0].map
        (fun i => (exactOf (exec i (exactState
          { bench [(0x1FFC, 1), (0x3FFC, 1)] with duty := 1 / 2 }))).isSome)
      = List.replicate 11 true := by decide +kernel

theorem test_witness_ZeroDivisorsRefused :
    refusalOf (exec (.boot 0) (exactState { exactCore with fsamp := 0 })) = some .divideByZero ∧
    refusalOf (exec (.dets 0) (exactState { exactCore with phase := 1 })) = some .divideByZero ∧
    refusalOf (exec (.dett 0) (exactState { bench [] with duty := 1 })) = some .divideByZero := by decide +kernel

theorem test_witness_NonFiniteWordsRefused :
    [0x7F800000, 0xFF800000, 0x7FC00000].map b32Finite = [false, false, false] ∧ b32Finite 0x7F7FFFFF#32 = true ∧
    refusalOf (exec .rot (b32State { b32Core with j := 255, mem := [(bufAddr 327, 0x7FC00000#32)] })) = some .nonFinite := by
  decide +kernel

end Sys2Proof.Tests
end

section
/-! PROOFS. What any step can do, said once for both configurations: `StepEffect` and the inversion lemma `step_effect`. -/

namespace Sys2Proof.Machine

variable {Num : Type}

/-! ## Bus accesses -/

@[simp] theorem setNumReg_mem (p : Pabli Num) (x : Num) (r : NumReg) : (setNumReg p x r).mem = p.mem := by
  cases r <;> rfl

@[simp] theorem setNumReg_powerOns (p : Pabli Num) (x : Num) (r : NumReg) :
    (setNumReg p x r).powerOns = p.powerOns := by
  cases r <;> rfl

@[simp] theorem writeStatus_mem (w : Word) (p : Pabli Num) : (writeStatus w p).mem = p.mem := by
  unfold writeStatus; split <;> rfl

@[simp] theorem writeStatus_powerOns (w : Word) (p : Pabli Num) : (writeStatus w p).powerOns = p.powerOns := by
  unfold writeStatus; split <;> rfl

@[simp] theorem writeCtrl_mem (w : Word) (p : Pabli Num) : (writeCtrl w p).mem = p.mem := by
  unfold writeCtrl; split <;> simp

@[simp] theorem writeCtrl_powerOns (w : Word) (p : Pabli Num) : (writeCtrl w p).powerOns = p.powerOns := by
  unfold writeCtrl; split <;> simp

@[simp] theorem writeJ_mem (w : Word) (p : Pabli Num) : (writeJ w p).mem = p.mem := by
  unfold writeJ; split <;> simp

@[simp] theorem writeJ_powerOns (w : Word) (p : Pabli Num) : (writeJ w p).powerOns = p.powerOns := by
  unfold writeJ; split <;> simp

@[simp] theorem writeFlags_mem (w : Word) (p : Pabli Num) : (writeFlags w p).mem = p.mem := by
  unfold writeFlags; split <;> simp

@[simp] theorem writeFlags_powerOns (w : Word) (p : Pabli Num) : (writeFlags w p).powerOns = p.powerOns := by
  unfold writeFlags; split <;> simp

@[simp] theorem hostRead_mem (N : NumOps Num) (addr : BitVec 18) (width : Nat) (p : Pabli Num) :
    (hostRead N addr width p).mem = p.mem := by
  unfold hostRead; split <;> simp

@[simp] theorem hostRead_powerOns (N : NumOps Num) (addr : BitVec 18) (width : Nat) (p : Pabli Num) :
    (hostRead N addr width p).powerOns = p.powerOns := by
  unfold hostRead; split <;> simp

theorem writeInt_ok {N : NumOps Num} {v : BusWord Num} {f : Word → Pabli Num} {q : Pabli Num}
    (h : writeInt N v f = .ok q) : ∃ w, N.wordOfBus v = some w ∧ q = f w := by
  unfold writeInt at h
  split at h
  · rename_i w hw
    injection h with h
    exact ⟨w, hw, h.symm⟩
  · injection h

theorem writeNum_ok {N : NumOps Num} {v : BusWord Num} {f : Num → Pabli Num} {q : Pabli Num}
    (h : writeNum N v f = .ok q) : ∃ x, N.numOfBus v = some x ∧ q = f x := by
  unfold writeNum at h
  split at h
  · rename_i x hx
    injection h with h
    exact ⟨x, hx, h.symm⟩
  · injection h

/-- A completed write changes a word of memory only where it reaches that word (R61, R65, R68). -/
theorem busWrite_mem {N : NumOps Num} {v : BusWord Num} {p q : Pabli Num} {l : Location}
    (h : busWrite N v p l = .ok q) :
    (q.mem = p.mem ∧ q.powerOns = p.powerOns) ∨ ∃ addr x, l = .cell addr ∧ q = writeWord N p addr x := by
  cases l with
  | cmd => injection h with h; subst h; exact .inl ⟨rfl, rfl⟩
  | status => obtain ⟨w, _, rfl⟩ := writeInt_ok h; exact .inl (by simp)
  | ctrl => obtain ⟨w, _, rfl⟩ := writeInt_ok h; exact .inl (by simp)
  | numReg r => obtain ⟨x, _, rfl⟩ := writeNum_ok h; exact .inl (by simp)
  | j => obtain ⟨w, _, rfl⟩ := writeInt_ok h; exact .inl (by simp)
  | flags => obtain ⟨w, _, rfl⟩ := writeInt_ok h; exact .inl (by simp)
  | cell addr => obtain ⟨x, _, rfl⟩ := writeNum_ok h; exact .inr ⟨addr, x, rfl, rfl⟩
  | rom addr => injection h with h; subst h; exact .inl (by simp)

/-! ## Moves of the host -/

/-- What a move of the host that is complete at once does to the core (R65, R230). -/
inductive MoveEffect (N : NumOps Num) (p : Pabli Num) : HostMove Num → Pabli Num → Prop where
  | read (addr : BitVec 18) (width : Nat) : MoveEffect N p (.read addr width) (hostRead N addr width p)
  | refusedWrite {addr : BitVec 18} {width : Nat} (v : BusWord Num) (hl : target addr width = none) :
      MoveEffect N p (.write addr width v) (raiseErr .bus p)
  | write {addr : BitVec 18} {width : Nat} {v : BusWord Num} {l : Location} {q : Pabli Num}
      (hl : target addr width = some l) (hq : busWrite N v p l = .ok q) : MoveEffect N p (.write addr width v) q
  | hwReset : MoveEffect N p .hwReset (hwReset N p)

/-- A move comes to a refusal, to its effect, or to a command that is still to run (R17, R34). -/
theorem takeMove_cases (N : NumOps Num) (mk : Pabli Num → Configured) (m : HostMove Num) (p : Pabli Num) :
    (∃ r, takeMove N mk m p = .done (.refused r)) ∨
      (∃ q, MoveEffect N p m q ∧ takeMove N mk m p = .done (.next ⟨mk q⟩)) ∨
      ∃ c, takeMove N mk m p = .command c ⟨mk p⟩ := by
  cases m with
  | read addr width => exact .inr (.inl ⟨_, .read addr width, rfl⟩)
  | hwReset => exact .inr (.inl ⟨_, .hwReset, rfl⟩)
  | write addr width v =>
    simp only [takeMove, writeMove]
    split
    · rename_i hl
      exact .inr (.inl ⟨_, .refusedWrite v hl, rfl⟩)
    · split
      · exact .inr (.inr ⟨_, rfl⟩)
      · exact .inl ⟨_, rfl⟩
    · rename_i l _ hl
      cases hq : busWrite N v p l with
      | error r => exact .inl ⟨r, rfl⟩
      | ok q => exact .inr (.inl ⟨q, .write hl hq, rfl⟩)

/-- The host makes no move, one that is not allowed, or the first of its list (R17, R236). -/
theorem moveOn_cases (N : NumOps Num) (mk : Pabli Num → Configured) (p : Pabli Num) :
    (p.host = [] ∧ moveOn N mk p = .idle) ∨ (∃ f, moveOn N mk p = .stuck f) ∨
      ∃ m rest, p.host = m :: rest ∧ moveOn N mk p = takeMove N mk m { p with host := rest } := by
  unfold moveOn
  split
  · exact .inl ⟨by assumption, rfl⟩
  · rename_i m rest hh
    split
    · exact .inr (.inl ⟨_, rfl⟩)
    · exact .inr (.inr ⟨m, rest, hh, rfl⟩)

/-! ## Commands -/

theorem finishCommand_next {o : Host.Outcome State Fault Refusal} {t : State} (h : finishCommand o = .next t) :
    ∃ u, o = .next u ∧ t = dropBusy u := by
  cases o with
  | next u => injection h with h; exact ⟨u, rfl, h.symm⟩
  | fault f => injection h
  | refused r => injection h

theorem raiseErr_of_busy (e : ErrCode) (s : State) :
    onPabli (fun _ p => raiseErr e p) (raiseBusy s) = onPabli (fun _ p => raiseErr e p) s := by
  obtain ⟨p | p⟩ := s <;> rfl

theorem dropBusy_raiseErr (e : ErrCode) (s : State) :
    dropBusy (onPabli (fun _ p => raiseErr e p) s) = onPabli (fun _ p => raiseErr e p) s := by
  obtain ⟨p | p⟩ := s <;> simp only [dropBusy, onPabli_exact, onPabli_b32, raiseErr_dropBusy]

/-- What a word written to `CMD` can do: raise the error of a failing check, or run a command with legal operands
(R34, R94). -/
theorem runCommand_next {c : Word} {s t : State} (h : runCommand c s = .next t) :
    (∃ e, t = onPabli (fun _ p => raiseErr e p) s) ∨
      ∃ i u, i.wellFormed = true ∧ exec i (raiseBusy s) = .next u ∧ t = dropBusy u := by
  unfold runCommand at h
  split at h
  · rename_i i _
    obtain ⟨u, hu, rfl⟩ := finishCommand_next h
    cases hi : i.wellFormed with
    | true => exact .inr ⟨i, u, hi, hu, rfl⟩
    | false =>
      rw [exec_illFormed hi, raiseErr_of_busy] at hu
      injection hu with hu
      exact .inl ⟨.range, by rw [← hu, dropBusy_raiseErr]⟩
  · rename_i e _
    injection h with h
    exact .inl ⟨e, by rw [← h, raiseErr_of_busy]⟩

/-- What a word written to `CMD` does to the core: the error of a failing check, or a command with legal operands, run
with `BUSY` raised before it and dropped after it (R34, R94). -/
inductive CommandEffect (N : NumOps Num) (p : Pabli Num) : Pabli Num → Prop where
  | error (e : ErrCode) : CommandEffect N p (raiseErr e p)
  | run {i : Instr} {q : Pabli Num} (hi : i.wellFormed = true) (hq : ruleOf N i { p with busy := true } = .ok q) :
      CommandEffect N p { q with busy := false }

theorem runCommand_effect :
    BothCores fun _ N mk => ∀ c p t, runCommand c (mk p) = .next t → ∃ q, t = mk q ∧ CommandEffect N p q := by
  constructor
  · intro c p t h
    rcases runCommand_next h with ⟨e, rfl⟩ | ⟨i, u, hi, hu, rfl⟩
    · exact ⟨_, rfl, .error e⟩
    · obtain ⟨q, hq, rfl⟩ := exec_exact_next hi hu
      exact ⟨_, rfl, .run hi hq⟩
  · intro c p t h
    rcases runCommand_next h with ⟨e, rfl⟩ | ⟨i, u, hi, hu, rfl⟩
    · exact ⟨_, rfl, .error e⟩
    · obtain ⟨q, hq, rfl⟩ := exec_b32_next hi hu
      exact ⟨_, rfl, .run hi hq⟩

/-! ## Steps -/

/-- What a step does to the core: it waits, makes a move of the host that is complete at once, or takes a word written
to `CMD` (R17, R34, R210). -/
inductive StepEffect (N : NumOps Num) (p : Pabli Num) : Pabli Num → Prop where
  | idle (hh : p.host = []) : StepEffect N p p
  | move {m : HostMove Num} {rest : List (HostMove Num)} {q : Pabli Num} (hh : p.host = m :: rest)
      (hm : MoveEffect N { p with host := rest } m q) : StepEffect N p q
  | command {m : HostMove Num} {rest : List (HostMove Num)} {q : Pabli Num} (hh : p.host = m :: rest)
      (hc : CommandEffect N { p with host := rest } q) : StepEffect N p q

theorem moveOn_effect {N : NumOps Num} {mk : Pabli Num → Configured}
    (hrun : ∀ c p t, runCommand c ⟨mk p⟩ = .next t → ∃ q, t = ⟨mk q⟩ ∧ CommandEffect N p q)
    {p : Pabli Num} {t : State} (h : (moveOn N mk p).outcome ⟨mk p⟩ = .next t) :
    ∃ q, t = ⟨mk q⟩ ∧ StepEffect N p q := by
  rcases moveOn_cases N mk p with ⟨hh, hm⟩ | ⟨f, hm⟩ | ⟨m, rest, hh, hm⟩
  · rw [hm] at h
    injection h with h
    exact ⟨p, h.symm, .idle hh⟩
  · rw [hm] at h
    injection h
  · rcases takeMove_cases N mk m { p with host := rest } with ⟨r, ht⟩ | ⟨q, hq, ht⟩ | ⟨c, ht⟩
    · rw [hm, ht] at h
      injection h
    · rw [hm, ht] at h
      injection h with h
      exact ⟨q, h.symm, .move hh hq⟩
    · rw [hm, ht] at h
      obtain ⟨q, hq, hc⟩ := hrun c _ t h
      exact ⟨q, hq, .command hh hc⟩

theorem step_eq_outcome (s : State) : step s = (nextMove s).outcome s := by
  unfold step
  cases nextMove s <;> rfl

/-- The inversion lemma of the step, in both configurations (R17). -/
theorem step_effect :
    BothCores fun _ N mk => ∀ p t, step (mk p) = .next t → ∃ q, t = mk q ∧ StepEffect N p q :=
  ⟨fun p _ h => moveOn_effect runCommand_effect.1 ((step_eq_outcome (exactState p)).symm.trans h),
    fun p _ h => moveOn_effect runCommand_effect.2 ((step_eq_outcome (b32State p)).symm.trans h)⟩

end Sys2Proof.Machine
end

section
/-! PROOFS. The table ROMs keep their contents (R7, R45, R74). -/

namespace Sys2Proof.Machine

variable {Num : Type} {N : NumOps Num} {p q r : Pabli Num}

/-- Every word of the two table ROMs reads as before. -/
def RomKept (N : NumOps Num) (p q : Pabli Num) : Prop :=
  ∀ addr, isRomAddr addr = true → readWord N q addr = readWord N p addr

theorem RomKept.trans (h1 : RomKept N p q) (h2 : RomKept N q r) : RomKept N p r :=
  fun addr ha => (h2 addr ha).trans (h1 addr ha)

theorem RomKept.of_mem_eq (hm : q.mem = p.mem) (hp : q.powerOns = p.powerOns) : RomKept N p q :=
  fun addr _ => readWord_congr N hm hp addr

/-- The host's list of moves is not part of the tables. -/
theorem RomKept.of_host {rest : List (HostMove Num)} (h : RomKept N { p with host := rest } q) : RomKept N p q := h

/-- Writes that stay within `BUF` and the sample RAMs keep the tables (R61). -/
theorem RomKept.of_memKept {S : Nat → Prop} (h : MemKept N S p q)
    (hS : ∀ a, S a → isBufAddr a = true ∨ isRamAddr a = true) : RomKept N p q := by
  intro addr ha
  obtain ⟨hbuf, hram⟩ := rom_not_cell ha
  refine h addr fun hs => ?_
  rcases hS addr hs with hb | hr
  · exact Bool.false_ne_true (hbuf.symm.trans hb)
  · exact Bool.false_ne_true (hram.symm.trans hr)

/-- What a command may write is `BUF` or sample RAM (R61). -/
theorem runCells_buf_or_ram {a : Nat} (h : RunCells 1024 a) : isBufAddr a = true ∨ isRamAddr a = true := by
  rcases h with ⟨i, hi, rfl | rfl⟩ | hb
  · exact .inr (ramAddr_cases (by simp) hi)
  · exact .inr (ramAddr_cases (by simp) hi)
  · exact .inl hb

theorem writeWord_romKept (hN : ZeroLaw N) {addr : Nat} (x : Num) (ha : isBufAddr addr = true ∨ isRamAddr addr = true) :
    RomKept N p (writeWord N p addr x) :=
  RomKept.of_memKept (S := fun a => a = addr) (fun _ h => readWord_writeWord_other hN p x h) fun _ h => h ▸ ha

/-- The reset input keeps the tables (R47, R230). -/
theorem hwReset_romKept : RomKept N p (hwReset N p) := by
  intro addr ha
  simp only [readWord, hwReset, memFind_filter p.mem isRomAddr addr, ha, if_true, unlistedWord, (rom_not_cell ha).1]

theorem MoveEffect.romKept (hN : ZeroLaw N) {m : HostMove Num} (h : MoveEffect N p m q) : RomKept N p q := by
  cases h with
  | read addr width => exact .of_mem_eq (by simp) (by simp)
  | refusedWrite v hl => exact .of_mem_eq (by simp) (by simp)
  | hwReset => exact hwReset_romKept
  | write hl hq =>
    rcases busWrite_mem hq with ⟨hm, hp⟩ | ⟨addr, x, rfl, rfl⟩
    · exact .of_mem_eq hm hp
    · obtain ⟨_, _, hloc⟩ := target_some hl
      obtain ⟨rfl, ha⟩ := locate_cell_addr hloc
      exact writeWord_romKept hN x ha

/-- No command rule writes a table word (R45). -/
theorem ruleOf_romKept (hN : ZeroLaw N) {i : Instr} (hi : i.wellFormed = true) (h : ruleOf N i p = .ok q) :
    RomKept N p q := by
  by_cases hr : ∃ shape, i = .reset shape
  · obtain ⟨shape, rfl⟩ := hr
    injection h with h
    subst h
    obtain ⟨_, hk, _⟩ := resetRule_effect hN shape p
    exact .of_memKept hk fun _ hb => .inl hb
  · exact .of_memKept (ruleOf_ok hN hi (fun shape he => hr ⟨shape, he⟩) h).kept fun _ => runCells_buf_or_ram

theorem CommandEffect.romKept (hN : ZeroLaw N) (h : CommandEffect N p q) : RomKept N p q := by
  cases h with
  | error e => exact .of_mem_eq (by simp) (by simp)
  | run hi hq =>
    exact ((RomKept.of_mem_eq rfl rfl).trans (ruleOf_romKept hN hi hq)).trans (.of_mem_eq rfl rfl)

theorem StepEffect.romKept (hN : ZeroLaw N) (h : StepEffect N p q) : RomKept N p q := by
  cases h with
  | idle hh => exact .of_mem_eq rfl rfl
  | move hh hm => exact (hm.romKept hN).of_host
  | command hh hc => exact (hc.romKept hN).of_host

/-- Settles O26: a step waits, makes a move of the host or runs a command, and none of these writes a table word. -/
theorem tablesNeverChange : Obligations.TablesNeverChange := by
  refine ⟨fun p t h => ?_, fun p t h => ?_⟩
  · obtain ⟨q, ht, hq⟩ := step_effect.1 p t h
    exact ⟨q, ht, hq.romKept exactOps_zeroLaw⟩
  · obtain ⟨q, ht, hq⟩ := step_effect.2 p t h
    exact ⟨q, ht, hq.romKept b32Ops_zeroLaw⟩

end Sys2Proof.Machine
end

section
/-! PROOFS. `rne` rounds to nearest, a tie to the even integer (R11). -/

namespace Sys2Proof.Machine

theorem rat_floor_bounds (x : Rat) : (x.floor : Rat) ≤ x ∧ x < x.floor + 1 :=
  ⟨Rat.floor_le x, by exact_mod_cast Rat.lt_floor_add_one x⟩

theorem abs_sub_rneRat_le (x : Rat) : |x - rneRat x| ≤ 1 / 2 := by
  obtain ⟨hlo, hhi⟩ := rat_floor_bounds x
  unfold rneRat
  split_ifs <;> rw [abs_le] <;> push_cast <;> constructor <;> linarith

/-- At half a unit from its argument `rne` is even: the two other branches end nearer than that. -/
theorem rneRat_even_of_tie {x : Rat} (h : |x - rneRat x| = 1 / 2) : rneRat x % 2 = 0 := by
  obtain ⟨hlo, hhi⟩ := rat_floor_bounds x
  unfold rneRat at h ⊢
  split_ifs at h ⊢ with hbelow habove heven
  · rw [abs_of_nonneg (by linarith)] at h
    linarith
  · push_cast at h
    rw [abs_of_nonpos (by linarith)] at h
    linarith
  · exact heven
  · omega

/-- Two different integers are at least one unit apart. -/
theorem one_sub_abs_le_abs_sub {k r : Int} (h : k ≠ r) (x : Rat) : 1 - |x - r| ≤ |x - k| := by
  have hgap : (1 : Rat) ≤ |(r : Rat) - k| := by exact_mod_cast Int.one_le_abs (sub_ne_zero.2 h.symm)
  have htri : |(r : Rat) - k| ≤ |(r : Rat) - x| + |x - k| := abs_sub_le _ _ _
  rw [abs_sub_comm (r : Rat) x] at htri
  linarith

/-- Settles O42: `rne` ends within half a unit, so every other integer is at least as far, and as far only at a tie. -/
theorem rneIsNearestEven : Obligations.RneIsNearestEven := by
  intro x
  have hnear := abs_sub_rneRat_le x
  refine ⟨fun k => ?_, fun k hk htie => ?_⟩
  · by_cases hk : k = rneRat x
    · rw [hk]
    · linarith [one_sub_abs_le_abs_sub hk x]
  · have hfar := one_sub_abs_le_abs_sub hk x
    exact rneRat_even_of_tie (by linarith)

end Sys2Proof.Machine
end

section
/-! PROOFS. What the two configurations share (`CoreLaws`), so that a claim about both cores is proved once; and what every
command with legal operands leaves alone (R33, R42, R44). -/

namespace Sys2Proof.Machine

variable {Num : Type} {N : NumOps Num} {p q : Pabli Num}

/-! ## Both configurations at once -/

theorem writeMove_of_target (N : NumOps Num) (mk : Pabli Num → Configured) {addr : BitVec 18} {width : Nat} {l : Location}
    (v : BusWord Num) (p : Pabli Num) (hl : target addr width = some l) (hc : l ≠ .cmd) :
    writeMove N mk addr width v p = .done (outcomeOf mk (busWrite N v p l)) := by
  unfold writeMove
  rw [hl]
  cases l with
  | cmd => exact absurd rfl hc
  | _ => rfl

/-- What a claim about both configurations may use of either: the bus carries words and numbers, and what a step and a
command come to on its states. -/
structure CoreLaws (N : NumOps Num) (mk : Pabli Num → State) : Prop where
  zero : ZeroLaw N
  wordOfBus : ∀ w, N.wordOfBus (.word w) = some w
  numOfBus : ∀ x, N.numOfBus (N.busOfNum x) = some x
  read : ∀ addr width p, p.busy = false →
    step (mk (asked (.read addr width) p)) = .next (mk (hostRead N addr width p))
  write : ∀ {addr width l v p q}, p.busy = false → target addr width = some l → l ≠ .cmd →
    busWrite N v p l = .ok q → step (mk (asked (.write addr width v) p)) = .next (mk q)
  command : ∀ c p, p.busy = false → step (mk (commanded c p)) = runCommand c (mk p)
  raiseBusy : ∀ p, raiseBusy (mk p) = mk { p with busy := true }
  exec : ∀ {i p t}, i.wellFormed = true → exec i (mk p) = .next t → ∃ q, ruleOf N i p = .ok q ∧ t = mk q

theorem coreLaws_exact : CoreLaws exactOps exactState where
  zero := exactOps_zeroLaw
  wordOfBus _ := rfl
  numOfBus _ := rfl
  read addr width _ h := step_read_exact addr width h
  write h hl hc hq := by
    rw [step_write_exact _ _ _ h, writeMove_of_target _ _ _ _ hl hc, hq]
    rfl
  command c _ h := step_commanded_exact c h
  raiseBusy _ := rfl
  exec hi h := exec_exact_next hi h

theorem coreLaws_b32 : CoreLaws b32Ops b32State where
  zero := b32Ops_zeroLaw
  wordOfBus _ := rfl
  numOfBus _ := rfl
  read addr width _ h := step_read_b32 addr width h
  write h hl hc hq := by
    rw [step_write_b32 _ _ _ h, writeMove_of_target _ _ _ _ hl hc, hq]
    rfl
  command c _ h := step_commanded_b32 c h
  raiseBusy _ := rfl
  exec hi h := exec_b32_next hi h

/-- A claim that follows from what the configurations share holds of both. -/
theorem bothCores_of_coreLaws {P : (Num : Type) → NumOps Num → (Pabli Num → State) → Prop}
    (h : ∀ (Num : Type) (N : NumOps Num) (mk : Pabli Num → State), CoreLaws N mk → P Num N mk) : BothCores P :=
  ⟨h _ _ _ coreLaws_exact, h _ _ _ coreLaws_b32⟩

/-! ## Commands -/

/-- What any command may change: the oscillator state, words of the two output RAMs, and cells of `BUF`. -/
structure CommandFrame (N : NumOps Num) (p q : Pabli Num) : Prop where
  only : q = { p with phase := q.phase, w := q.w, duty := q.duty, lastv := q.lastv, z := q.z, a := q.a, dw := q.dw,
                      db := q.db, j := q.j, edge := q.edge, init := q.init, shape := q.shape, mem := q.mem }
  kept : MemKept N (RunCells 1024) p q
  wf : Memory.wf N p.mem = true → Memory.wf N q.mem = true

theorem CommandFrame.of_loop (h : LoopEffect N (RunCells 1024) p q) : CommandFrame N p q :=
  ⟨by rw [h.only], h.kept, h.wf⟩

theorem resetRule_frame (hN : ZeroLaw N) (shape : Shape) (p : Pabli Num) : CommandFrame N p (resetRule N shape p) := by
  obtain ⟨honly, hkept, hwf, -⟩ := resetRule_effect hN shape p
  exact ⟨by rw [honly], fun a ha => hkept a fun hb => ha (.inr hb), hwf⟩

theorem ruleOf_frame (hN : ZeroLaw N) {i : Instr} (hi : i.wellFormed = true) (h : ruleOf N i p = .ok q) :
    CommandFrame N p q := by
  by_cases hr : ∃ shape, i = .reset shape
  · obtain ⟨shape, rfl⟩ := hr
    obtain rfl := Except.ok.inj h
    exact resetRule_frame hN shape p
  · exact .of_loop (ruleOf_ok hN hi (fun shape he => hr ⟨shape, he⟩) h)

/-- The input RAMs and the tables are not among the words a command may write (R44, R45, R61). -/
theorem input_not_runCells {n addr : Nat} (h : inRegion .freqIn addr = true ∨ inRegion .syncIn addr = true ∨
    inRegion .dutyIn addr = true ∨ isRomAddr addr = true) (hn : n ≤ 1024) : ¬ RunCells n addr := by
  have ha : (0x1000 ≤ addr ∧ addr < 0x4000) ∨ 0x10000 ≤ addr := by
    rw [isRomAddr_iff] at h
    simp only [inRegion, Bool.and_eq_true, decide_eq_true_eq] at h
    simp only [regionBase, regionWords] at h
    omega
  rintro (⟨i, hi, h | h⟩ | hb)
  · simp only [wordAddr, regionBase] at h
    omega
  · simp only [wordAddr, regionBase] at h
    omega
  · rw [BufCells, isBufAddr_iff] at hb
    omega

/-- Settles O27: every command stays within its frame, which names none of the host's registers, and the words it may
write are no input words. -/
theorem commandsKeepHostState : Obligations.CommandsKeepHostState := by
  refine bothCores_of_coreLaws fun Num N mk laws p i t hi ht => ?_
  obtain ⟨q, hq, rfl⟩ := laws.exec hi ht
  obtain ⟨honly, hkept, -⟩ := ruleOf_frame laws.zero hi hq
  refine ⟨q, rfl, ?_, ?_, ?_, ?_, ?_, ?_, ?_, ?_, ?_, fun addr ha => hkept addr (input_not_runCells ha le_rfl), ?_⟩
  case refine_10 =>
    intro hr
    have hloop := ruleOf_ok laws.zero hi hr hq
    exact ⟨hloop.shape, hloop.init⟩
  all_goals rw [honly]

end Sys2Proof.Machine
end

section
/-! PROOFS. The machine's invariant holds at reset and every step keeps it (R35, R47, R202). -/

namespace Sys2Proof.Machine

variable {Num : Type} {N : NumOps Num} {p q : Pabli Num}

theorem errCodeBits_range (e : ErrCode) : 1 ≤ (errCodeBits e).toNat ∧ (errCodeBits e).toNat ≤ 5 := by
  cases e <;> decide

namespace Consistent

theorem congr (h : Consistent N p) (hm : Memory.wf N q.mem = true) (hb : q.busy = false) (he : q.err = p.err)
    (hc : q.errcode = p.errcode) : Consistent N q :=
  ⟨hm, hb, by rw [he, hc]; exact h.noError, by rw [he, hc]; exact h.someError⟩

theorem raiseErr (h : Consistent N p) (e : ErrCode) : Consistent N (raiseErr e p) := by
  refine ⟨by rw [raiseErr_mem]; exact h.memory, raiseErr_busy e p, fun hn => by simp at hn, fun _ => ?_⟩
  rw [raiseErr_errcode]
  split
  · exact h.someError (by assumption)
  · exact errCodeBits_range e

theorem clearErr (h : Consistent N p) : Consistent N (clearErr p) :=
  ⟨h.memory, h.idle, fun _ => rfl, fun hn => by simp at hn⟩

theorem writeStatus (h : Consistent N p) (w : Word) : Consistent N (writeStatus w p) := by
  unfold Machine.writeStatus
  split
  · exact h.clearErr
  · exact h

theorem writeCtrl (h : Consistent N p) (w : Word) : Consistent N (writeCtrl w p) := by
  unfold Machine.writeCtrl
  split
  · exact h.congr h.memory h.idle rfl rfl
  · exact h.raiseErr _

theorem writeJ (h : Consistent N p) (w : Word) : Consistent N (writeJ w p) := by
  unfold Machine.writeJ
  split
  · exact h.congr h.memory h.idle rfl rfl
  · exact h.raiseErr _

theorem writeFlags (h : Consistent N p) (w : Word) : Consistent N (writeFlags w p) := by
  unfold Machine.writeFlags
  split
  · exact h.congr h.memory h.idle rfl rfl
  · exact h.raiseErr _

theorem setNumReg (h : Consistent N p) (x : Num) (r : NumReg) : Consistent N (setNumReg p x r) := by
  cases r <;> exact h.congr h.memory h.idle rfl rfl

/-- A write of a mapped word of memory (R61, R62). -/
theorem writeWord (h : Consistent N p) {addr : Nat} (x : Num) (h4 : addr % 4 = 0)
    (ha : isBufAddr addr = true ∨ isRamAddr addr = true) : Consistent N (writeWord N p addr x) :=
  h.congr (wf_memWrite x h.memory h4 (ha.imp_right .inr)) h.idle rfl rfl

theorem hostRead (h : Consistent N p) (addr : BitVec 18) (width : Nat) : Consistent N (hostRead N addr width p) := by
  unfold Machine.hostRead
  split
  · exact h.congr h.memory h.idle rfl rfl
  · exact (h.raiseErr .bus).congr (h.raiseErr .bus).memory (h.raiseErr .bus).idle rfl rfl

theorem busWrite (h : Consistent N p) {v : BusWord Num} {addr : BitVec 18} {width : Nat} {l : Location}
    (hl : target addr width = some l) (hq : busWrite N v p l = .ok q) : Consistent N q := by
  cases l with
  | cmd => obtain rfl := Except.ok.inj hq; exact h
  | status => obtain ⟨w, -, rfl⟩ := writeInt_ok hq; exact h.writeStatus w
  | ctrl => obtain ⟨w, -, rfl⟩ := writeInt_ok hq; exact h.writeCtrl w
  | numReg r => obtain ⟨x, -, rfl⟩ := writeNum_ok hq; exact h.setNumReg x r
  | j => obtain ⟨w, -, rfl⟩ := writeInt_ok hq; exact h.writeJ w
  | flags => obtain ⟨w, -, rfl⟩ := writeInt_ok hq; exact h.writeFlags w
  | cell a =>
    obtain ⟨x, -, rfl⟩ := writeNum_ok hq
    obtain ⟨h4, -, hloc⟩ := target_some hl
    obtain ⟨rfl, ha⟩ := locate_cell_addr hloc
    exact h.writeWord x h4 ha
  | rom a => obtain rfl := Except.ok.inj hq; exact h.raiseErr .bus

/-- The registers' reset values, with nothing listed in memory (R47). -/
theorem resetPabli : Consistent N (resetPabli Num N.zero N.one) :=
  ⟨rfl, rfl, fun _ => rfl, fun h => Bool.noConfusion h⟩

theorem hwReset (h : Consistent N p) : Consistent N (hwReset N p) :=
  resetPabli.congr (wf_filter _ h.memory) rfl rfl rfl

end Consistent

theorem MoveEffect.consistent {m : HostMove Num} (h : MoveEffect N p m q) (hp : Consistent N p) : Consistent N q := by
  cases h with
  | read addr width => exact hp.hostRead addr width
  | refusedWrite v hl => exact hp.raiseErr .bus
  | write hl hq => exact hp.busWrite hl hq
  | hwReset => exact hp.hwReset

theorem CommandEffect.consistent (hN : ZeroLaw N) (h : CommandEffect N p q) (hp : Consistent N p) :
    Consistent N q := by
  cases h with
  | error e => exact hp.raiseErr e
  | run hi hr =>
    obtain ⟨honly, -, hwf⟩ := ruleOf_frame hN hi hr
    exact hp.congr (hwf hp.memory) rfl (by rw [honly]) (by rw [honly])

theorem StepEffect.consistent (hN : ZeroLaw N) (h : StepEffect N p q) (hp : Consistent N p) : Consistent N q := by
  have hrest (rest : List (HostMove Num)) : Consistent N { p with host := rest } :=
    hp.congr hp.memory hp.idle rfl rfl
  cases h with
  | idle hh => exact hp
  | move hh hm => exact hm.consistent (hrest _)
  | command hh hc => exact hc.consistent hN (hrest _)

/-- Settles O25: a step waits, makes a move of the host or runs a command, and each of these keeps memory canonical, ends
idle, and leaves `ERR` and `ERRCODE` in agreement. -/
theorem invariantKept : Obligations.InvariantKept := by
  rintro ⟨p | p⟩ t hp ht
  · obtain ⟨q, rfl, hq⟩ := step_effect.1 p t ht
    exact hq.consistent exactOps_zeroLaw hp
  · obtain ⟨q, rfl, hq⟩ := step_effect.2 p t ht
    exact hq.consistent b32Ops_zeroLaw hp

/-- Settles O24: both starting states are the registers' reset values with nothing listed in memory. -/
theorem invariantAtReset : Obligations.InvariantAtReset :=
  ⟨Consistent.resetPabli (N := exactOps), Consistent.resetPabli (N := b32Ops)⟩

/-! ## The starting states (R47) -/

theorem resetRegisters_resetPabli (N : NumOps Num) : ResetRegisters N (resetPabli Num N.zero N.one) where
  cursor := rfl
  flags := ⟨rfl, rfl⟩
  filter := rfl
  oscillator := ⟨rfl, rfl, rfl, rfl⟩
  locals := ⟨rfl, rfl, rfl⟩
  operands := ⟨rfl, rfl⟩
  shape := rfl
  control := rfl
  settings := ⟨rfl, rfl, rfl⟩
  status := ⟨rfl, rfl, rfl⟩

/-- With nothing listed, a cell of `BUF` reads 0 (R47). -/
theorem bufRead_of_mem_nil (hm : p.mem = []) {k : Nat} (hk : k < 328) : bufRead N p k = N.zero := by
  simp [bufRead, readWord, hm, memFind, unlistedWord, isBufAddr_bufAddr.2 hk]

/-- Settles O21: both starting states are the reset registers over an empty memory, where every cell reads 0. -/
theorem stateAtReset : Obligations.StateAtReset :=
  ⟨⟨_, rfl, resetRegisters_resetPabli exactOps, rfl, rfl, fun _ hk => bufRead_of_mem_nil (N := exactOps) rfl hk⟩,
    ⟨_, rfl, resetRegisters_resetPabli b32Ops, rfl, rfl, fun _ hk => bufRead_of_mem_nil (N := b32Ops) rfl hk⟩⟩

end Sys2Proof.Machine
end

section
/-! PROOFS. The register window (R33 to R42): what a read returns, what a write does. -/

namespace Sys2Proof.Machine

variable {Num : Type} {N : NumOps Num} {mk : Pabli Num → State} {p : Pabli Num}

/-! ## Accesses of an idle core, by the location they reach -/

namespace CoreLaws

/-- A read of a mapped location returns its word and changes nothing (R65). -/
theorem read_location (laws : CoreLaws N mk) (l : Location) (hp : p.busy = false) {addr : BitVec 18}
    (hl : target addr 4 = some l) :
    step (mk (asked (.read addr 4) p)) = .next (mk { p with lastRead := some (busRead N p l) }) := by
  rw [laws.read addr 4 p hp, hostRead, hl]

theorem write_numReg (laws : CoreLaws N mk) (r : NumReg) (x : Num) (hp : p.busy = false) {addr : BitVec 18}
    (hl : target addr 4 = some (.numReg r)) :
    step (mk (asked (.write addr 4 (N.busOfNum x)) p)) = .next (mk (setNumReg p x r)) :=
  laws.write hp hl (by simp) (by rw [busWrite, writeNum, laws.numOfBus])

theorem write_status (laws : CoreLaws N mk) (hp : p.busy = false) (w : Word) :
    step (mk (asked (.write 0x04 4 (.word w)) p)) = .next (mk (writeStatus w p)) :=
  laws.write (l := .status) hp rfl (by simp) (by rw [busWrite, writeInt, laws.wordOfBus])

theorem write_ctrl (laws : CoreLaws N mk) (hp : p.busy = false) (w : Word) :
    step (mk (asked (.write 0x08 4 (.word w)) p)) = .next (mk (writeCtrl w p)) :=
  laws.write (l := .ctrl) hp rfl (by simp) (by rw [busWrite, writeInt, laws.wordOfBus])

theorem write_j (laws : CoreLaws N mk) (hp : p.busy = false) (w : Word) :
    step (mk (asked (.write 0x40 4 (.word w)) p)) = .next (mk (writeJ w p)) :=
  laws.write (l := .j) hp rfl (by simp) (by rw [busWrite, writeInt, laws.wordOfBus])

theorem write_flags (laws : CoreLaws N mk) (hp : p.busy = false) (w : Word) :
    step (mk (asked (.write 0x44 4 (.word w)) p)) = .next (mk (writeFlags w p)) :=
  laws.write (l := .flags) hp rfl (by simp) (by rw [busWrite, writeInt, laws.wordOfBus])

end CoreLaws

/-- Settles O11: each of the eighteen addresses reaches its register, whose word the read returns. -/
theorem registerReads : Obligations.RegisterReads :=
  bothCores_of_coreLaws fun _ _ _ laws _ hp =>
    ⟨laws.read_location .cmd hp rfl, laws.read_location .status hp rfl, laws.read_location .ctrl hp rfl,
      laws.read_location (.numReg .fsamp) hp rfl, laws.read_location (.numReg .lowpass) hp rfl,
      laws.read_location (.numReg .deffreq) hp rfl, laws.read_location (.numReg .opa) hp rfl,
      laws.read_location (.numReg .opb) hp rfl, laws.read_location (.numReg .phase) hp rfl,
      laws.read_location (.numReg .w) hp rfl, laws.read_location (.numReg .duty) hp rfl,
      laws.read_location (.numReg .lastv) hp rfl, laws.read_location (.numReg .z) hp rfl,
      laws.read_location (.numReg .a) hp rfl, laws.read_location (.numReg .dw) hp rfl,
      laws.read_location (.numReg .db) hp rfl, laws.read_location .j hp rfl, laws.read_location .flags hp rfl⟩

/-- Settles O12: each of the thirteen addresses reaches its `num` register, which takes the number. -/
theorem registerWrites : Obligations.RegisterWrites :=
  bothCores_of_coreLaws fun _ _ _ laws _ x hp =>
    ⟨laws.write_numReg .fsamp x hp rfl, laws.write_numReg .lowpass x hp rfl, laws.write_numReg .deffreq x hp rfl,
      laws.write_numReg .opa x hp rfl, laws.write_numReg .opb x hp rfl, laws.write_numReg .phase x hp rfl,
      laws.write_numReg .w x hp rfl, laws.write_numReg .duty x hp rfl, laws.write_numReg .lastv x hp rfl,
      laws.write_numReg .z x hp rfl, laws.write_numReg .a x hp rfl, laws.write_numReg .dw x hp rfl,
      laws.write_numReg .db x hp rfl⟩

/-- Settles O6: the write to `CMD` runs the decoded command on the core with `BUSY` raised. -/
theorem stepRunsDecoded : Obligations.StepRunsDecoded := by
  refine bothCores_of_coreLaws fun _ _ _ laws p c i hp hd => ?_
  rw [laws.command c p hp, runCommand, hd]
  simp only [laws.raiseBusy]

/-! ## STATUS (R35) -/

/-- The fields of the word that `statusWord` puts together for an idle core. -/
theorem statusFields_idle (e : Bool) (code : BitVec 4) (shape : Shape) :
    let s : Word := bitWord false ||| (bitWord e <<< 1) ||| ((code.zeroExtend 32) <<< 4) ||| (shapeWord shape <<< 8)
    s.getLsbD 0 = false ∧ s.getLsbD 1 = e ∧ s.extractLsb' 2 2 = 0 ∧ s.extractLsb' 4 4 = code ∧
      s.extractLsb' 8 2 = (shapeWord shape).extractLsb' 0 2 ∧ s.extractLsb' 10 22 = 0 := by
  revert code
  cases e <;> cases shape <;> decide

/-- Settles O15: the fields do not overlap, and only bit 1 of a written word acts. -/
theorem statusFields : Obligations.StatusFields := by
  refine bothCores_of_coreLaws fun Num N mk laws p w hp => ?_
  have hword : statusWord p = bitWord false ||| (bitWord p.err <<< 1) ||| ((p.errcode.zeroExtend 32) <<< 4) |||
      (shapeWord p.shape <<< 8) := by rw [statusWord, hp]
  obtain ⟨hbusy, herr, hlow, hcode, hshape, hhigh⟩ := statusFields_idle p.err p.errcode p.shape
  rw [← hword] at hbusy herr hlow hcode hshape hhigh
  refine ⟨hbusy, herr, hlow, hcode, ?_, hhigh, laws.write_status hp w⟩
  rw [hshape]
  cases p.shape <;> rfl

/-! ## CTRL (R36) -/

/-- Bits 31:1 of a word are zero in 0 and 1 alone. -/
theorem extract_reserved_ctrl {w : Word} (h : w.extractLsb' 1 31 = 0) : w = 0 ∨ w = 1 := by
  have hn := congrArg BitVec.toNat h
  rw [toNat_extract] at hn
  simp only [← BitVec.toNat_inj, BitVec.ofNat_eq_ofNat, BitVec.toNat_ofNat] at hn ⊢
  omega

/-- Settles O16: 0 and 1 are the words without a reserved bit, and `freqIn` looks at `FREQ_CONN` alone. -/
theorem controlRegister : Obligations.ControlRegister := by
  refine bothCores_of_coreLaws fun Num N mk laws p w i hp => ?_
  rw [laws.write_ctrl hp]
  refine ⟨?_, ?_, fun ⟨h0, h1⟩ => ?_, rfl, rfl⟩
  · rintro rfl
    rfl
  · rintro rfl
    rfl
  · have hres : ¬ w.extractLsb' 1 31 = 0 := fun h => (extract_reserved_ctrl h).elim h0 h1
    rw [writeCtrl, if_neg hres]

/-! ## J (R40) -/

/-- The cursor's word holds it in bits 8:0 (R40). -/
theorem jWord_fields (p : Pabli Num) :
    (jWord p).extractLsb' 9 23 = 0 ∧ ((jWord p).extractLsb' 0 9).toNat = p.j.val := by
  have hj : p.j.val < 256 := p.j.isLt
  simp only [← BitVec.toNat_inj, toNat_extract, jWord, BitVec.ofNat_eq_ofNat, BitVec.toNat_ofNat]
  omega

/-- Settles O17: the cursor takes a value below `FILLEN`, a larger one is refused, and nine bits hold it. -/
theorem cursorRegister : Obligations.CursorRegister := by
  refine bothCores_of_coreLaws fun Num N mk laws p w hp => ?_
  rw [laws.write_j hp, writeJ]
  refine ⟨fun hw => ?_, fun hw => ?_, jWord p, laws.read_location .j hp rfl, jWord_fields p⟩
  · rw [dif_pos hw]
    exact ⟨_, rfl, rfl, rfl⟩
  · rw [dif_neg (Nat.not_lt.2 hw)]

/-! ## FLAGS (R41) -/

theorem flagsWord_fields (p : Pabli Num) :
    (flagsWord p).getLsbD 0 = p.init ∧ (flagsWord p).getLsbD 1 = decide (p.edge = .b) ∧
      (flagsWord p).extractLsb' 2 30 = 0 := by
  unfold flagsWord
  cases p.init <;> cases p.edge <;> decide

/-- Settles O18: a word without a reserved bit sets the two flags, any other is refused, and a read gives them back. -/
theorem flagsRegister : Obligations.FlagsRegister := by
  refine bothCores_of_coreLaws fun Num N mk laws p w hp => ?_
  rw [laws.write_flags hp, writeFlags]
  refine ⟨fun hw => ?_, fun hw => ?_, flagsWord p, laws.read_location .flags hp rfl, flagsWord_fields p⟩
  · rw [if_pos hw]
    rfl
  · rw [if_neg hw]

end Sys2Proof.Machine
end

section
/-! PROOFS. Under EXACT a sample completes, and where it leaves the phase (R142, R162 to R184). -/

namespace Sys2Proof.Machine

/-! ## Computations that answer -/

/-- The computation answers, and its answer has the property. -/
def Answers {α : Type} (x : Except Refusal α) (P : α → Prop) : Prop := ∃ a, x = .ok a ∧ P a

namespace Answers

variable {α β : Type} {x : Except Refusal α} {f : α → Except Refusal β} {P P' : α → Prop} {Q : β → Prop}

theorem ok {a : α} (h : P a) : Answers (.ok a) P := ⟨a, rfl, h⟩

theorem bind (hx : Answers x P) (hf : ∀ a, P a → Answers (f a) Q) : Answers (x >>= f) Q := by
  obtain ⟨a, rfl, ha⟩ := hx
  exact hf a ha

theorem mono (hx : Answers x P) (h : ∀ a, P a → P' a) : Answers x P' := by
  obtain ⟨a, hxa, ha⟩ := hx
  exact ⟨a, hxa, h a ha⟩

end Answers

/-! ## The pieces of a sample -/

/-- The increment, the duty and the phase of the oscillator are these. -/
structure Oscillator (w duty phase : Rat) (q : Pabli Rat) : Prop where
  w : q.w = w
  duty : q.duty = duty
  phase : q.phase = phase

variable {w duty x : Rat} {p : Pabli Rat}

theorem Oscillator.self (p : Pabli Rat) : Oscillator p.w p.duty p.phase p := ⟨rfl, rfl, rfl⟩

theorem Oscillator.of_only {q : Pabli Rat} (h : Oscillator w duty x p) (hq : q = { p with mem := q.mem }) :
    Oscillator w duty x q :=
  ⟨by rw [hq]; exact h.w, by rw [hq]; exact h.duty, by rw [hq]; exact h.phase⟩

theorem Oscillator.set (h : Oscillator w duty x p) (edge : Edge) (lastv : Rat) :
    Oscillator w duty x { p with edge := edge, lastv := lastv } := ⟨h.w, h.duty, h.phase⟩

theorem Oscillator.setPhase (h : Oscillator w duty x p) (y lastv : Rat) :
    Oscillator w duty y { p with phase := y, lastv := lastv } := ⟨h.w, h.duty, rfl⟩

theorem Oscillator.emit (h : Oscillator w duty x p) (i : Nat) (so : Rat) :
    Oscillator w duty x (emitSync exactOps p i so) := ⟨h.w, h.duty, h.phase⟩

section
variable (hw : w ≠ 0)
include hw

theorem injectStep_answers (h : Oscillator w duty x p) (phi m : Rat) :
    Answers (injectStep exactOps phi m p) (Oscillator w duty x) := by
  obtain ⟨q, hq, hp⟩ := injectStep_exact (phi := phi) (m := m) (p := p) (by rw [h.w]; exact hw)
  exact ⟨q, hq, h.of_only hp.effect.only⟩

theorem injectSlope_answers (h : Oscillator w duty x p) (phi m : Rat) :
    Answers (injectSlope exactOps phi m p) (Oscillator w duty x) := by
  obtain ⟨q, hq, hp⟩ := injectSlope_exact (phi := phi) (m := m) (p := p) (by rw [h.w]; exact hw)
  exact ⟨q, hq, h.of_only hp.effect.only⟩

theorem wrapSync_answers (phase : Rat) : Answers (wrapSync exactOps phase w) fun _ => True := by
  simp only [wrapSync, exact_div hw, ok_bind]
  exact .ok trivial

/-! ## Detectors (R162 to R164) -/

theorem detsRule_answers (h : Oscillator w duty x p) (i : Nat) :
    Answers (detsRule exactOps i p) (Oscillator w duty (wrapped x)) := by
  obtain ⟨rfl, rfl, rfl⟩ := h
  simp only [detsRule, exact_ge, exact_sub, exact_one, exact_half, ok_bind, decide_eq_true_eq, wrapped]
  split
  · refine (wrapSync_answers hw _).bind fun so _ => ?_
    refine (injectStep_answers hw ((Oscillator.self p).setPhase _ p.lastv) _ _).bind fun q hq => ?_
    exact .ok ((hq.emit i so).set _ _)
  · exact .ok (((Oscillator.self p).emit i _).set _ _)

theorem rectFall_answers (h : Oscillator w duty x p) (phi : Rat) :
    Answers (rectFall exactOps phi p) (Oscillator w duty x) :=
  (injectStep_answers hw h _ _).bind fun _ hq => .ok (hq.set _ _)

theorem rectRise_answers (h : Oscillator w duty x p) (phi : Rat) :
    Answers (rectRise exactOps phi p) (Oscillator w duty x) :=
  (injectStep_answers hw h _ _).bind fun _ hq => .ok (hq.set _ _)

theorem rectFallTest_answers (h : Oscillator w duty x p) :
    Answers (rectFallTest exactOps p) (Oscillator w duty x) := by
  simp only [rectFallTest, exact_ge, exact_sub, ok_bind]
  split
  · exact rectFall_answers hw h _
  · exact .ok h

theorem rectWrapTest_answers (h : Oscillator w duty x p) :
    Answers (rectWrapTest exactOps p) fun r => Oscillator w duty (wrapped x) r.2 := by
  obtain ⟨rfl, rfl, rfl⟩ := h
  simp only [rectWrapTest, exact_ge, exact_sub, exact_one, ok_bind, decide_eq_true_eq, wrapped]
  split
  · refine (wrapSync_answers hw _).bind fun so _ => ?_
    refine (rectRise_answers hw ((Oscillator.self p).setPhase _ p.lastv) _).bind fun q hq => ?_
    exact .ok hq
  · exact .ok (Oscillator.self p)

theorem detrRule_answers (h : Oscillator w duty x p) (i : Nat) :
    Answers (detrRule exactOps i p) (Oscillator w duty (wrapped x)) := by
  unfold detrRule
  split
  · refine (rectFallTest_answers hw h).bind fun q hq => ?_
    exact (rectWrapTest_answers hw hq).bind fun r hr => .ok (hr.emit i _)
  · refine (rectWrapTest_answers hw h).bind fun r hr => ?_
    dsimp only
    split
    · exact (rectFallTest_answers hw hr).bind fun q hq => .ok (hq.emit i _)
    · exact .ok (hr.emit i _)

/-! ## Triangle (R164, R165) -/

omit hw in
theorem vrise_answers {d : Rat} (hd : d ≠ 0) (y : Rat) : Answers (vrise exactOps d y) fun _ => True := by
  simp only [vrise, exact_div hd, ok_bind]
  exact .ok trivial

omit hw in
theorem vfall_answers {b1 : Rat} (hb : b1 ≠ 0) (d y : Rat) : Answers (vfall exactOps d b1 y) fun _ => True := by
  simp only [vfall, exact_sub, exact_div hb, ok_bind]
  exact .ok trivial

omit hw in
theorem triConsts_answers {d : Rat} (h0 : d ≠ 0) (h1 : d ≠ 1) : Answers (triConsts exactOps d) fun c => c.b1 ≠ 0 := by
  have hb : 1 - d ≠ 0 := sub_ne_zero.2 h1.symm
  simp only [triConsts, exact_sub, exact_one, exact_div h0, exact_div hb, exact_add, ok_bind]
  exact .ok hb

theorem triBreakTest_answers {c : TriConsts Rat} (hb : c.b1 ≠ 0) (h : Oscillator w duty x p) :
    Answers (triBreakTest exactOps c p) (Oscillator w duty x) := by
  simp only [triBreakTest, exact_ge, exact_sub, ok_bind]
  split
  · refine (vfall_answers hb _ _).bind fun v _ => ?_
    exact (injectSlope_answers hw (h.set p.edge v) _ _).bind fun q hq => .ok (hq.set _ q.lastv)
  · exact .ok h

theorem triWrapTest_answers (c : TriConsts Rat) (hd : duty ≠ 0) (h : Oscillator w duty x p) :
    Answers (triWrapTest exactOps c p) fun r => Oscillator w duty (wrapped x) r.2 := by
  obtain ⟨rfl, rfl, rfl⟩ := h
  simp only [triWrapTest, exact_ge, exact_sub, exact_one, ok_bind, decide_eq_true_eq, wrapped]
  split
  · refine (wrapSync_answers hw _).bind fun so _ => ?_
    refine (vrise_answers hd _).bind fun v _ => ?_
    refine (injectSlope_answers hw ((Oscillator.self p).setPhase _ v) _ _).bind fun q hq => ?_
    exact .ok (hq.set _ q.lastv)
  · exact .ok (Oscillator.self p)

theorem dettRule_answers (h0 : duty ≠ 0) (h1 : duty ≠ 1) (h : Oscillator w duty x p) (i : Nat) :
    Answers (dettRule exactOps i p) (Oscillator w duty (wrapped x)) := by
  refine (triConsts_answers (h.duty ▸ h0) (h.duty ▸ h1)).bind fun c hb => ?_
  split
  · refine (vrise_answers (h.duty ▸ h0) _).bind fun v _ => ?_
    refine (triBreakTest_answers hw hb (h.set p.edge v)).bind fun q hq => ?_
    exact (triWrapTest_answers hw c h0 hq).bind fun r hr => .ok (hr.emit i _)
  · refine (vfall_answers hb _ _).bind fun v _ => ?_
    refine (triWrapTest_answers hw c h0 (h.set p.edge v)).bind fun r hr => ?_
    dsimp only
    split
    · exact (triBreakTest_answers hw hb hr).bind fun q hq => .ok (hq.emit i _)
    · exact .ok (hr.emit i _)

/-! ## Hard sync (R181 to R184): the phase becomes `eof` -/

omit hw in
theorem syncStart_answers (h : Oscillator w duty x p) (i : Nat) :
    Answers (syncStart exactOps p i) fun y => y.eof = refEof (sampleWord exactOps p .syncIn i) w := by
  obtain ⟨rfl, rfl, rfl⟩ := h
  simp only [syncStart, exact_sub, exact_mul, ok_bind]
  exact .ok rfl

theorem sawCatchUp_answers (h : Oscillator w duty x p) (eof par : Rat) :
    Answers (sawCatchUp exactOps eof par p) fun r => Oscillator w duty x r.2 := by
  simp only [sawCatchUp, exact_ge, exact_sub, exact_add, ok_bind]
  split
  · exact (injectStep_answers hw h _ _).bind fun q hq => .ok hq
  · exact .ok h

theorem synsRule_answers (h : Oscillator w duty x p) (i : Nat) :
    Answers (synsRule exactOps i p) (Oscillator w duty (refEof (sampleWord exactOps p .syncIn i) w)) := by
  refine (syncStart_answers h i).bind fun y hy => ?_
  rw [← hy]
  refine (sawCatchUp_answers hw (h.setPhase y.eof p.lastv) _ _).bind fun r hr => ?_
  exact (injectStep_answers hw hr _ _).bind fun q hq => .ok ((hq.emit i _).set _ _)

theorem rectCatchFall_answers (h : Oscillator w duty x p) (eof par : Rat) :
    Answers (rectCatchFall exactOps eof par p) (Oscillator w duty x) := by
  simp only [rectCatchFall, exact_ge, exact_sub, exact_add, ok_bind]
  split
  · exact rectFall_answers hw h _
  · exact .ok h

theorem rectCatchWrap_answers (h : Oscillator w duty x p) (eof par : Rat) :
    Answers (rectCatchWrap exactOps eof par p) fun r => Oscillator w duty x r.2 := by
  simp only [rectCatchWrap, exact_ge, exact_sub, exact_add, ok_bind]
  split
  · exact (rectRise_answers hw h _).bind fun q hq => .ok hq
  · exact .ok h

theorem rectCatchUp_answers (h : Oscillator w duty x p) (eof par : Rat) :
    Answers (rectCatchUp exactOps eof par p) (Oscillator w duty x) := by
  unfold rectCatchUp
  split
  · refine (rectCatchFall_answers hw h _ _).bind fun q hq => ?_
    exact (rectCatchWrap_answers hw hq _ _).bind fun r hr => .ok hr
  · refine (rectCatchWrap_answers hw h _ _).bind fun r hr => ?_
    dsimp only
    split
    · exact rectCatchFall_answers hw hr _ _
    · exact .ok hr

theorem rectResetRise_answers (h : Oscillator w duty x p) :
    Answers (rectResetRise exactOps p) (Oscillator w duty x) := by
  unfold rectResetRise
  split
  · exact .ok h
  · exact rectRise_answers hw h _

theorem synrRule_answers (h : Oscillator w duty x p) (i : Nat) :
    Answers (synrRule exactOps i p) (Oscillator w duty (refEof (sampleWord exactOps p .syncIn i) w)) := by
  refine (syncStart_answers h i).bind fun y hy => ?_
  rw [← hy]
  refine (rectCatchUp_answers hw (h.setPhase y.eof p.lastv) _ _).bind fun q hq => ?_
  refine (rectResetRise_answers hw hq).bind fun r hr => ?_
  exact (rectFallTest_answers hw hr).bind fun t ht => .ok (ht.emit i _)

theorem triCatchBreak_answers {c : TriConsts Rat} (hb : c.b1 ≠ 0) (h : Oscillator w duty x p) (eof par v : Rat) :
    Answers (triCatchBreak exactOps c eof par v p) fun r => Oscillator w duty x r.2 := by
  simp only [triCatchBreak, exact_ge, exact_sub, exact_add, ok_bind]
  split
  · refine (vfall_answers hb _ _).bind fun v _ => ?_
    exact (injectSlope_answers hw h _ _).bind fun q hq => .ok (hq.set _ q.lastv)
  · exact .ok h

theorem triCatchWrap_answers (c : TriConsts Rat) (hd : duty ≠ 0) (h : Oscillator w duty x p) (eof par v : Rat) :
    Answers (triCatchWrap exactOps c eof par v p) fun r => Oscillator w duty x r.2.2 := by
  simp only [triCatchWrap, exact_ge, exact_sub, exact_add, ok_bind]
  split
  · refine (vrise_answers (h.duty ▸ hd) _).bind fun v _ => ?_
    exact (injectSlope_answers hw h _ _).bind fun q hq => .ok (hq.set _ q.lastv)
  · exact .ok h

theorem triCatchUp_answers {c : TriConsts Rat} (hd : duty ≠ 0) (hb : c.b1 ≠ 0) (h : Oscillator w duty x p)
    (eof par : Rat) : Answers (triCatchUp exactOps c eof par p) fun r => Oscillator w duty x r.2 := by
  unfold triCatchUp
  split
  · refine (vrise_answers (h.duty ▸ hd) _).bind fun v _ => ?_
    refine (triCatchBreak_answers hw hb h _ _ _).bind fun q hq => ?_
    exact (triCatchWrap_answers hw c hd hq _ _ _).bind fun r hr => .ok hr
  · refine (vfall_answers hb _ _).bind fun v _ => ?_
    refine (triCatchWrap_answers hw c hd h _ _ _).bind fun r hr => ?_
    dsimp only
    split
    · exact triCatchBreak_answers hw hb hr _ _ _
    · exact .ok hr

theorem triResetSlope_answers (c : TriConsts Rat) (h : Oscillator w duty x p) :
    Answers (triResetSlope exactOps c p) (Oscillator w duty x) := by
  unfold triResetSlope
  split
  · exact .ok h
  · exact injectSlope_answers hw h _ _

theorem triResetBreak_answers {c : TriConsts Rat} (hb : c.b1 ≠ 0) (h : Oscillator w duty x p) (v : Rat) :
    Answers (triResetBreak exactOps c v p) fun r => Oscillator w duty x r.2 := by
  simp only [triResetBreak, exact_ge, exact_sub, ok_bind]
  split
  · refine (vfall_answers hb _ _).bind fun v _ => ?_
    exact (injectSlope_answers hw h _ _).bind fun q hq => .ok (hq.set _ q.lastv)
  · exact .ok h

theorem triResetPass_answers {c : TriConsts Rat} (hd : duty ≠ 0) (hb : c.b1 ≠ 0) (h : Oscillator w duty x p)
    (v : Rat) : Answers (triResetPass exactOps c v p) (Oscillator w duty x) := by
  refine (triResetSlope_answers hw c h).bind fun q hq => ?_
  simp only [exact_sub, ok_bind]
  refine (injectStep_answers hw hq _ _).bind fun r hr => ?_
  refine (vrise_answers (hr.duty ▸ hd) _).bind fun v _ => ?_
  exact (triResetBreak_answers hw hb (hr.set .a r.lastv) v).bind fun t ht => .ok (ht.set t.2.edge _)

theorem syntRule_answers (h0 : duty ≠ 0) (h1 : duty ≠ 1) (h : Oscillator w duty x p) (i : Nat) :
    Answers (syntRule exactOps i p) (Oscillator w duty (refEof (sampleWord exactOps p .syncIn i) w)) := by
  refine (triConsts_answers (h.duty ▸ h0) (h.duty ▸ h1)).bind fun c hb => ?_
  refine (syncStart_answers h i).bind fun y hy => ?_
  rw [← hy]
  refine (triCatchUp_answers hw h0 hb (h.setPhase y.eof p.lastv) _ _).bind fun r hr => ?_
  exact (triResetPass_answers hw h0 hb hr _).bind fun t ht => .ok (ht.emit i _)

end

end Sys2Proof.Machine
end

section
/-! PROOFS. Under EXACT a block completes and keeps the ranges of R48: a sample, a chunk, then the block (R132, R142). -/

namespace Sys2Proof.Machine

variable {p q : Pabli Rat}

/-! ## Ramps, and the range of the increment and the duty -/

/-- A ramp keeps an order that holds at both of its ends. -/
theorem ramp_le_ramp {a0 a1 b0 b1 : Rat} {k c : Nat} (h0 : a0 ≤ b0) (h1 : a1 ≤ b1) (hk : k ≤ c) (hc : 0 < c) :
    a0 + k * ((a1 - a0) / c) ≤ b0 + k * ((b1 - b0) / c) := by
  have hc' : (0 : Rat) < c := by exact_mod_cast hc
  have hk' : (k : Rat) ≤ c := by exact_mod_cast hk
  have mix (x y : Rat) : x + k * ((y - x) / c) = (1 - k / c) * x + k / c * y := by
    field_simp
    ring
  have hl : 0 ≤ (k : Rat) / c := by positivity
  have hr : 0 ≤ 1 - (k : Rat) / c := sub_nonneg.2 ((div_le_one hc').2 hk')
  rw [mix, mix]
  exact add_le_add (mul_le_mul_of_nonneg_left h0 hr) (mul_le_mul_of_nonneg_left h1 hl)

/-- One more addition of a ramp. -/
theorem ramp_succ (x d : Rat) (k : Nat) : x + k * d + d = x + (k + 1 : Nat) * d := by
  push_cast
  ring

/-- R48 (a) and (b): the increment between its limits, and the duty, which SAW does not use, between it and its
complement. -/
structure InRange (shape : Shape) (w duty : Rat) : Prop where
  increment : Config.wMin ≤ w ∧ w ≤ Config.wMax
  duty : shape ≠ .saw → w ≤ duty ∧ duty ≤ 1 - w

namespace InRange

variable {shape : Shape} {w w0 w1 d d0 d1 : Rat}

theorem pos (h : InRange shape w d) : 0 < w := lt_of_lt_of_le (by norm_num [Config.wMin]) h.increment.1

theorem le_half (h : InRange shape w d) : w ≤ 1 / 2 := h.increment.2

theorem tri_duty (h : InRange shape w d) (hs : shape = .tri) : d ≠ 0 ∧ d ≠ 1 := by
  obtain ⟨hlo, hhi⟩ := h.duty (by rw [hs]; decide)
  have hpos := h.pos
  constructor <;> rintro rfl <;> linarith

/-- The ranges are convex: a ramp between two points of them stays inside (R136, R137). -/
theorem ramp {k c : Nat} (h0 : InRange shape w0 d0) (h1 : InRange shape w1 d1) (hk : k ≤ c) (hc : 0 < c) :
    InRange shape (w0 + k * ((w1 - w0) / c)) (d0 + k * ((d1 - d0) / c)) := by
  refine ⟨⟨?_, ?_⟩, fun hs => ⟨ramp_le_ramp (h0.duty hs).1 (h1.duty hs).1 hk hc, ?_⟩⟩
  · have hlo := ramp_le_ramp h0.increment.1 h1.increment.1 hk hc
    rwa [sub_self, zero_div, mul_zero, add_zero] at hlo
  · have hhi := ramp_le_ramp h0.increment.2 h1.increment.2 hk hc
    rwa [sub_self (Config.wMax), zero_div, mul_zero, add_zero] at hhi
  · have hhi := ramp_le_ramp (h0.duty hs).2 (h1.duty hs).2 hk hc
    calc d0 + k * ((d1 - d0) / c) ≤ 1 - w0 + k * ((1 - w1 - (1 - w0)) / c) := hhi
      _ = 1 - (w0 + k * ((w1 - w0) / c)) := by ring

/-- Under SAW the duty does not matter. -/
theorem saw (h : InRange .saw w d0) (d : Rat) : InRange .saw w d := ⟨h.increment, fun hs => absurd rfl hs⟩

end InRange

/-! ## One sample -/

/-- The phase after a wrap lies in the cycle (R48 (c)). -/
theorem wrapped_mem {x : Rat} (h0 : 0 ≤ x) (h2 : x < 2) : 0 ≤ wrapped x ∧ wrapped x < 1 := by
  unfold wrapped
  split <;> constructor <;> linarith

/-- A well-formed sync event puts the phase into the cycle (R143, R181). -/
theorem refEof_mem {s w : Rat} (hs : Config.eps ≤ s) (hok : SyncWordOk s) (h0 : 0 < w) (h1 : w ≤ 1 / 2) :
    0 ≤ refEof s w ∧ refEof s w < 1 := by
  unfold SyncWordOk at hok
  have hlo : 0 ≤ s - Config.eps := by linarith
  have hhi : s - Config.eps < 1 := by linarith
  unfold refEof
  constructor <;> nlinarith

theorem handleRule_answers {i : Nat} (hr : InRange p.shape p.w p.duty) (h0 : 0 ≤ p.phase) (h2 : p.phase < 2)
    (hs : SyncWordOk (sampleWord exactOps p .syncIn i)) :
    Answers (handleRule exactOps i p) fun q => 0 ≤ q.phase ∧ q.phase < 1 := by
  have hw : p.w ≠ 0 := ne_of_gt hr.pos
  have hp := Oscillator.self p
  simp only [handleRule, exact_ge, exact_eps, ok_bind, decide_eq_true_eq]
  split
  · rename_i he
    have hmem := refEof_mem he hs hr.pos hr.le_half
    have hfinal : Answers (syncRule exactOps i p)
        (Oscillator p.w p.duty (refEof (sampleWord exactOps p .syncIn i) p.w)) := by
      unfold syncRule
      split
      · exact synsRule_answers hw hp i
      · exact synrRule_answers hw hp i
      · obtain ⟨hd0, hd1⟩ := hr.tri_duty (by assumption)
        exact syntRule_answers hw hd0 hd1 hp i
    exact hfinal.mono fun q hq => by rw [hq.phase]; exact hmem
  · have hmem := wrapped_mem h0 h2
    have hfinal : Answers (detectRule exactOps i p) (Oscillator p.w p.duty (wrapped p.phase)) := by
      unfold detectRule
      split
      · exact detsRule_answers hw hp i
      · exact detrRule_answers hw hp i
      · obtain ⟨hd0, hd1⟩ := hr.tri_duty (by assumption)
        exact dettRule_answers hw hd0 hd1 hp i
    exact hfinal.mono fun q hq => by rw [hq.phase]; exact hmem

theorem rampRule_answers (p : Pabli Rat) :
    Answers (rampRule exactOps p) fun q => q = { p with w := p.w + p.dw, duty := p.duty + p.db } := by
  simp only [rampRule, exact_add, ok_bind]
  exact .ok rfl

theorem advRule_answers (p : Pabli Rat) :
    Answers (advRule exactOps p) fun q => q = { p with phase := p.phase + p.w } := by
  simp only [advRule, exact_add, ok_bind]
  exact .ok rfl

theorem depRule_answers (p : Pabli Rat) : Answers (depRule exactOps p) fun q => q.phase = p.phase := by
  simp only [depRule, bufAdd, exact_add, ok_bind]
  exact .ok rfl

theorem rdsRule_answers (i : Nat) (p : Pabli Rat) : Answers (rdsRule exactOps i p) fun q => q.phase = p.phase := by
  simp only [rdsRule, exact_sub, exact_mul, exact_add, ok_bind]
  exact .ok rfl

theorem copyTail_answers (p : Pabli Rat) (count : Nat) : Answers (copyTail exactOps p count) fun _ => True := by
  induction count with
  | zero => exact .ok trivial
  | succ n ih => exact ih.bind fun q _ => .ok trivial

theorem rotRule_answers (p : Pabli Rat) : Answers (rotRule exactOps p) fun q => q.phase = p.phase := by
  have hok : Answers (rotRule exactOps p) fun _ => True := by
    unfold rotRule
    split
    · exact .ok trivial
    · exact (copyTail_answers p _).bind fun q _ => .ok trivial
  obtain ⟨q, hq, -⟩ := hok
  obtain ⟨honly, -⟩ := rotRule_ok exactOps_zeroLaw hq
  exact ⟨q, hq, by rw [honly]⟩

/-- A sample completes and ends inside the cycle when its ramp ends in the ranges (R142, R48 (c)). -/
theorem tickRule_answers {i : Nat} (hr : InRange p.shape (p.w + p.dw) (p.duty + p.db)) (h0 : 0 ≤ p.phase)
    (h1 : p.phase < 1) (hs : SyncWordOk (readWord exactOps p (wordAddr .syncIn i))) :
    Answers (tickRule exactOps i p) fun q => 0 ≤ q.phase ∧ q.phase < 1 := by
  refine (rampRule_answers p).bind fun p1 e1 => (advRule_answers p1).bind fun p2 e2 => ?_
  have hr2 : InRange p2.shape p2.w p2.duty := by
    rw [e2, e1]
    exact hr
  have hphase : p2.phase = p.phase + p2.w := by rw [e2, e1]
  have hs2 : SyncWordOk (sampleWord exactOps p2 .syncIn i) := by
    rw [sampleWord, readWord_congr exactOps (p := p) (by rw [e2, e1]) (by rw [e2, e1])]
    exact hs
  have hpos := hr2.pos
  have hhalf := hr2.le_half
  refine (handleRule_answers hr2 (by linarith) (by linarith) hs2).bind fun p3 h3 => ?_
  refine (depRule_answers p3).bind fun p4 h4 => ?_
  refine (rdsRule_answers i p4).bind fun p5 h5 => ?_
  refine (rotRule_answers p5).mono fun q hq => ?_
  rw [hq, h5, h4]
  exact h3

/-! ## The samples of a chunk -/

/-- The input RAMs keep their words through a block (R44). -/
theorem LoopEffect.syncIn_kept {n i : Nat} (h : LoopEffect exactOps (RunCells n) p q) (hn : n ≤ 1024) (hi : i < n) :
    readWord exactOps q (wordAddr .syncIn i) = readWord exactOps p (wordAddr .syncIn i) := by
  refine h.kept _ (input_not_runCells (.inr (.inl ?_)) hn)
  simp only [inRegion, Bool.and_eq_true, decide_eq_true_eq]
  simp only [wordAddr, regionBase, regionWords]
  omega

/-- `q` is `p` after `k` samples of one chunk. -/
structure Ticked (p q : Pabli Rat) (k : Nat) : Prop where
  w : q.w = p.w + k * p.dw
  duty : q.duty = p.duty + k * p.db
  steps : q.dw = p.dw ∧ q.db = p.db
  phase : 0 ≤ q.phase ∧ q.phase < 1
  init : q.init = p.init
  cursor : q.j.val = (p.j.val + k) % 256

theorem Ticked.next {r : Pabli Rat} {k i : Nat} (h : Ticked p q k) (hi : i < 1024) (ht : tickRule exactOps i q = .ok r)
    (hphase : 0 ≤ r.phase ∧ r.phase < 1) : Ticked p r (k + 1) := by
  obtain ⟨hw, hduty, hj, -, -, hdw, hdb, hinit⟩ := tickRule_registers exactOps_zeroLaw hi ht
  rw [exact_add, Except.ok.injEq] at hw hduty
  refine ⟨?_, ?_, ⟨hdw.trans h.steps.1, hdb.trans h.steps.2⟩, hphase, hinit.trans h.init, ?_⟩
  · rw [← hw, h.w, h.steps.1, ramp_succ]
  · rw [← hduty, h.duty, h.steps.2, ramp_succ]
  · rw [hj, h.cursor]
    omega

theorem tickRange_answers {first count n : Nat} (hf : first + count ≤ n) (hn : n ≤ 1024)
    (hphase : 0 ≤ p.phase ∧ p.phase < 1)
    (hs : ∀ i, i < n → SyncWordOk (readWord exactOps p (wordAddr .syncIn i)))
    (hr : ∀ k : Nat, k ≤ count → InRange p.shape (p.w + k * p.dw) (p.duty + k * p.db)) :
    Answers (tickRange exactOps first p count) fun q => Ticked p q count := by
  induction count with
  | zero =>
    refine .ok ⟨by simp, by simp, ⟨rfl, rfl⟩, hphase, rfl, ?_⟩
    have hj : p.j.val < 256 := p.j.isLt
    omega
  | succ c ih =>
    obtain ⟨q, hq, ht⟩ := ih (by omega) fun k hk => hr k (by omega)
    have hloop := tickRange_ok exactOps_zeroLaw (by omega) hn hq
    have hnext : InRange q.shape (q.w + q.dw) (q.duty + q.db) := by
      rw [hloop.shape, ht.w, ht.duty, ht.steps.1, ht.steps.2, ramp_succ, ramp_succ]
      exact hr (c + 1) le_rfl
    have hsync : SyncWordOk (readWord exactOps q (wordAddr .syncIn (first + c))) := by
      rw [hloop.syncIn_kept hn (by omega)]
      exact hs _ (by omega)
    obtain ⟨r, hr', hphase'⟩ := tickRule_answers hnext ht.phase.1 ht.phase.2 hsync
    refine ⟨r, ?_, ht.next (by omega) hr' hphase'⟩
    rw [tickRange, hq, ok_bind, hr']

/-! ## Targets (R133, R135, R136) -/

theorem targetIncrement_answers (hf : p.fsamp ≠ 0) (i : Nat) :
    Answers (targetIncrement exactOps p i) fun t => Config.wMin ≤ t ∧ t ≤ Config.wMax := by
  simp only [targetIncrement, exact_div hf, ok_bind]
  exact ⟨_, clamp_exact _ _ _, clamp_exact_mem (by norm_num [Config.wMin, Config.wMax]) (clamp_exact _ _ _)⟩

theorem targetDuty_answers {t : Rat} (ht : t ≤ Config.wMax) (i : Nat) :
    Answers (targetDuty exactOps p i t) fun d => t ≤ d ∧ d ≤ 1 - t := by
  have hle : t ≤ 1 - t := by
    have hhalf : t ≤ 1 / 2 := ht
    linarith
  simp only [targetDuty, exact_sub, exact_one, ok_bind]
  exact ⟨_, clamp_exact _ _ _, clamp_exact_mem hle (clamp_exact _ _ _)⟩

theorem rampIncrement_exact (target now : Rat) {c : Nat} (hc : 0 < c) :
    rampIncrement exactOps target now c = .ok ((target - now) / c) := by
  have hc' : (((c : Int) : Rat)) ≠ 0 := by exact_mod_cast hc.ne'
  simp only [rampIncrement, exact_sub, exact_i2n, ok_bind, exact_div hc']
  norm_cast

/-- `SMOOTH` sets out for a point of the ranges, so that each step of its ramp is in them (R136). -/
theorem smoothRule_answers {c : Nat} (hc : 0 < c) (i : Nat) (hf : p.fsamp ≠ 0) (hr : InRange p.shape p.w p.duty) :
    Answers (smoothRule exactOps c i p) fun q => ∃ dw db, q = { p with dw := dw, db := db } ∧
      ∀ k : Nat, k ≤ c → InRange p.shape (p.w + k * dw) (p.duty + k * db) := by
  refine (targetIncrement_answers hf i).bind fun t ht => ?_
  rw [rampIncrement_exact t p.w hc]
  suffices hdb : Answers (dutyIncrement exactOps c i t p) fun db =>
      ∀ k : Nat, k ≤ c → InRange p.shape (p.w + k * ((t - p.w) / c)) (p.duty + k * db) from
    hdb.bind fun db h => .ok ⟨_, db, rfl, h⟩
  have hduty : Answers (targetDuty exactOps p i t >>= fun tb => rampIncrement exactOps tb p.duty c)
      fun db => ∀ k : Nat, k ≤ c → InRange p.shape (p.w + k * ((t - p.w) / c)) (p.duty + k * db) := by
    refine (targetDuty_answers ht.2 i).bind fun tb htb => ?_
    rw [rampIncrement_exact tb p.duty hc]
    exact .ok fun k hk => hr.ramp ⟨ht, fun _ => htb⟩ hk hc
  unfold dutyIncrement
  split
  · rename_i hs
    rw [hs] at hr ⊢
    refine .ok fun k hk => ?_
    exact (hr.ramp (d1 := p.duty) ⟨ht, fun h => absurd rfl h⟩ hk hc).saw _
  · exact hduty
  · exact hduty

/-! ## Chunks and the block (R132) -/

/-- What the first `n` samples of a block need of the state they start from. -/
structure Runnable (n : Nat) (p : Pabli Rat) : Prop where
  range : InRange p.shape p.w p.duty
  phase : 0 ≤ p.phase ∧ p.phase < 1
  fsamp : p.fsamp ≠ 0
  sync : ∀ i, i < n → SyncWordOk (readWord exactOps p (wordAddr .syncIn i))

/-- `q` is `p` after `k` samples of a block, ready for more of its `n`. -/
structure Advanced (n : Nat) (p q : Pabli Rat) (k : Nat) : Prop where
  runnable : Runnable n q
  init : q.init = p.init
  cursor : q.j.val = (p.j.val + k) % 256

theorem chunkRule_answers {base c n : Nat} (hb : base + c ≤ n) (hn : n ≤ 1024) (hc : 0 < c) (hp : Runnable n p) :
    Answers (chunkRule exactOps base c p) fun q => Advanced n p q c := by
  obtain ⟨r, hr, dw, db, rfl, hramp⟩ := smoothRule_answers hc (base + c - 1) hp.fsamp hp.range
  obtain ⟨q, hq, ht⟩ := tickRange_answers hb hn (p := { p with dw := dw, db := db }) hp.phase hp.sync hramp
  have hloop := tickRange_ok exactOps_zeroLaw hb hn hq
  refine ⟨q, by rw [chunkRule, hr, ok_bind, hq], ⟨?_, ht.phase, ?_, fun i hi => ?_⟩, ht.init, ht.cursor⟩
  · rw [hloop.shape, ht.w, ht.duty]
    exact hramp c le_rfl
  · rw [hloop.only]
    exact hp.fsamp
  · rw [hloop.syncIn_kept hn hi]
    exact hp.sync i hi

theorem chunksFrom_answers {rounds base left n : Nat} (hl : left ≤ rounds) (hb : base + left ≤ n) (hn : n ≤ 1024)
    (hp : Runnable n p) : Answers (chunksFrom exactOps rounds base left p) fun q => Advanced n p q left := by
  have hj : p.j.val < 256 := p.j.isLt
  induction rounds generalizing base left p with
  | zero =>
    obtain rfl : left = 0 := by omega
    exact .ok ⟨hp, rfl, by omega⟩
  | succ m ih =>
    unfold chunksFrom
    split
    · rename_i h0
      exact .ok ⟨hp, rfl, by omega⟩
    · have hmin : 0 < min Config.chunk left ∧ min Config.chunk left ≤ left := by
        have : Config.chunk = 16 := rfl
        omega
      generalize min Config.chunk left = c at hmin
      refine (chunkRule_answers (by omega) hn hmin.1 hp).bind fun q hq => ?_
      refine (ih (by omega) (by omega) hq.runnable q.j.isLt).mono fun r hr => ⟨hr.runnable, hr.init.trans hq.init, ?_⟩
      rw [hr.cursor, hq.cursor]
      omega

theorem coefRule_answers (p : Pabli Rat) : Answers (coefRule exactOps p) fun q => ∃ a, q = { p with a := a } := by
  simp only [coefRule, exact_mul, exact_add, ok_bind]
  exact .ok ⟨_, rfl⟩

/-- `BOOT` puts the oscillator into its ranges (R135). -/
theorem bootRule_answers (i : Nat) (hf : p.fsamp ≠ 0) :
    Answers (bootRule exactOps i p) fun q => InRange q.shape q.w q.duty ∧ 0 ≤ q.phase ∧ q.phase < 1 := by
  refine (targetIncrement_answers hf i).bind fun t ht => ?_
  have hpos : 0 < t := lt_of_lt_of_le (by norm_num [Config.wMin]) ht.1
  suffices hshape : Answers (bootShape exactOps i { p with w := t, dw := 0, db := 0, edge := .a })
      fun q => InRange q.shape q.w q.duty ∧ 0 ≤ q.phase ∧ q.phase < 1 from
    hshape.bind fun q hq => .ok hq
  unfold bootShape
  split
  · rename_i hs
    exact .ok ⟨⟨ht, fun h => absurd hs h⟩, by norm_num, by norm_num⟩
  · refine (targetDuty_answers ht.2 i).bind fun d hd => ?_
    exact .ok ⟨⟨ht, fun _ => hd⟩, by norm_num, by norm_num⟩
  · refine (targetDuty_answers ht.2 i).bind fun d hd => ?_
    simp only [exact_half, exact_mul, ok_bind]
    exact .ok ⟨⟨ht, fun _ => hd⟩, by simp only; linarith, by simp only; linarith⟩

theorem bootIfNeeded_answers {n : Nat} (hf : p.fsamp ≠ 0)
    (hinit : p.init = true → InRange p.shape p.w p.duty ∧ 0 ≤ p.phase ∧ p.phase < 1)
    (hs : ∀ i, i < n → SyncWordOk (readWord exactOps p (wordAddr .syncIn i))) :
    Answers (bootIfNeeded exactOps p) fun q => Runnable n q ∧ q.init = true ∧ q.j = p.j := by
  unfold bootIfNeeded
  split
  · rename_i hi
    exact .ok ⟨⟨(hinit hi).1, (hinit hi).2, hf, hs⟩, hi, rfl⟩
  · obtain ⟨q, hq, hrange, hphase⟩ := bootRule_answers 0 hf
    obtain ⟨_, _, _, _, rfl, -⟩ := bootRule_ok hq
    exact ⟨_, hq, ⟨hrange, hphase, hf, hs⟩, rfl, rfl⟩

/-- A block of at least one sample completes (R132, R18). -/
theorem runBlock_answers {n : Nat} (h0 : 0 < n) (hn : n ≤ 1024) (hf : p.fsamp ≠ 0)
    (hinit : p.init = true → InRange p.shape p.w p.duty ∧ 0 ≤ p.phase ∧ p.phase < 1)
    (hs : ∀ i, i < n → SyncWordOk (readWord exactOps p (wordAddr .syncIn i))) :
    Answers (runBlock exactOps n p) fun q => Runnable n q ∧ q.init = true ∧ q.j.val = (p.j.val + n) % 256 := by
  rw [runBlock, if_neg h0.ne']
  refine (coefRule_answers p).bind fun p1 ⟨a, hp1⟩ => ?_
  subst hp1
  refine (bootIfNeeded_answers (p := { p with a := a }) hf hinit hs).bind fun q ⟨hq, hqi, hqj⟩ => ?_
  refine (chunksFrom_answers le_rfl (by omega) hn hq).mono fun r hr => ⟨hr.runnable, hr.init.trans hqi, ?_⟩
  rw [hr.cursor, hqj]

/-- Settles O31: the block's samples, one chunk after another, complete inside the ranges; the level of a rectangle and the
silent tail are kept by every block that completes. -/
theorem runKeepsRanges : Obligations.RunKeepsRanges := by
  intro p n h0 hn hf hinit htail hs
  obtain ⟨q, hq, hrun, hqi, hqj⟩ := runBlock_answers h0 hn hf
    (fun hi => ⟨⟨(hinit hi).increment, (hinit hi).duty⟩, (hinit hi).phase⟩) hs
  have hp : LevelTail exactOps p := ⟨fun hi => (hinit hi).level, htail⟩
  obtain ⟨hlevel, hsilent⟩ := runBlock_levelTail exactOps_zeroLaw hn hp hq
  refine ⟨q, ?_, ⟨hrun.range.increment, hrun.range.duty, hrun.phase, hlevel hqi, hsilent⟩, hqi, hqj⟩
  rw [exec_exact (i := .run n) (decide_eq_true hn), ruleOf, hq]
  rfl

end Sys2Proof.Machine
end

section
/-! PROOFS. The bus rules (R61 to R68): which accesses are refused, and what reads and writes of memory words do. -/

namespace Sys2Proof.Machine

variable {Num : Type} {N : NumOps Num} {mk : Pabli Num → State} {p : Pabli Num}

/-! ## Accesses that reach no location (R64, R67) -/

theorem target_none_of_misaligned {addr : BitVec 18} {width : Nat} (h : addr.toNat % 4 ≠ 0 ∨ width ≠ 4) :
    target addr width = none :=
  if_neg fun ⟨halign, hwidth⟩ => h.elim (· halign) (· hwidth)

theorem target_none_of_locate {addr : BitVec 18} (width : Nat) (h : locate addr.toNat = none) :
    target addr width = none := by
  unfold target
  split
  · exact h
  · rfl

/-- Beyond the register window, an address outside every memory is unmapped (R61, R67). -/
theorem locate_none {addr : Nat} (h : 0x48 ≤ addr) (hbuf : ¬ isBufAddr addr = true) (hram : ¬ isRamAddr addr = true)
    (hrom : ¬ isRomAddr addr = true) : locate addr = none := by
  rw [locate_memory h]
  simp [hbuf, hram, hrom]

theorem writeMove_of_target_none (N : NumOps Num) (mk : Pabli Num → Configured) {addr : BitVec 18} {width : Nat}
    (v : BusWord Num) (p : Pabli Num) (hl : target addr width = none) :
    writeMove N mk addr width v p = .done (.next ⟨mk (raiseErr .bus p)⟩) := by
  rw [writeMove, hl]

/-- An idle core ignores a write that reaches no location and raises `ERR(5)`. -/
theorem step_write_no_target :
    BothCores fun _ _ mk => ∀ p addr width v, p.busy = false → target addr width = none →
      step (mk (asked (.write addr width v) p)) = .next (mk (raiseErr .bus p)) := by
  constructor
  · intro p addr width v hp hl
    rw [step_write_exact addr width v hp, writeMove_of_target_none _ _ _ _ hl]
    rfl
  · intro p addr width v hp hl
    rw [step_write_b32 addr width v hp, writeMove_of_target_none _ _ _ _ hl]
    rfl

/-- An idle core answers 0 to a read that reaches no location and raises `ERR(5)`. -/
theorem CoreLaws.read_no_target (laws : CoreLaws N mk) (hp : p.busy = false) {addr : BitVec 18} {width : Nat}
    (hl : target addr width = none) :
    step (mk (asked (.read addr width) p)) = .next (mk { raiseErr .bus p with lastRead := some (.word 0) }) := by
  rw [laws.read addr width p hp, hostRead, hl]

/-- Both kinds of access that reach no location are refused, for any condition under which they reach none. -/
theorem accessRefused {Bad : BitVec 18 → Nat → Prop} (hbad : ∀ addr width, Bad addr width → target addr width = none) :
    BothCores fun _ _ mk => ∀ p addr width v, p.busy = false → Bad addr width →
      step (mk (asked (.read addr width) p)) = .next (mk { raiseErr .bus p with lastRead := some (.word 0) }) ∧
      step (mk (asked (.write addr width v) p)) = .next (mk (raiseErr .bus p)) :=
  ⟨fun p addr width v hp h => ⟨coreLaws_exact.read_no_target hp (hbad addr width h),
      step_write_no_target.1 p addr width v hp (hbad addr width h)⟩,
    fun p addr width v hp h => ⟨coreLaws_b32.read_no_target hp (hbad addr width h),
      step_write_no_target.2 p addr width v hp (hbad addr width h)⟩⟩

/-- Settles O9: a misaligned access, or one of another width than 4, reaches no location. -/
theorem misalignedAccessRefused : Obligations.MisalignedAccessRefused :=
  accessRefused (Bad := fun addr width => addr.toNat % 4 ≠ 0 ∨ width ≠ 4) fun _ _ => target_none_of_misaligned

/-- The holes of the window (R67). -/
def InHole (addr : Nat) : Prop :=
  (0x48 ≤ addr ∧ addr ≤ 0xFF) ∨ (0x100 ≤ addr ∧ addr ≤ 0x7FF) ∨ (0xD20 ≤ addr ∧ addr ≤ 0xFFF) ∨
    (0x6000 ≤ addr ∧ addr ≤ 0xFFFF) ∨ (0x19000 ≤ addr ∧ addr ≤ 0x1FFFF) ∨ (0x24704 ≤ addr ∧ addr ≤ 0x3FFFF)

theorem locate_hole {addr : Nat} (h : InHole addr) : locate addr = none := by
  unfold InHole at h
  apply locate_none
  · omega
  · rw [isBufAddr_iff]
    omega
  · rw [isRamAddr_iff]
    omega
  · rw [isRomAddr_iff]
    omega

/-- Settles O10: no location stands in a hole, so every access to one is refused. -/
theorem unmappedAccessRefused : Obligations.UnmappedAccessRefused :=
  have refused := accessRefused (Bad := fun addr _ => InHole addr.toNat)
    fun _ width h => target_none_of_locate width (locate_hole h)
  ⟨fun p addr => refused.1 p addr 4, fun p addr => refused.2 p addr 4⟩

/-! ## Words of memory (R61, R65) -/

namespace CoreLaws

theorem write_cell (laws : CoreLaws N mk) (x : Num) (hp : p.busy = false) {addr : BitVec 18}
    (h4 : addr.toNat % 4 = 0) (h : isBufAddr addr.toNat = true ∨ isRamAddr addr.toNat = true) :
    step (mk (asked (.write addr 4 (N.busOfNum x)) p)) = .next (mk (writeWord N p addr.toNat x)) :=
  laws.write hp ((target_aligned h4).trans (locate_cell h)) (by simp) (by rw [busWrite, writeNum, laws.numOfBus])

/-- A write to a table ROM is refused with `ERR(5)`, whatever word the bus carries (R68). -/
theorem write_rom (laws : CoreLaws N mk) (v : BusWord Num) (hp : p.busy = false) {addr : BitVec 18}
    (h4 : addr.toNat % 4 = 0) (h : isRomAddr addr.toNat = true) :
    step (mk (asked (.write addr 4 v) p)) = .next (mk (raiseErr .bus p)) :=
  laws.write hp ((target_aligned h4).trans (locate_rom h)) (by simp) rfl

theorem read_memory (laws : CoreLaws N mk) (hp : p.busy = false) {addr : BitVec 18} (h4 : addr.toNat % 4 = 0)
    (h : isBufAddr addr.toNat = true ∨ isRamAddr addr.toNat = true ∨ isRomAddr addr.toNat = true) :
    step (mk (asked (.read addr 4) p)) =
      .next (mk { p with lastRead := some (N.busOfNum (readWord N p addr.toNat)) }) := by
  rcases or_assoc.2 h with hcell | hrom
  · exact laws.read_location (.cell addr.toNat) hp ((target_aligned h4).trans (locate_cell hcell))
  · exact laws.read_location (.rom addr.toNat) hp ((target_aligned h4).trans (locate_rom hrom))

end CoreLaws

theorem writeWord_onlyMem (hN : ZeroLaw N) (p : Pabli Num) (addr : Nat) (x : Num) :
    OnlyMem N (fun a => a = addr) p (writeWord N p addr x) :=
  ⟨rfl, fun _ hother => readWord_writeWord_other hN p x hother⟩

/-- Settles O13: the write lists the word at its own address only, and a read looks it up. -/
theorem memoryWords : Obligations.MemoryWords :=
  bothCores_of_coreLaws fun _ N _ laws p addr x hp h4 =>
    ⟨fun h => ⟨writeWord N p addr.toNat x, laws.write_cell x hp h4 h, readWord_writeWord_same laws.zero p addr.toNat x,
        writeWord_onlyMem laws.zero p addr.toNat x⟩,
      laws.read_memory hp h4⟩

/-! ## Read-only and write-only locations, illegal register values (R68) -/

/-- A write to `STATUS` leaves the error as it is or clears it (R35). -/
theorem writeStatus_err (w : Word) (p : Pabli Num) :
    ((writeStatus w p).err = p.err ∧ (writeStatus w p).errcode = p.errcode) ∨ (writeStatus w p).err = false := by
  unfold writeStatus
  split
  · exact .inr rfl
  · exact .inl ⟨rfl, rfl⟩

theorem writeCtrl_refused {w : Word} (h : w.extractLsb' 1 31 ≠ 0) (p : Pabli Num) :
    writeCtrl w p = raiseErr .badRegValue p := if_neg h

theorem writeJ_refused {w : Word} (h : 256 ≤ w.toNat) (p : Pabli Num) :
    writeJ w p = raiseErr .badRegValue p := dif_neg (Nat.not_lt.2 h)

theorem writeFlags_refused {w : Word} (h : w.extractLsb' 2 30 ≠ 0) (p : Pabli Num) :
    writeFlags w p = raiseErr .badRegValue p := if_neg h

/-- Settles O14: each access reaches its location, and what a write there does is `writeStatus`, `writeCtrl`, `writeJ` or
`writeFlags`, or the refusal of a ROM write. -/
theorem refusedWrites : Obligations.RefusedWrites := by
  refine ⟨?rom, ?cmd, ?status, ?illegal⟩ <;> refine bothCores_of_coreLaws fun Num N mk laws => ?_
  case rom => exact fun p addr v hp h4 h => laws.write_rom v hp h4 h
  case cmd => exact fun p hp => laws.read_location .cmd hp rfl
  case status => exact fun p w hp => ⟨writeStatus w p, laws.write_status hp w, writeStatus_err w p⟩
  case illegal =>
    intro p w hp
    rw [laws.write_ctrl hp, laws.write_j hp, laws.write_flags hp]
    exact ⟨fun h => by rw [writeCtrl_refused h], fun h => by rw [writeJ_refused h],
      fun h => by rw [writeFlags_refused h]⟩

end Sys2Proof.Machine
end

section
/-! PROOFS. The decoder and the encoder, said once by format (R91): the opcode map gives every opcode its format
(`formatOf`), and a word decodes to a command exactly when it is the command's word (`decode_eq_ok_iff`). -/

namespace Sys2Proof.Machine

/-! ## Formats (R91) -/

/-- The format of a command word, with what its fields are the operands of. -/
inductive Format where
  | formZ (i : Instr)
  | formS (mk : Shape → Instr)
  | formI (mk : BitVec 16 → Instr)
  | formC (mk : BitVec 8 → BitVec 16 → Instr)

/-- The format of an opcode, if it is one of the twenty (R93). -/
def formatOf (op : BitVec 8) : Option Format :=
  match op.toNat with
  | 0x00 => some (.formZ .nop)
  | 0x01 => some (.formS .reset)
  | 0x02 => some (.formI .run)
  | 0x10 => some (.formI .boot)
  | 0x11 => some (.formC .smooth)
  | 0x12 => some (.formI .tick)
  | 0x20 => some (.formZ .adv)
  | 0x21 => some (.formZ .dep)
  | 0x22 => some (.formI .rds)
  | 0x23 => some (.formZ .rot)
  | 0x24 => some (.formZ .ramp)
  | 0x25 => some (.formZ .coef)
  | 0x30 => some (.formZ .injs)
  | 0x31 => some (.formZ .injl)
  | 0x40 => some (.formI .dets)
  | 0x41 => some (.formI .detr)
  | 0x42 => some (.formI .dett)
  | 0x50 => some (.formI .syns)
  | 0x51 => some (.formI .synr)
  | 0x52 => some (.formI .synt)
  | _ => none

namespace Format

/-- The decoder of a format (R91, check 2 of R94). -/
def decode : Format → Word → Except ErrCode Instr
  | .formZ i, w => decodeZ w i
  | .formS mk, w => decodeS w mk
  | .formI mk, w => decodeI w mk
  | .formC mk, w => decodeC w mk

/-- The words that the encoder makes in a format with an opcode, and the commands they stand for. -/
inductive Encodes (op : BitVec 8) : Format → Instr → Word → Prop where
  | formZ (i : Instr) : Encodes op (.formZ i) i (encodeZ op)
  | formS (mk : Shape → Instr) (shape : Shape) : Encodes op (.formS mk) (mk shape) (encodeS op shape)
  | formI (mk : BitVec 16 → Instr) (idx : BitVec 16) : Encodes op (.formI mk) (mk idx) (encodeI op idx)
  | formC (mk : BitVec 8 → BitVec 16 → Instr) (cnt : BitVec 8) (idx : BitVec 16) :
      Encodes op (.formC mk) (mk cnt idx) (encodeC op cnt idx)

/-- The bits below the opcode that a format reserves. -/
def reserved : Format → BitVec 24
  | .formZ _ => BitVec.allOnes 24
  | .formS _ => BitVec.allOnes 22 ++ 0#2
  | .formI _ => BitVec.allOnes 8 ++ 0#16
  | .formC _ => 0#24

/-- Does the format hold a shape code? -/
def hasShape : Format → Bool
  | .formS _ => true
  | _ => false

end Format

/-! ## Fields (R91) -/

theorem word_eq_op_low (c : Word) : c = opField c ++ c.extractLsb' 0 24 := by
  rw [opField, BitVec.extractLsb'_append_extractLsb'_eq_extractLsb' (start₁ := 0) (len₁ := 24) rfl]
  exact BitVec.extractLsb'_eq_self.symm

theorem word_eq_op_shape (c : Word) : c = opField c ++ (c.extractLsb' 2 22 ++ c.extractLsb' 0 2) := by
  rw [BitVec.extractLsb'_append_extractLsb'_eq_extractLsb' (start₁ := 0) (len₁ := 2) rfl]
  exact word_eq_op_low c

theorem reservedS_append (op : BitVec 8) (res : BitVec 22) (code : BitVec 2) :
    (op ++ (res ++ code)).extractLsb' 2 22 = res := by
  apply BitVec.eq_of_toNat_eq
  have hres := res.isLt
  have hcode := code.isLt
  simp only [toNat_extract, toNat_append_add]
  omega

theorem codeS_append (op : BitVec 8) (res : BitVec 22) (code : BitVec 2) :
    (op ++ (res ++ code)).extractLsb' 0 2 = code := by
  apply BitVec.eq_of_toNat_eq
  have hcode := code.isLt
  simp only [toNat_extract, toNat_append_add]
  omega

/-- A word has the match of its opcode under a mask exactly when the bits it masks below the opcode are zero. -/
theorem and_mask_eq_iff (op : BitVec 8) (low mask : BitVec 24) :
    (op ++ low) &&& (0xFF#8 ++ mask) = op ++ 0#24 ↔ low &&& mask = 0#24 := by
  have hop : op &&& 0xFF#8 = op := BitVec.and_allOnes
  rw [BitVec.and_append, hop]
  exact BitVec.append_right_inj op

/-- Under a mask of its high bits alone, a word is zero exactly when these bits are. -/
theorem and_high_eq_zero_iff {n m : Nat} (high : BitVec n) (low : BitVec m) :
    (high ++ low) &&& (BitVec.allOnes n ++ 0#m) = 0#(n + m) ↔ high = 0#n := by
  rw [BitVec.and_append, BitVec.and_allOnes, BitVec.and_zero, ← BitVec.zero_append_zero]
  exact BitVec.append_left_inj _

/-! ## The decoder of each format -/

theorem decodeZ_append (op : BitVec 8) (low : BitVec 24) (i : Instr) :
    decodeZ (op ++ low) i = if low = 0#24 then .ok i else .error .reservedField := by
  rw [decodeZ, BitVec.extractLsb'_append_eq_right, BitVec.ofNat_eq_ofNat]

theorem decodeS_append (op : BitVec 8) (res : BitVec 22) (code : BitVec 2) (mk : Shape → Instr) :
    decodeS (op ++ (res ++ code)) mk =
      if res = 0#22 then (shapeOfCode code).elim (.error .reservedField) (fun shape => .ok (mk shape))
      else .error .reservedField := by
  rw [decodeS, reservedS_append, codeS_append]
  cases shapeOfCode code <;> rfl

theorem decodeI_append (op cnt : BitVec 8) (idx : BitVec 16) (mk : BitVec 16 → Instr) :
    decodeI (op ++ (cnt ++ idx)) mk = if cnt = 0#8 then .ok (mk idx) else .error .reservedField := by
  rw [decodeI, cntField_append, idxField_append, BitVec.ofNat_eq_ofNat]

theorem decodeC_append (op cnt : BitVec 8) (idx : BitVec 16) (mk : BitVec 8 → BitVec 16 → Instr) :
    decodeC (op ++ (cnt ++ idx)) mk = .ok (mk cnt idx) := by
  rw [decodeC, cntField_append, idxField_append]

theorem shapeOfCode_eq_some_iff {code : BitVec 2} {shape : Shape} :
    shapeOfCode code = some shape ↔ codeOfShape shape = code := by
  revert code
  cases shape <;> decide

theorem shapeOfCode_eq_none_iff {code : BitVec 2} : shapeOfCode code = none ↔ code = 3#2 := by
  revert code
  decide

namespace Format

variable {f : Format} {op : BitVec 8} {cmd : Instr} {w : Word}

theorem Encodes.opField_eq (h : f.Encodes op cmd w) : opField w = op := by
  cases h <;> exact opField_append op _

/-- An encoded word decodes to its command. -/
theorem Encodes.decode_eq (h : f.Encodes op cmd w) : f.decode w = .ok cmd := by
  cases h with
  | formZ => exact (decodeZ_append op 0#24 cmd).trans (if_pos rfl)
  | formS mk shape =>
    refine (decodeS_append op 0#22 (codeOfShape shape) mk).trans ?_
    rw [if_pos rfl, shapeOfCode_eq_some_iff.2 rfl]
    rfl
  | formI mk idx => exact (decodeI_append op 0#8 idx mk).trans (if_pos rfl)
  | formC mk cnt idx => exact decodeC_append op cnt idx mk

/-- A word that decodes in a format is an encoded word of that format. -/
theorem encodes_of_decode (hop : opField w = op) (h : f.decode w = .ok cmd) : f.Encodes op cmd w := by
  cases f with
  | formZ i =>
    rw [word_eq_op_low w, hop] at h ⊢
    generalize w.extractLsb' 0 24 = low at h ⊢
    rw [Format.decode, decodeZ_append] at h
    split at h <;> cases h
    subst low
    exact .formZ _
  | formS mk =>
    rw [word_eq_op_shape w, hop] at h ⊢
    generalize w.extractLsb' 2 22 = res, w.extractLsb' 0 2 = code at h ⊢
    rw [Format.decode, decodeS_append] at h
    split at h
    · cases hs : shapeOfCode code <;> rw [hs] at h <;> cases h
      subst res
      rw [← shapeOfCode_eq_some_iff.1 hs]
      exact .formS mk _
    · cases h
  | formI mk =>
    rw [word_eq_fields w, hop] at h ⊢
    generalize cntField w = cnt, idxField w = idx at h ⊢
    rw [Format.decode, decodeI_append] at h
    split at h <;> cases h
    subst cnt
    exact .formI mk idx
  | formC mk =>
    rw [word_eq_fields w, hop] at h ⊢
    generalize cntField w = cnt, idxField w = idx at h ⊢
    rw [Format.decode, decodeC_append] at h
    cases h
    exact .formC mk cnt idx

/-- A word fails check 2 of R94 in a format: a bit that the format reserves is 1, or the shape code is 3. -/
def Reserved (f : Format) (w : Word) : Prop :=
  w &&& (0xFF#8 ++ f.reserved) ≠ opField w ++ 0#24 ∨ f.hasShape = true ∧ w.extractLsb' 0 2 = 3

/-- The decoder of a format fails on its reserved field alone (check 2 of R94). -/
theorem decode_error_iff {e : ErrCode} : f.decode w = .error e ↔ .reservedField = e ∧ f.Reserved w := by
  unfold Reserved
  cases f with
  | formZ i =>
    rw [word_eq_op_low w]
    generalize opField w = op, w.extractLsb' 0 24 = low
    rw [Format.decode, decodeZ_append, opField_append, ne_eq, and_mask_eq_iff, reserved,
      BitVec.and_allOnes]
    by_cases h : low = 0#24 <;> simp [h, hasShape]
  | formS mk =>
    rw [word_eq_op_shape w]
    generalize opField w = op, w.extractLsb' 2 22 = res, w.extractLsb' 0 2 = code
    rw [Format.decode, decodeS_append, opField_append, codeS_append, ne_eq, and_mask_eq_iff, reserved,
      and_high_eq_zero_iff]
    by_cases h : res = 0#22
    · cases hs : shapeOfCode code with
      | none => simp [h, hasShape, shapeOfCode_eq_none_iff.1 hs]
      | some shape =>
        have hcode : code ≠ 3#2 := fun h3 => nomatch hs.symm.trans (shapeOfCode_eq_none_iff.2 h3)
        simp [h, hcode]
    · simp [h]
  | formI mk =>
    rw [word_eq_fields w]
    generalize opField w = op, cntField w = cnt, idxField w = idx
    rw [Format.decode, decodeI_append, opField_append, ne_eq, and_mask_eq_iff, reserved, and_high_eq_zero_iff]
    by_cases h : cnt = 0#8 <;> simp [h, hasShape]
  | formC mk =>
    rw [word_eq_fields w]
    generalize opField w = op, cntField w = cnt, idxField w = idx
    rw [Format.decode, decodeC_append, opField_append, ne_eq, and_mask_eq_iff]
    simp [reserved, hasShape]

end Format

/-! ## The opcode map (R93) -/

/-- The decoder is the decoder of the opcode's format. -/
theorem decode_eq (c : Word) :
    decode c = (formatOf (opField c)).elim (.error .illegalOpcode) (·.decode c) := by
  unfold decode formatOf
  generalize (opField c).toNat = op
  split
  case h_21 => simp only [Option.elim_none]
  all_goals rfl

/-- A word that decodes does so in the format of its opcode. -/
theorem exists_format_of_decode {c : Word} {i : Instr} (h : decode c = .ok i) :
    ∃ f, formatOf (opField c) = some f ∧ f.decode c = .ok i := by
  rw [decode_eq] at h
  cases hf : formatOf (opField c) <;> rw [hf] at h
  · cases h
  · exact ⟨_, rfl, h⟩

/-- The row of an opcode in the opcode map has the match and mask of its format. -/
theorem opcodeMap_find (op : BitVec 8) :
    (opcodeMap.find? fun row => decide (row.op = op)) =
      (formatOf op).map fun f => ⟨op, op ++ 0#24, 0xFF#8 ++ f.reserved⟩ := by
  revert op
  decide

theorem hasShape_iff {op : BitVec 8} {f : Format} (h : formatOf op = some f) : f.hasShape = true ↔ op = 0x01 := by
  have hall : ∀ op, ∀ f ∈ formatOf op, f.hasShape = true ↔ op = 0x01 := by decide
  exact hall op f h

/-- Every command is encoded in the format of its opcode. -/
theorem encode_encodes (i : Instr) : ∃ op f, formatOf op = some f ∧ f.Encodes op i (encode i) := by
  cases i with
  | nop => exact ⟨0x00, _, rfl, .formZ _⟩
  | reset shape => exact ⟨0x01, _, rfl, .formS _ shape⟩
  | run n => exact ⟨0x02, _, rfl, .formI _ n⟩
  | boot idx => exact ⟨0x10, _, rfl, .formI _ idx⟩
  | smooth cnt idx => exact ⟨0x11, _, rfl, .formC _ cnt idx⟩
  | tick idx => exact ⟨0x12, _, rfl, .formI _ idx⟩
  | adv => exact ⟨0x20, _, rfl, .formZ _⟩
  | dep => exact ⟨0x21, _, rfl, .formZ _⟩
  | rds idx => exact ⟨0x22, _, rfl, .formI _ idx⟩
  | rot => exact ⟨0x23, _, rfl, .formZ _⟩
  | ramp => exact ⟨0x24, _, rfl, .formZ _⟩
  | coef => exact ⟨0x25, _, rfl, .formZ _⟩
  | injs => exact ⟨0x30, _, rfl, .formZ _⟩
  | injl => exact ⟨0x31, _, rfl, .formZ _⟩
  | dets idx => exact ⟨0x40, _, rfl, .formI _ idx⟩
  | detr idx => exact ⟨0x41, _, rfl, .formI _ idx⟩
  | dett idx => exact ⟨0x42, _, rfl, .formI _ idx⟩
  | syns idx => exact ⟨0x50, _, rfl, .formI _ idx⟩
  | synr idx => exact ⟨0x51, _, rfl, .formI _ idx⟩
  | synt idx => exact ⟨0x52, _, rfl, .formI _ idx⟩

/-- A word in the format of an opcode is the encoder's word of its command. -/
theorem encode_of_encodes {op : BitVec 8} {f : Format} {i : Instr} {c : Word} (hf : formatOf op = some f)
    (hc : f.Encodes op i c) : encode i = c := by
  unfold formatOf at hf
  split at hf
  case h_21 => cases hf
  all_goals
    obtain ⟨-, rfl⟩ := BitVec.toNat_eq_nat.1 ‹op.toNat = _›
    cases hf
    cases hc
    rfl

/-- A word decodes to a command exactly when it is the encoder's word of it (R91, R93). -/
theorem decode_eq_ok_iff {c : Word} {i : Instr} : decode c = .ok i ↔ encode i = c := by
  constructor
  · intro h
    obtain ⟨f, hf, hd⟩ := exists_format_of_decode h
    exact encode_of_encodes hf (Format.encodes_of_decode rfl hd)
  · rintro rfl
    obtain ⟨op, f, hf, henc⟩ := encode_encodes i
    rw [decode_eq, henc.opField_eq, hf]
    exact henc.decode_eq

/-! ## The first failing check (R94) -/

theorem firstFailure_of_format_none {c : Word} (hf : formatOf (opField c) = none) :
    firstFailure c = some .illegalOpcode := by
  have hfind := opcodeMap_find (opField c)
  rw [hf, opField] at hfind
  rw [firstFailure, hfind]
  rfl

theorem firstFailure_of_format {c : Word} {f : Format} (hf : formatOf (opField c) = some f) [Decidable (f.Reserved c)] :
    firstFailure c =
      if f.Reserved c then some .reservedField else if outOfRange c then some .range else none := by
  have hfind := opcodeMap_find (opField c)
  rw [hf] at hfind
  rw [firstFailure, ← opField, hfind]
  simp only [Option.map_some, Format.Reserved, hasShape_iff hf]

/-- The range check of the map agrees with the ranges of the command (check 3 of R94). -/
theorem outOfRange_encode (i : Instr) : outOfRange (encode i) = !i.wellFormed := by
  have h : Laws.Encoding.Statement i := by
    cases i with
    | nop => exact Laws.Encoding.nop
    | reset shape => exact Laws.Encoding.reset shape
    | run n => exact Laws.Encoding.run n
    | boot idx => exact Laws.Encoding.boot idx
    | smooth cnt idx => exact Laws.Encoding.smooth cnt idx
    | tick idx => exact Laws.Encoding.tick idx
    | adv => exact Laws.Encoding.adv
    | dep => exact Laws.Encoding.dep
    | rds idx => exact Laws.Encoding.rds idx
    | rot => exact Laws.Encoding.rot
    | ramp => exact Laws.Encoding.ramp
    | coef => exact Laws.Encoding.coef
    | injs => exact Laws.Encoding.injs
    | injl => exact Laws.Encoding.injl
    | dets idx => exact Laws.Encoding.dets idx
    | detr idx => exact Laws.Encoding.detr idx
    | dett idx => exact Laws.Encoding.dett idx
    | syns idx => exact Laws.Encoding.syns idx
    | synr idx => exact Laws.Encoding.synr idx
    | synt idx => exact Laws.Encoding.synt idx
  obtain ⟨-, hrange⟩ := h
  rw [hrange, Bool.not_not]

theorem firstFailure_of_error {c : Word} {e : ErrCode} (hd : decode c = .error e) : firstFailure c = some e := by
  classical
  rw [decode_eq] at hd
  cases hf : formatOf (opField c) with
  | none =>
    rw [hf] at hd
    cases hd
    exact firstFailure_of_format_none hf
  | some f =>
    rw [hf] at hd
    obtain ⟨rfl, hres⟩ := Format.decode_error_iff.1 hd
    rw [firstFailure_of_format hf, if_pos hres]

theorem firstFailure_of_ok {c : Word} {i : Instr} (hd : decode c = .ok i) :
    firstFailure c = if i.wellFormed then none else some .range := by
  classical
  have hrange : outOfRange c = !i.wellFormed := decode_eq_ok_iff.1 hd ▸ outOfRange_encode i
  obtain ⟨f, hf, hfd⟩ := exists_format_of_decode hd
  have hres : ¬ f.Reserved c := fun h => nomatch hfd.symm.trans (Format.decode_error_iff.2 ⟨rfl, h⟩)
  rw [firstFailure_of_format hf, if_neg hres, hrange]
  cases i.wellFormed <;> rfl

end Sys2Proof.Machine
end

section
/-! PROOFS. The claims about the encoding (R91 to R94, R97) and the checks of a command word (R94). -/

namespace Sys2Proof.Machine

/-- Settles O1: the word of a command decodes to it. -/
theorem decodeOfEncode : Obligations.DecodeOfEncode := fun _ => decode_eq_ok_iff.2 rfl

/-- Settles O2: a word that decodes is the word of its command. -/
theorem encodeOfDecode : Obligations.EncodeOfDecode := fun _ _ => decode_eq_ok_iff.1

/-- Settles O3: where the decoder fails so does the map, and where it answers the two range checks agree. -/
theorem decodeMatchesOpcodeMap : Obligations.DecodeMatchesOpcodeMap := by
  intro c
  cases hd : decode c with
  | ok i => exact firstFailure_of_ok hd
  | error e => exact firstFailure_of_error hd

/-- A word that fails a check raises its error and does nothing else (R94). -/
theorem step_failing_word {c : Word} {e : ErrCode} (hc : firstFailure c = some e) :
    BothCores fun _ _ mk => ∀ p, p.busy = false → step (mk (commanded c p)) = .next (mk (raiseErr e p)) := by
  cases hd : decode c with
  | error e' =>
    cases (firstFailure_of_error hd).symm.trans hc
    exact step_bad_word hd
  | ok i =>
    have hok := (firstFailure_of_ok hd).symm.trans hc
    cases hi : i.wellFormed <;> rw [hi] at hok <;> cases hok
    exact step_bad_operand hd (exec_illFormed hi)

/-- A word that fails no check decodes to a command with legal operands (R94). -/
theorem decode_of_firstFailure_none {c : Word} (hc : firstFailure c = none) :
    ∃ i, decode c = .ok i ∧ i.wellFormed = true := by
  cases hd : decode c with
  | error e => cases (firstFailure_of_error hd).symm.trans hc
  | ok i =>
    refine ⟨i, rfl, ?_⟩
    by_contra hi
    cases ((firstFailure_of_ok hd).trans (if_neg hi)).symm.trans hc

/-- Settles O5: a failing word raises its error, and any other runs the command it decodes to. -/
theorem commandChecksInOrder : Obligations.CommandChecksInOrder := by
  refine ⟨fun p c hp => ?_, fun p c hp => ?_⟩ <;> cases hc : firstFailure c
  case refine_1.some e => exact (step_failing_word hc).1 p hp
  case refine_2.some e => exact (step_failing_word hc).2 p hp
  case refine_1.none =>
    obtain ⟨i, hd, hi⟩ := decode_of_firstFailure_none hc
    exact ⟨i, hd, hi, stepRunsDecoded.1 p c i hp hd⟩
  case refine_2.none =>
    obtain ⟨i, hd, hi⟩ := decode_of_firstFailure_none hc
    exact ⟨i, hd, hi, stepRunsDecoded.2 p c i hp hd⟩

/-- Settles O4: each word is the encoder's word of its command. -/
theorem assemblerWordsDecode : Obligations.AssemblerWordsDecode := by
  unfold Obligations.AssemblerWordsDecode
  simp only [decode_eq_ok_iff]
  decide

/-- Settles O7: every command makes its range check before its rule. -/
theorem illFormedRaisesRange : Obligations.IllFormedRaisesRange :=
  ⟨fun p _ hi => exec_illFormed hi (exactState p), fun p _ hi => exec_illFormed hi (b32State p)⟩

end Sys2Proof.Machine
end

section
/-! PROOFS. The index mapping of an injection (R111, R112, R116). -/

namespace Sys2Proof.Machine

variable {Num : Type} {N : NumOps Num}

/-! ## `rne` of a given argument (R11) -/

/-- The integer within half a unit, even where it is half a unit away, is the one `rne` answers. -/
theorem rneRat_eq {x : Rat} {k : Int} (hnear : |x - k| ≤ 1 / 2) (htie : |x - k| = 1 / 2 → k % 2 = 0) :
    rneRat x = k := by
  by_contra hne
  have hfar := one_sub_abs_le_abs_sub (Ne.symm hne) x
  have hle := abs_sub_rneRat_le x
  have hk := htie (by linarith)
  have hr := rneRat_even_of_tie (x := x) (by linarith)
  have hgap : |(rneRat x : Rat) - k| ≤ 1 := by
    have htri := abs_sub_le (rneRat x : Rat) x k
    rw [abs_sub_comm (rneRat x : Rat) x] at htri
    linarith
  have hgap' : |rneRat x - k| ≤ 1 := by exact_mod_cast hgap
  rw [abs_le] at hgap'
  omega

/-- An even integer moves through `rne`, since it keeps the parity of a tie. -/
theorem rneRat_add_even (x : Rat) {k : Int} (hk : k % 2 = 0) : rneRat (x + k) = rneRat x + k := by
  have hdist : |x + k - (rneRat x + k : Int)| = |x - rneRat x| := by
    push_cast
    rw [add_sub_add_right_eq_sub]
  refine rneRat_eq (hdist ▸ abs_sub_rneRat_le x) fun htie => ?_
  have heven := rneRat_even_of_tie (hdist ▸ htie)
  omega

/-! ## Under EXACT (R111) -/

/-- The remainder lies in the unit interval. -/
theorem refRem_mem (phi w : Rat) : 0 ≤ refRem phi w ∧ refRem phi w ≤ 1 := by
  obtain ⟨hlo, hhi⟩ := abs_le.1 (abs_sub_rneRat_le (64 * phi / w - 1 / 2))
  rw [← refIndex] at hlo hhi
  exact ⟨by rw [refRem]; linarith, by rw [refRem]; linarith⟩

/-- The mapping under EXACT is the reference's. -/
theorem tableIndex_exact_ref {phi w : Rat} (hw : w ≠ 0) :
    tableIndex exactOps phi w = .ok ⟨refRem phi w, maskIndex (refIndex phi w)⟩ := tableIndex_exact hw

theorem maskIndex_cast (i0 : Int) : (maskIndex i0 : Int) = i0 % 64 :=
  Int.toNat_of_nonneg (Int.emod_nonneg i0 (by decide))

section
variable {phi w : Rat} {k : Int}

/-- At an even integer the tie of `r - 0.5` goes up to it. -/
theorem refIndex_of_even (hr : 64 * phi / w = k) (hk : k % 2 = 0) : refIndex phi w = k := by
  have hdist : |(k : Rat) - 1 / 2 - k| = 1 / 2 := by
    rw [sub_sub_cancel_left, abs_neg]
    norm_num
  rw [refIndex, hr]
  exact rneRat_eq hdist.le fun _ => hk

/-- At an odd integer the tie of `r - 0.5` goes down from it. -/
theorem refIndex_of_odd (hr : 64 * phi / w = k) (hk : k % 2 = 1) : refIndex phi w = k - 1 := by
  have hdist : |(k : Rat) - 1 / 2 - (k - 1 : Int)| = 1 / 2 := by
    rw [Int.cast_sub, sub_sub_sub_cancel_left]
    norm_num
  rw [refIndex, hr]
  exact rneRat_eq hdist.le fun _ => by omega

/-- Between two integers `r - 0.5` is nearest to the lower one. -/
theorem refIndex_of_not_int (hr : ∀ k : Int, 64 * phi / w ≠ k) :
    refIndex phi w = (64 * phi / w).floor ∧ 0 < refRem phi w ∧ refRem phi w < 1 := by
  obtain ⟨hlo, hhi⟩ := rat_floor_bounds (64 * phi / w)
  have hlo' := lt_of_le_of_ne hlo (hr _).symm
  have hnear : |64 * phi / w - 1 / 2 - (64 * phi / w).floor| < 1 / 2 := by
    rw [abs_lt]
    constructor <;> linarith
  have hindex : refIndex phi w = (64 * phi / w).floor := rneRat_eq hnear.le fun htie => absurd htie hnear.ne
  rw [refRem, hindex]
  exact ⟨rfl, by linarith, by linarith⟩

end

/-- Settles O43: an even `r`, an odd one and one between two integers are the three ways `r - 0.5` rounds. -/
theorem tableIndexExact : Obligations.TableIndexExact := by
  intro phi w hw
  obtain ⟨hrem0, hrem1⟩ := refRem_mem phi w
  refine ⟨_, tableIndex_exact_ref hw, rfl, maskIndex_cast _, hrem0, hrem1, fun k hr hk => ?_, fun k hr hk => ?_,
    refIndex_of_not_int⟩
  · have hindex := refIndex_of_even hr hk
    exact ⟨hindex, by rw [refRem, hr, hindex, sub_self]⟩
  · have hindex := refIndex_of_odd hr hk
    exact ⟨hindex, by rw [refRem, hr, hindex, Int.cast_sub, Int.cast_one, sub_sub_cancel]⟩

/-! ## In range, in any configuration (R116) -/

theorem maskIndex_lt (i0 : Int) : maskIndex i0 < 64 := by
  have := Int.emod_lt_of_pos i0 (b := 64) (by decide)
  have := maskIndex_cast i0
  omega

theorem tableIndex_phase_lt {phi w : Num} {x : TableIndex Num} (h : tableIndex N phi w = .ok x) : x.phase < 64 := by
  obtain ⟨p64, _, h⟩ := bind_ok h
  obtain ⟨scaled, _, h⟩ := bind_ok h
  obtain ⟨r, _, h⟩ := bind_ok h
  obtain ⟨r', _, h⟩ := bind_ok h
  obtain ⟨i0, _, h⟩ := bind_ok h
  obtain ⟨i0n, _, h⟩ := bind_ok h
  obtain ⟨rem, _, h⟩ := bind_ok h
  obtain rfl := Except.ok.inj h
  exact maskIndex_lt i0

theorem isRomAddr_stepValueAddr {e : Nat} (h : e ≤ 4607) : isRomAddr (stepValueAddr e) = true := by
  rw [isRomAddr_iff, stepValueAddr]
  omega

theorem isRomAddr_stepDeltaAddr {e : Nat} (h : e ≤ 4607) : isRomAddr (stepDeltaAddr e) = true := by
  rw [isRomAddr_iff, stepDeltaAddr]
  omega

theorem isRomAddr_slopeAddr {e : Nat} (h : e ≤ 4544) : isRomAddr (slopeAddr e) = true := by
  rw [isRomAddr_iff, slopeAddr, wordAddr, regionBase]
  omega

/-- Settles O44: the masked phase is below 64, and the cursor below 256. -/
theorem injectionStaysInRange : Obligations.InjectionStaysInRange := by
  refine bothCores_of_coreLaws fun Num N _ _ p phi x k hx => ⟨fun hk => ?_, fun hk => ?_⟩
  · have hphase := tableIndex_phase_lt hx
    have hj : p.j.val < 256 := p.j.isLt
    have he : x.phase + k * 64 ≤ 4607 := by omega
    exact ⟨he, isRomAddr_stepValueAddr he, isRomAddr_stepDeltaAddr he, by omega, isBufAddr_bufAddr.2 (by omega)⟩
  · have hphase := tableIndex_phase_lt hx
    have he : x.phase + k * 64 + 1 ≤ 4544 := by omega
    exact ⟨he, isRomAddr_slopeAddr (by omega), isRomAddr_slopeAddr he⟩

end Sys2Proof.Machine
end

section
/-! PROOFS. `INJS` and `INJL` under EXACT with their exceptions (R114, R115), and what an injection depends on (R119). -/

namespace Sys2Proof.Machine

/-! ## Exceptions of the formats (R94) -/

/-- The words that fail a check raise its error. -/
theorem raisesOn_of_firstFailure {bad : Word → Prop} {e : ErrCode} (h : ∀ c, bad c → firstFailure c = some e) :
    RaisesOn bad e :=
  ⟨fun p c hp hc => (step_failing_word (h c hc)).1 p hp, fun p c hp hc => (step_failing_word (h c hc)).2 p hp⟩

/-- A format-Z command is refused with `ERR(2)` when a bit below its opcode is set. -/
theorem zErrors_of_format {op : BitVec 8} {i : Instr} (hf : formatOf op = some (.formZ i)) : ZErrors op := by
  refine raisesOn_of_firstFailure fun c ⟨hop, hlow⟩ => firstFailure_of_error ?_
  rw [decode_eq, opField, hop, hf]
  exact if_neg hlow

/-! ## The commands (R114, R115) -/

theorem MemEffect.onlyMem {Num : Type} {N : NumOps Num} {S : Nat → Prop} {p q : Pabli Num} (h : MemEffect N S p q) :
    OnlyMem N S p q := ⟨h.only, h.kept⟩

/-- A command whose rule answers goes to the state of its answer. -/
theorem exec_exact_of_rule {i : Instr} {p q : Pabli Rat} (hi : i.wellFormed = true) (h : ruleOf exactOps i p = .ok q) :
    exec i (exactState p) = .next (exactState q) := by
  rw [exec_exact hi, h]
  rfl

/-- One pulse is all that was added. -/
theorem Pulsed.cell {p q : Pabli Rat} {x : Pulse} (h : Pulsed p q [x]) {k : Nat} (hk : k < 72) :
    bufRead exactOps q (p.j.val + k) = bufRead exactOps p (p.j.val + k) + pulseAt p x k := by
  rw [h.cells k hk, pulseSum, List.map_singleton, List.sum_singleton]

/-- Settles O45: the command is the step injection of `OPA` and `OPB`. -/
theorem injsResult : Obligations.InjsResult := by
  refine ⟨fun p hw => ?_, zErrors_of_format (i := .injs) rfl⟩
  obtain ⟨q, hq, hpulsed⟩ := injectStep_exact (phi := p.opa) (m := p.opb) hw
  exact ⟨q, exec_exact_of_rule (i := .injs) rfl hq, fun k hk => hpulsed.cell hk, hpulsed.effect.onlyMem⟩

/-- Settles O46: the command is the slope injection of `OPA` and `OPB`, which writes one cell less than a step. -/
theorem injlResult : Obligations.InjlResult := by
  refine ⟨fun p hw => ?_, zErrors_of_format (i := .injl) rfl⟩
  obtain ⟨q, hq, hpulsed⟩ := injectSlope_exact (phi := p.opa) (m := p.opb) hw
  exact ⟨q, exec_exact_of_rule (i := .injl) rfl hq, fun k hk => hpulsed.cell (by omega),
    (injectSlope_ok exactOps_zeroLaw hq).onlyMem⟩

/-! ## What the index mapping depends on (R119) -/

section
variable {phi phi' w w' : Rat}

theorem refIndex_congr (h : phi' / w' = phi / w) : refIndex phi' w' = refIndex phi w := by
  rw [refIndex, refIndex, mul_div_assoc, mul_div_assoc, h]

theorem refRem_congr (h : phi' / w' = phi / w) : refRem phi' w' = refRem phi w := by
  rw [refRem, refRem, refIndex_congr h, mul_div_assoc, mul_div_assoc, h]

theorem refEntry_congr (h : phi' / w' = phi / w) (k : Nat) : refEntry phi' w' k = refEntry phi w k := by
  rw [refEntry, refEntry, refIndex_congr h]

/-- A whole increment is 64 entries of the table, an even number. -/
theorem scaled_add_increments (hw : w ≠ 0) (n : Int) :
    64 * (phi + n * w) / w = 64 * phi / w + (64 * n : Int) := by
  push_cast
  field_simp

theorem refIndex_add_increments (hw : w ≠ 0) (n : Int) : refIndex (phi + n * w) w = refIndex phi w + 64 * n := by
  rw [refIndex, scaled_add_increments hw, add_sub_right_comm, rneRat_add_even _ (by omega), ← refIndex]

theorem refRem_add_increments (hw : w ≠ 0) (n : Int) : refRem (phi + n * w) w = refRem phi w := by
  rw [refRem, scaled_add_increments hw, refIndex_add_increments hw, Int.cast_add, add_sub_add_right_eq_sub, ← refRem]

theorem refEntry_add_increments (hw : w ≠ 0) (n : Int) (k : Nat) : refEntry (phi + n * w) w k = refEntry phi w k := by
  rw [refEntry, refIndex_add_increments hw, Int.add_mul_emod_self_left, ← refEntry]

end

/-! ## What an injection depends on (R119) -/

/-- The same pulses in the same cells of equal memories leave equal memories. -/
theorem Injected.readWord_congr {p p' q q' : Pabli Rat} {xs ys : List Pulse} (h : Injected p q xs)
    (h' : Injected p' q' ys) (hj : p'.j = p.j) (hmem : ∀ addr, readWord exactOps p' addr = readWord exactOps p addr)
    (hsum : ∀ k, pulseSum p' ys k = pulseSum p xs k) (addr : Nat) :
    readWord exactOps q' addr = readWord exactOps q addr := by
  by_cases ha : PulseCells p 72 addr
  · obtain ⟨k, hk, rfl⟩ := ha
    have hcell := h'.cells k hk
    rw [hj, hsum k, show bufRead exactOps p' (p.j.val + k) = bufRead exactOps p (p.j.val + k) from hmem _,
      ← h.cells k hk] at hcell
    exact hcell
  · have ha' : ¬ PulseCells p' 72 addr := fun hc => ha (pulse_mono hj le_rfl addr hc)
    rw [h'.effect.kept addr ha', h.effect.kept addr ha, hmem]

/-- Nothing injected. -/
theorem Injected.self (p : Pabli Rat) : Injected p p [] := Injected.start p p.phase p.edge p.lastv

/-- What the two kinds of injection share: `inject phi m` adds the pulse `pulse phi m`, which is proportional to the
magnitude, blind to whole increments of the offset, and a function of `phi / W`, the magnitude as the kind scales it by
`W`, and the tables. -/
structure InjectsPulse (inject : Rat → Rat → Pabli Rat → Except Refusal (Pabli Rat)) (pulse : Rat → Rat → Pulse)
    (scaled : Rat → Rat → Rat) : Prop where
  more : ∀ {p q r xs phi m}, p.w ≠ 0 → Injected p q xs → inject phi m q = .ok r → Injected p r (xs ++ [pulse phi m])
  proportional : ∀ p phi m k, pulseAt p (pulse phi m) k = m * pulseAt p (pulse phi 1) k
  increments : ∀ p phi m (n : Int) k, p.w ≠ 0 →
    pulseAt p (pulse (phi + n * p.w) m) k = pulseAt p (pulse phi m) k
  congr : ∀ {p p' : Pabli Rat} {phi phi' m m'} k, phi' / p'.w = phi / p.w → scaled m' p'.w = scaled m p.w →
    (∀ addr, readWord exactOps p' addr = readWord exactOps p addr) →
    pulseAt p' (pulse phi' m') k = pulseAt p (pulse phi m) k

theorem injectStep_injectsPulse : InjectsPulse (injectStep exactOps) .step fun m _ => m where
  more hw h hr := by
    obtain ⟨r, hr', hi, -⟩ := h.step hw _ _
    obtain rfl := Except.ok.inj (hr'.symm.trans hr)
    exact hi
  proportional p phi m k := by
    simp only [pulseAt]
    split <;> ring
  increments p phi m n k hw := by simp only [pulseAt, refEntry_add_increments hw, refRem_add_increments hw]
  congr k hphi hm hmem := by simp only [pulseAt, refEntry_congr hphi, refRem_congr hphi, hm, hmem]

theorem injectSlope_injectsPulse : InjectsPulse (injectSlope exactOps) .slope fun m w => m * w where
  more hw h hr := by
    obtain ⟨r, hr', hi, -⟩ := h.slope hw _ _
    obtain rfl := Except.ok.inj (hr'.symm.trans hr)
    exact hi
  proportional p phi m k := by
    simp only [pulseAt]
    split <;> ring
  increments p phi m n k hw := by simp only [pulseAt, refEntry_add_increments hw, refRem_add_increments hw]
  congr k hphi hm hmem := by simp only [pulseAt, refEntry_congr hphi, refRem_congr hphi, hm, hmem]

namespace InjectsPulse

variable {inject : Rat → Rat → Pabli Rat → Except Refusal (Pabli Rat)} {pulse : Rat → Rat → Pulse}
  {scaled : Rat → Rat → Rat} {p p' q r t : Pabli Rat} {phi phi' m m' : Rat}

theorem one (h : InjectsPulse inject pulse scaled) (hw : p.w ≠ 0) (hq : inject phi m p = .ok q) :
    Injected p q [pulse phi m] := h.more hw (.self p) hq

/-- R119 (a). -/
theorem additive (h : InjectsPulse inject pulse scaled) (hw : p.w ≠ 0) (hq : inject phi m p = .ok q)
    (hr : inject phi m' q = .ok r) (ht : inject phi (m + m') p = .ok t) (addr : Nat) :
    readWord exactOps r addr = readWord exactOps t addr := by
  refine (h.one hw ht).readWord_congr (h.more hw (h.one hw hq) hr) rfl (fun _ => rfl) (fun k => ?_) addr
  simp only [pulseSum, List.singleton_append, List.map_cons, List.map_nil, List.sum_cons, List.sum_nil]
  rw [h.proportional p phi m, h.proportional p phi m', h.proportional p phi (m + m')]
  ring

/-- R119 (b). -/
theorem identity (h : InjectsPulse inject pulse scaled) (hw : p.w ≠ 0) (hq : inject phi 0 p = .ok q) (addr : Nat) :
    readWord exactOps q addr = readWord exactOps p addr := by
  refine (Injected.self p).readWord_congr (h.one hw hq) rfl (fun _ => rfl) (fun k => ?_) addr
  rw [pulseSum, List.map_singleton, List.sum_singleton, h.proportional, zero_mul]
  rfl

/-- R119 (c) and (d): one pulse that is the same from both states leaves the same memory. -/
theorem same (h : InjectsPulse inject pulse scaled) (hw : p.w ≠ 0) (hw' : p'.w ≠ 0) (hj : p'.j = p.j)
    (hmem : ∀ addr, readWord exactOps p' addr = readWord exactOps p addr)
    (hpulse : ∀ k, pulseAt p' (pulse phi' m') k = pulseAt p (pulse phi m) k)
    (hq : inject phi m p = .ok q) (hr : inject phi' m' p' = .ok r) (addr : Nat) :
    readWord exactOps r addr = readWord exactOps q addr := by
  refine (h.one hw hq).readWord_congr (h.one hw' hr) hj hmem (fun k => ?_) addr
  simp only [pulseSum, List.map_singleton, List.sum_singleton, hpulse]

end InjectsPulse

/-- Each kind injects its pulse, with its magnitude scaled as R119 (d) says. -/
theorem exists_injectsPulse {inject : Rat → Rat → Pabli Rat → Except Refusal (Pabli Rat)}
    (h : inject = injectStep exactOps ∨ inject = injectSlope exactOps) :
    ∃ pulse scaled, InjectsPulse inject pulse scaled ∧ ∀ m m' w w',
      (inject = injectStep exactOps → m' = m) → (inject = injectSlope exactOps → m' * w' = m * w) →
      scaled m' w' = scaled m w := by
  rcases h with rfl | rfl
  · exact ⟨_, _, injectStep_injectsPulse, fun _ _ _ _ hm _ => hm rfl⟩
  · exact ⟨_, _, injectSlope_injectsPulse, fun _ _ _ _ _ hm => hm rfl⟩

/-- Settles O47: both kinds inject a pulse with the properties of `InjectsPulse`. -/
theorem injectionProperties : Obligations.InjectionProperties := by
  intro inject hkind p phi hw
  obtain ⟨pulse, scaled, h, hscaled⟩ := exists_injectsPulse hkind
  refine ⟨fun m1 m2 q r t => h.additive hw, fun q => h.identity hw, fun m n q r hq hr addr => ?increments,
    fun p' phi' m m' q r hw' hphi hj hmem hstep hslope => ?same⟩
  case increments =>
    exact (h.same hw hw rfl (fun _ => rfl) (fun k => h.increments p phi m n k hw) hq hr addr).symm
  case same =>
    exact h.same hw hw' hj hmem fun k => h.congr k hphi (hscaled m m' p.w p'.w hstep hslope) hmem

end Sys2Proof.Machine
end

section
/-! PROOFS. What `INJS`, `INJL`, `DEP`, `RDS` and `ROT` write, in both configurations (R110, R139 to R141). -/

namespace Sys2Proof.Machine

variable {Num : Type} {N : NumOps Num} {mk : Pabli Num → State} {p q : Pabli Num}

/-! ## A command between two states of one configuration -/

/-- A claim of both configurations that needs a core to be determined by its state. -/
theorem bothCores_of_injective {P : (Num : Type) → NumOps Num → (Pabli Num → State) → Prop}
    (h : ∀ (Num : Type) (N : NumOps Num) (mk : Pabli Num → State), CoreLaws N mk → Function.Injective mk → P Num N mk) :
    BothCores P :=
  ⟨h _ _ _ coreLaws_exact fun _ _ => exactState_inj, h _ _ _ coreLaws_b32 fun _ _ => b32State_inj⟩

/-- A command that leads from one core to another is its rule, answering that core. -/
theorem CoreLaws.ruleOf_of_exec (laws : CoreLaws N mk) (hmk : Function.Injective mk) {i : Instr}
    (hi : i.wellFormed = true) (h : Machine.exec i (mk p) = .next (mk q)) : ruleOf N i p = .ok q := by
  obtain ⟨r, hr, hqr⟩ := laws.exec hi h
  rw [hmk hqr]
  exact hr

/-- Before the fold `ROT` moves the cursor alone (R141). -/
theorem rotRule_advance (N : NumOps Num) (h : p.j.val + 1 < Config.fillLen) :
    rotRule N p = .ok { p with j := ⟨p.j.val + 1, h⟩ } := dif_pos h

theorem rotRule_memKept (hj : p.j.val < 255) (h : rotRule N p = .ok q) : MemKept N Nowhere p q := by
  have hlt : p.j.val + 1 < Config.fillLen := Nat.add_lt_add_right hj 1
  obtain rfl := Except.ok.inj ((rotRule_advance N hlt).symm.trans h)
  exact fun addr _ => readWord_congr N rfl rfl addr

/-- Settles O56: each command is its rule, and each rule's one lemma says what it writes. -/
theorem frameOfBufferSteps : Obligations.FrameOfBufferSteps := by
  refine bothCores_of_injective fun Num N mk laws hmk p q => ⟨?injs, ?injl, ?dep, ?rds, ?rot⟩
  case injs => exact fun h => (injectStep_ok laws.zero (laws.ruleOf_of_exec hmk (i := .injs) rfl h)).onlyMem
  case injl => exact fun h => (injectSlope_ok laws.zero (laws.ruleOf_of_exec hmk (i := .injl) rfl h)).onlyMem
  case dep => exact fun h => (depRule_ok laws.zero (laws.ruleOf_of_exec hmk (i := .dep) rfl h)).1.onlyMem
  case rds =>
    intro idx hidx h
    have hrule := laws.ruleOf_of_exec hmk (i := .rds idx) (decide_eq_true hidx) h
    obtain ⟨honly, -, hloop⟩ := rdsRule_ok laws.zero (Nat.lt_succ_of_le hidx) hrule
    exact ⟨honly, hloop.kept⟩
  case rot =>
    intro h
    have hrule := laws.ruleOf_of_exec hmk (i := .rot) rfl h
    obtain ⟨honly, -, hloop⟩ := rotRule_ok laws.zero hrule
    exact ⟨honly, fun hj => rotRule_memKept hj hrule, fun _ => hloop.kept⟩

end Sys2Proof.Machine
end

section
/-! PROOFS. A command with legal operands is its rule in either configuration (`RuleLaws`), and the words and exceptions of
each format (R91, R94). -/

namespace Sys2Proof.Machine

variable {Num : Type} {N : NumOps Num} {mk : Pabli Num → State} {p q : Pabli Num}

/-! ## Commands as their rules, in either configuration -/

/-- What a rule's answer comes to on the states of one configuration: the next state, or the refusal it met. -/
def outcomeIn (mk : Pabli Num → State) : Except Refusal (Pabli Num) → Host.Outcome State Fault Refusal
  | .ok p => .next (mk p)
  | .error r => .refused r

/-- What the two configurations share, and in either a command with legal operands is its rule, also where the rule is
refused. -/
structure RuleLaws (N : NumOps Num) (mk : Pabli Num → State) : Prop extends CoreLaws N mk where
  outcome : ∀ {i p}, i.wellFormed = true → Machine.exec i (mk p) = outcomeIn mk (ruleOf N i p)
  dropBusy : ∀ p, dropBusy (mk p) = mk { p with busy := false }
  injective : Function.Injective mk

theorem ruleLaws_exact : RuleLaws exactOps exactState where
  toCoreLaws := coreLaws_exact
  outcome {i p} hi := by
    rw [exec_exact hi]
    cases ruleOf exactOps i p <;> rfl
  dropBusy _ := rfl
  injective _ _ := exactState_inj

theorem ruleLaws_b32 : RuleLaws b32Ops b32State where
  toCoreLaws := coreLaws_b32
  outcome {i p} hi := by
    rw [exec_b32 hi]
    cases ruleOf b32Ops i p <;> rfl
  dropBusy _ := rfl
  injective _ _ := b32State_inj

/-- A claim that follows from the commands' rules holds of both configurations. -/
theorem bothCores_of_ruleLaws {P : (Num : Type) → NumOps Num → (Pabli Num → State) → Prop}
    (h : ∀ (Num : Type) (N : NumOps Num) (mk : Pabli Num → State), RuleLaws N mk → P Num N mk) : BothCores P :=
  ⟨h _ _ _ ruleLaws_exact, h _ _ _ ruleLaws_b32⟩

/-- A command whose rule answers goes to the state of its answer. -/
theorem RuleLaws.exec_of_rule (laws : RuleLaws N mk) {i : Instr} (hi : i.wellFormed = true)
    (h : ruleOf N i p = .ok q) : Machine.exec i (mk p) = .next (mk q) := by
  rw [laws.outcome hi, h]
  rfl

theorem index_wellFormed {idx : BitVec 16} (h : idx.toNat ≤ 1023) : SampleIndex.ok idx = true := decide_eq_true h

theorem smooth_wellFormed {cnt : BitVec 8} {idx : BitVec 16} (hc : 1 ≤ cnt.toNat) (hi : idx.toNat ≤ 1023) :
    (Instr.smooth cnt idx).wellFormed = true := by
  have hcnt : ChunkLength.ok cnt = true := (chunkInRange_eq cnt).symm.trans (decide_eq_true hc)
  rw [Instr.wellFormed, hcnt, index_wellFormed hi]
  rfl

/-! ## Sequences of commands -/

/-- Two continuations that agree on a computation's answer give the same result, its refusal included. -/
theorem bind_congr_of_ok {ε α β : Type} {x : Except ε α} {f g : α → Except ε β}
    (h : ∀ a, x = .ok a → f a = g a) : (x >>= f) = x >>= g := by
  cases x with
  | error e => rfl
  | ok a => exact h a rfl

/-- The rules of commands one after another, stopping at the first refusal. -/
def rulesOf (N : NumOps Num) (cmds : List Instr) (p : Pabli Num) : Except Refusal (Pabli Num) :=
  cmds.foldlM (fun q i => ruleOf N i q) p

@[simp] theorem rulesOf_cons (N : NumOps Num) (i : Instr) (rest : List Instr) (p : Pabli Num) :
    rulesOf N (i :: rest) p = ruleOf N i p >>= rulesOf N rest := List.foldlM_cons

theorem rulesOf_singleton (N : NumOps Num) (i : Instr) (p : Pabli Num) : rulesOf N [i] p = ruleOf N i p := by
  rw [rulesOf_cons]
  exact bind_pure _

@[simp] theorem rulesOf_append (N : NumOps Num) (front rest : List Instr) (p : Pabli Num) :
    rulesOf N (front ++ rest) p = rulesOf N front p >>= rulesOf N rest := List.foldlM_append

/-- Commands with legal operands one after another are their rules one after another, refusals included. -/
theorem RuleLaws.execAll_eq (laws : RuleLaws N mk) {cmds : List Instr} (hw : ∀ i ∈ cmds, i.wellFormed = true)
    (p : Pabli Num) : execAll cmds (mk p) = outcomeIn mk (rulesOf N cmds p) := by
  induction cmds generalizing p with
  | nil => rfl
  | cons i rest ih =>
    obtain ⟨hi, hrest⟩ := List.forall_mem_cons.1 hw
    rw [execAll, laws.outcome hi, rulesOf_cons]
    cases ruleOf N i p with
    | error r => rfl
    | ok q => exact ih hrest q

/-! ## Words and exceptions of the formats (R91, R94) -/

/-- A format-I word is its opcode and its index (R91). -/
theorem encodeI_eq_add (op : BitVec 8) (idx : BitVec 16) : encodeI op idx = (op ++ 0#24) + idx.zeroExtend 32 := by
  apply BitVec.eq_of_toNat_eq
  have hop := op.isLt
  have hidx := idx.isLt
  simp only [encodeI, toNat_append_add, BitVec.toNat_add, BitVec.toNat_setWidth, BitVec.ofNat_eq_ofNat,
    BitVec.toNat_ofNat]
  omega

/-- A word that decodes to a command with an operand out of range fails check 3 of R94. -/
theorem firstFailure_of_illFormed {c : Word} {i : Instr} (hd : decode c = .ok i) (hi : i.wellFormed = false) :
    firstFailure c = some .range := by
  rw [firstFailure_of_ok hd, hi]
  rfl

/-- A format-I command is refused with `ERR(2)` when a reserved bit is set, and with `ERR(3)` beyond its limit. -/
theorem iErrors_of_format {op : BitVec 8} {cmd : BitVec 16 → Instr} {limit : Nat} (hf : formatOf op = some (.formI cmd))
    (hlimit : ∀ idx : BitVec 16, limit < idx.toNat → (cmd idx).wellFormed = false) : IErrors op limit := by
  refine ⟨raisesOn_of_firstFailure fun c ⟨hop, hcnt⟩ => firstFailure_of_error ?_,
    raisesOn_of_firstFailure fun c ⟨hop, hcnt, hidx⟩ => firstFailure_of_illFormed ?_ (hlimit _ hidx)⟩
  · rw [decode_eq, opField, hop, hf]
    exact if_neg hcnt
  · rw [decode_eq, opField, hop, hf]
    exact if_pos hcnt

theorem index_illFormed (idx : BitVec 16) (h : 1023 < idx.toNat) : SampleIndex.ok idx = false :=
  decide_eq_false (Nat.not_le.2 h)

theorem smooth_illFormed {cnt : BitVec 8} {idx : BitVec 16} (h : cnt.toNat = 0 ∨ 1023 < idx.toNat) :
    (Instr.smooth cnt idx).wellFormed = false := by
  rw [Instr.wellFormed, Bool.and_eq_false_iff]
  refine h.imp (fun hc => ?_) (index_illFormed idx)
  rw [← chunkInRange_eq, chunkInRange, chunkOperand, hc]
  rfl

/-- A format-S command is refused with `ERR(2)` when a reserved bit is set or the shape code is 3. -/
theorem decodeS_error {c : Word} {cmd : Shape → Instr} (h : c.extractLsb' 2 22 ≠ 0 ∨ c.extractLsb' 0 2 = 3) :
    decodeS c cmd = .error .reservedField := by
  rw [word_eq_op_shape c, decodeS_append]
  rcases h with hres | hcode
  · exact if_neg hres
  · rw [hcode]
    exact ite_id _

end Sys2Proof.Machine
end

section
/-! PROOFS. The commands of block level (R130, R131, R134 to R136): NOP, RESET, COEF, BOOT, SMOOTH. -/

namespace Sys2Proof.Machine

variable {Num : Type} {N : NumOps Num}

/-! ## NOP and RESET -/

theorem runCommand_nop (s : State) : runCommand 0x00000000#32 s = .next (dropBusy (raiseBusy s)) := rfl

theorem setBusy_idle {p : Pabli Num} (h : p.busy = false) : { p with busy := false } = p := by
  rw [← h]

/-- Settles O28: the rule is the identity, and `BUSY` falls to what it was before it rose. -/
theorem nopDoesNothing : Obligations.NopDoesNothing := by
  refine ⟨rfl, bothCores_of_ruleLaws fun _ _ _ laws p => ⟨laws.exec_of_rule (i := .nop) rfl rfl, fun hp => ?_⟩,
    zErrors_of_format (i := .nop) rfl⟩
  rw [laws.command _ p hp, runCommand_nop, laws.raiseBusy, laws.dropBusy]
  simp only [setBusy_idle hp]

theorem reset_error {c : Word} (hop : c.extractLsb' 24 8 = 0x01#8)
    (h : c.extractLsb' 2 22 ≠ 0 ∨ c.extractLsb' 0 2 = 3) : firstFailure c = some .reservedField := by
  refine firstFailure_of_error ?_
  rw [decode_eq, opField, hop]
  exact decodeS_error h

/-- Settles O29: the rule sets the oscillator registers and clears the 328 cells of `BUF`. -/
theorem resetResult : Obligations.ResetResult := by
  refine ⟨rfl, rfl, rfl, bothCores_of_ruleLaws fun Num N mk laws p shape => ?_,
    raisesOn_of_firstFailure fun c ⟨hop, hres⟩ => reset_error hop (.inl hres),
    raisesOn_of_firstFailure fun c ⟨hop, hcode⟩ => reset_error hop (.inr hcode)⟩
  obtain ⟨honly, hkept, -, hzero⟩ := resetRule_effect laws.zero shape p
  exact ⟨resetRule N shape p, laws.exec_of_rule (i := .reset shape) rfl rfl, honly, hzero, hkept⟩

/-! ## COEF (R134) -/

theorem coefRule_of_ops {p : Pabli Num} {x a : Num} (hx : N.mul N.a1 p.lowpass = .ok x) (ha : N.add N.a0 x = .ok a) :
    coefRule N p = .ok { p with a := a } := by
  rw [coefRule, hx, ok_bind, ha, ok_bind]

/-- Under B32 the two literals add to 1.0 exactly, so that `LOWPASS = 1` gives `A = 1`. -/
theorem b32_coef_one :
    b32Mul 0x3F4CCCCD#32 0x3F800000#32 = .ok 0x3F4CCCCD#32 ∧ b32Add 0x3E4CCCCD#32 0x3F4CCCCD#32 = .ok 0x3F800000#32 := by
  decide +kernel

/-- Settles O32: one multiply and one add; over [0, 1] the coefficient runs from 0.2 to 1. -/
theorem coefResult : Obligations.CoefResult := by
  refine ⟨rfl, fun p => ⟨?exact, fun ⟨h0, h1⟩ => ⟨by linarith, by linarith⟩⟩, ?b32, fun p hp => ?one,
    zErrors_of_format (i := .coef) rfl⟩
  case exact => exact exec_exact_of_rule (i := .coef) rfl (coefRule_of_ops (exact_mul _ _) (exact_add _ _))
  case b32 => exact fun p x a hx ha => ruleLaws_b32.exec_of_rule (i := .coef) rfl (coefRule_of_ops hx ha)
  case one =>
    obtain ⟨hmul, hadd⟩ := b32_coef_one
    rw [← hp] at hmul
    exact ruleLaws_b32.exec_of_rule (i := .coef) rfl (coefRule_of_ops hmul hadd)

/-! ## BOOT and SMOOTH under EXACT (R133, R135, R136) -/

theorem targetIncrement_exact {p : Pabli Rat} (hf : p.fsamp ≠ 0) (i : Nat) :
    targetIncrement exactOps p i = .ok (refIncrement p i) := by
  rw [targetIncrement, exact_div hf, ok_bind]
  exact clamp_exact _ _ _

theorem targetDuty_exact (p : Pabli Rat) (i : Nat) (t : Rat) :
    targetDuty exactOps p i t = .ok (refDuty p i t) := by
  rw [targetDuty, exact_sub, ok_bind]
  exact clamp_exact _ _ _

theorem bootRule_exact {p : Pabli Rat} (hf : p.fsamp ≠ 0) (i : Nat) : bootRule exactOps i p = .ok (refBoot p i) := by
  rw [bootRule, targetIncrement_exact hf, ok_bind]
  cases hs : p.shape <;> simp only [bootShape, refBoot, hs, targetDuty_exact, exact_mul, ok_bind] <;> rfl

theorem dutyIncrement_exact {cnt : Nat} (hc : 0 < cnt) (i : Nat) (t : Rat) (p : Pabli Rat) :
    dutyIncrement exactOps cnt i t p = .ok (if p.shape = .saw then 0 else (refDuty p i t - p.duty) / cnt) := by
  cases hs : p.shape <;> simp [dutyIncrement, hs, targetDuty_exact, rampIncrement_exact _ _ hc]

theorem smoothRule_exact {cnt : Nat} (hc : 0 < cnt) {p : Pabli Rat} (hf : p.fsamp ≠ 0) (i : Nat) :
    smoothRule exactOps cnt i p = .ok (refSmooth p cnt i) := by
  rw [smoothRule, targetIncrement_exact hf, ok_bind, rampIncrement_exact _ _ hc, ok_bind, dutyIncrement_exact hc, ok_bind,
    refSmooth]

/-- Settles O33: the targets are the reference's, and each shape loads them as R135 says. -/
theorem bootResult : Obligations.BootResult :=
  ⟨fun _ idx hidx hf => exec_exact_of_rule (i := .boot idx) (index_wellFormed hidx) (bootRule_exact hf _),
    iErrors_of_format (cmd := .boot) rfl index_illFormed⟩

/-- Settles O34: the two increments lead to the reference's targets. -/
theorem smoothResult : Obligations.SmoothResult := by
  refine ⟨fun p cnt idx hc hidx hf => ?_, raisesOn_of_firstFailure fun c ⟨hop, hrange⟩ => ?_⟩
  · exact exec_exact_of_rule (i := .smooth cnt idx) (smooth_wellFormed hc hidx) (smoothRule_exact hc hf _)
  · refine firstFailure_of_illFormed (i := .smooth (cntField c) (idxField c)) ?_ (smooth_illFormed hrange)
    rw [decode_eq, opField, hop]
    rfl

end Sys2Proof.Machine
end

section
/-! PROOFS. The steps of one sample (R137 to R142): RAMP, ADV, DEP, RDS, ROT, and TICK as their sequence. -/

namespace Sys2Proof.Machine

variable {Num : Type} {N : NumOps Num} {mk : Pabli Num → State} {p q : Pabli Num}

/-! ## RAMP and ADV -/

theorem rampRule_of_ops {w d : Num} (hw : N.add p.w p.dw = .ok w) (hd : N.add p.duty p.db = .ok d) :
    rampRule N p = .ok { p with w := w, duty := d } := by
  rw [rampRule, hw, ok_bind, hd, ok_bind]

/-- Settles O35: the two additions are the whole rule. -/
theorem rampResult : Obligations.RampResult :=
  ⟨rfl, fun _ => exec_exact_of_rule (i := .ramp) rfl (rampRule_of_ops (exact_add _ _) (exact_add _ _)),
    fun _ _ _ hw hd => ruleLaws_b32.exec_of_rule (i := .ramp) rfl (rampRule_of_ops hw hd),
    zErrors_of_format (i := .ramp) rfl⟩

theorem advRule_of_ops {x : Num} (hx : N.add p.phase p.w = .ok x) : advRule N p = .ok { p with phase := x } := by
  rw [advRule, hx, ok_bind]

/-- Settles O36: the one addition is the whole rule, with no wrap. -/
theorem advResult : Obligations.AdvResult :=
  ⟨rfl, fun _ => exec_exact_of_rule (i := .adv) rfl (advRule_of_ops (exact_add _ _)),
    fun _ _ hx => ruleLaws_b32.exec_of_rule (i := .adv) rfl (advRule_of_ops hx), zErrors_of_format (i := .adv) rfl⟩

/-! ## DEP (R139) -/

/-- Where the addition answers, `DEP` writes its sum to the one cell. -/
theorem RuleLaws.dep_of_add (laws : RuleLaws N mk) {v : Num}
    (hv : N.add (bufRead N p (p.j.val + 4)) p.lastv = .ok v) :
    ∃ q, exec .dep (mk p) = .next (mk q) ∧ bufRead N q (p.j.val + 4) = v ∧
      OnlyMem N (fun a => a = bufAddr (p.j.val + 4)) p q := by
  have hrule : depRule N p = .ok (bufWrite N p (p.j.val + 4) v) := by
    rw [depRule, bufAdd, hv, ok_bind]
  exact ⟨_, laws.exec_of_rule (i := .dep) rfl hrule, readWord_writeWord_same laws.zero _ _ _,
    (depRule_ok laws.zero hrule).1.onlyMem⟩

/-- Settles O37: one addition into the cell four ahead of the cursor. -/
theorem depResult : Obligations.DepResult := by
  refine ⟨rfl, fun p => ruleLaws_exact.dep_of_add (exact_add _ _), fun p v hv => ruleLaws_b32.dep_of_add hv, fun p => ?_,
    zErrors_of_format (i := .dep) rfl⟩
  have hj : p.j.val < 256 := p.j.isLt
  omega

/-! ## RDS (R140) -/

/-- Where its three operations answer, `RDS` leaves the last of them in `Z` and in the audio word. -/
theorem RuleLaws.rds_of_ops (laws : RuleLaws N mk) {idx : BitVec 16} {d x z : Num} (hidx : idx.toNat ≤ 1023)
    (hd : N.sub (bufRead N p p.j.val) p.z = .ok d) (hx : N.mul p.a d = .ok x) (hz : N.add p.z x = .ok z) :
    ∃ q, exec (.rds idx) (mk p) = .next (mk q) ∧ q = { p with z := z, mem := q.mem } ∧
      readWord N q (wordAddr .audioOut idx.toNat) = z ∧
      MemKept N (fun a => a = wordAddr .audioOut idx.toNat) p q := by
  have hrule : rdsRule N idx.toNat p = .ok (writeWord N { p with z := z } (wordAddr .audioOut idx.toNat) z) := by
    rw [rdsRule, hd, ok_bind, hx, ok_bind, hz, ok_bind]
  obtain ⟨-, haudio, hloop⟩ := rdsRule_ok laws.zero (Nat.lt_succ_of_le hidx) hrule
  exact ⟨_, laws.exec_of_rule (i := .rds idx) (index_wellFormed hidx) hrule, rfl, haudio, hloop.kept⟩

/-- Settles O38: the filter's three operations; with `A = 1` they cancel `Z` under EXACT. -/
theorem rdsResult : Obligations.RdsResult := by
  refine ⟨encodeI_eq_add 0x22, fun p idx hidx => ?exact,
    fun p idx d x z hidx hd hx hz => ruleLaws_b32.rds_of_ops hidx hd hx hz,
    iErrors_of_format (cmd := .rds) rfl index_illFormed⟩
  obtain ⟨q, hexec, honly, haudio, hkept⟩ :=
    ruleLaws_exact.rds_of_ops (p := p) hidx (exact_sub _ _) (exact_mul _ _) (exact_add _ _)
  have hz : q.z = p.z + p.a * (bufRead exactOps p p.j.val - p.z) := by rw [honly]
  refine ⟨q, hexec, honly, haudio.trans hz.symm, hkept, fun ha => ?_⟩
  rw [hz, ha]
  ring

/-! ## ROT (R141) -/

/-- The copy of the tail completes when the words of the tail may be read (U3). -/
theorem copyTail_of_read (hN : ZeroLaw N) {count : Nat} (hc : count ≤ 72)
    (hread : ∀ k, k < count → N.read (bufRead N p (256 + k)) = .ok (bufRead N p (256 + k))) :
    ∃ q, copyTail N p count = .ok q := by
  induction count with
  | zero => exact ⟨p, rfl⟩
  | succ n ih =>
    obtain ⟨q, hq⟩ := ih (by omega) fun k hk => hread k (by omega)
    have hsame : bufRead N q (256 + n) = bufRead N p (256 + n) := by
      refine (copyTail_ok hN (by omega) hq).1.kept _ ?_
      rintro ⟨k, hk, ha⟩
      rw [bufAddr_inj] at ha
      omega
    refine ⟨bufWrite N q n (bufRead N p (256 + n)), ?_⟩
    rw [copyTail, hq, ok_bind, show Config.fillLen = 256 from rfl, hsame, hread n (Nat.lt_succ_self n), ok_bind]

theorem rotRule_fold (N : NumOps Num) (hj : p.j.val = 255) : rotRule N p = foldBuffer N p :=
  dif_neg (by rw [hj]; decide)

/-- At the last cursor position `ROT` folds the buffer when the words of the tail may be read. -/
theorem rotRule_of_read (hN : ZeroLaw N) (hj : p.j.val = 255)
    (hread : ∀ k, k < 72 → N.read (bufRead N p (256 + k)) = .ok (bufRead N p (256 + k))) :
    ∃ q, rotRule N p = .ok q ∧ q = { p with j := 0, mem := q.mem } ∧
      (∀ k, k < 72 → bufRead N q k = bufRead N p (256 + k)) ∧
      (∀ k, 72 ≤ k → k < 328 → bufRead N q k = N.zero) ∧ MemKept N BufCells p q := by
  obtain ⟨r, hr⟩ := copyTail_of_read hN le_rfl hread
  have hfold : foldBuffer N p = .ok { clearCells N r Config.lMax (Config.bufLen - Config.lMax) with j := 0 } := by
    rw [foldBuffer, hr, ok_bind]
  obtain ⟨honly, hloop, hfront, hrest⟩ := foldBuffer_ok hN hfold
  exact ⟨_, (rotRule_fold N hj).trans hfold, honly,
    fun k hk => (Except.ok.inj ((hread k hk).symm.trans (hfront k hk))).symm, hrest, hloop.kept⟩

/-- Settles O39: the rule has the two cases, the cursor's advance and the fold. -/
theorem rotResult : Obligations.RotResult := by
  refine ⟨rfl, bothCores_of_ruleLaws fun Num N mk laws p hj => ?advance,
    bothCores_of_ruleLaws fun Num N mk laws p hj hread => ?fold, zErrors_of_format (i := .rot) rfl⟩
  case advance =>
    have hlt : p.j.val + 1 < Config.fillLen := Nat.add_lt_add_right hj 1
    exact ⟨_, laws.exec_of_rule (i := .rot) rfl (rotRule_advance N hlt), rfl, rfl⟩
  case fold =>
    obtain ⟨q, hrule, hq⟩ := rotRule_of_read laws.zero hj hread
    exact ⟨q, laws.exec_of_rule (i := .rot) rfl hrule, hq⟩

/-! ## TICK is its six steps (R142) -/

/-- The third step of `TICK` is the command that the comparison and `SHAPE` select. -/
theorem handleRule_eq_handler {idx : BitVec 16} {b : Bool}
    (hb : N.ge (sampleWord N p .syncIn idx.toNat) N.eps = .ok b) :
    handleRule N idx.toNat p = ruleOf N (handler b p.shape idx) p := by
  rw [handleRule, hb, ok_bind]
  cases b
  · cases hs : p.shape <;> simp only [detectRule, hs] <;> rfl
  · cases hs : p.shape <;> simp only [syncRule, hs] <;> rfl

theorem handler_wellFormed {idx : BitVec 16} (hidx : idx.toNat ≤ 1023) (b : Bool) (shape : Shape) :
    (handler b shape idx).wellFormed = true := by
  cases b <;> cases shape <;> exact index_wellFormed hidx

/-- The six steps of `TICK`, with the third one chosen. -/
def tickSteps (b : Bool) (shape : Shape) (idx : BitVec 16) : List Instr :=
  [.ramp, .adv, handler b shape idx, .dep, .rds idx, .rot]

theorem tickSteps_wellFormed {idx : BitVec 16} (hidx : idx.toNat ≤ 1023) (b : Bool) (shape : Shape) :
    ∀ i ∈ tickSteps b shape idx, i.wellFormed = true := by
  intro i hi
  have hhandler := handler_wellFormed hidx b shape
  simp only [tickSteps, List.mem_cons, List.not_mem_nil, or_false] at hi
  rcases hi with rfl | rfl | rfl | rfl | rfl | rfl
  exacts [rfl, rfl, hhandler, rfl, index_wellFormed hidx, rfl]

/-- `RAMP` and `ADV` change neither the sync word nor `SHAPE`, so that the third step may be chosen beforehand. -/
theorem tickRule_eq_steps {idx : BitVec 16} {b : Bool}
    (hb : N.ge (readWord N p (wordAddr .syncIn idx.toNat)) N.eps = .ok b) :
    tickRule N idx.toNat p = rulesOf N (tickSteps b p.shape idx) p := by
  rw [tickSteps, rulesOf_cons]
  refine bind_congr_of_ok fun p1 h1 => ?_
  rw [rulesOf_cons]
  refine bind_congr_of_ok fun p2 h2 => ?_
  obtain ⟨w, d, e1⟩ := rampRule_ok h1
  obtain ⟨x, e2⟩ := advRule_ok h2
  have hshape : p2.shape = p.shape := by rw [e2, e1]
  have hsync : sampleWord N p2 .syncIn idx.toNat = readWord N p (wordAddr .syncIn idx.toNat) :=
    readWord_congr N (by rw [e2, e1]) (by rw [e2, e1]) _
  rw [handleRule_eq_handler (hsync ▸ hb), hshape, rulesOf_cons]
  refine bind_congr_of_ok fun p3 _ => ?_
  rw [rulesOf_cons]
  refine bind_congr_of_ok fun p4 _ => ?_
  rw [rulesOf_cons]
  exact bind_congr_of_ok fun p5 _ => (rulesOf_singleton N .rot p5).symm

theorem RuleLaws.tick_eq_steps (laws : RuleLaws N mk) {idx : BitVec 16} {b : Bool} (hidx : idx.toNat ≤ 1023)
    (hb : N.ge (readWord N p (wordAddr .syncIn idx.toNat)) N.eps = .ok b) :
    exec (.tick idx) (mk p) = execAll (tickSteps b p.shape idx) (mk p) := by
  rw [laws.outcome (i := .tick idx) (index_wellFormed hidx), laws.execAll_eq (tickSteps_wellFormed hidx _ _),
    ← tickRule_eq_steps hb, ruleOf]

/-- Settles O40: in either configuration the rule is the six rules one after another. -/
theorem tickIsItsSteps : Obligations.TickIsItsSteps :=
  ⟨encodeI_eq_add 0x12, fun _ _ hidx => ruleLaws_exact.tick_eq_steps hidx (exact_ge _ _),
    fun _ _ _ hidx hb => ruleLaws_b32.tick_eq_steps hidx hb, iErrors_of_format (cmd := .tick) rfl index_illFormed⟩

/-! ## A sample completes under EXACT (R142, R200) -/

/-- The handling of a sample divides by the increment, and that of the triangle by the duty and its complement (U6, U7). -/
theorem handleRule_completes {p : Pabli Rat} {i : Nat} (hw : p.w ≠ 0)
    (htri : p.shape = .tri → p.duty ≠ 0 ∧ p.duty ≠ 1) : Answers (handleRule exactOps i p) fun _ => True := by
  have hp := Oscillator.self p
  simp only [handleRule, exact_ge, ok_bind]
  split
  · unfold syncRule
    split
    · exact (synsRule_answers hw hp i).mono fun _ _ => trivial
    · exact (synrRule_answers hw hp i).mono fun _ _ => trivial
    · obtain ⟨h0, h1⟩ := htri (by assumption)
      exact (syntRule_answers hw h0 h1 hp i).mono fun _ _ => trivial
  · unfold detectRule
    split
    · exact (detsRule_answers hw hp i).mono fun _ _ => trivial
    · exact (detrRule_answers hw hp i).mono fun _ _ => trivial
    · obtain ⟨h0, h1⟩ := htri (by assumption)
      exact (dettRule_answers hw h0 h1 hp i).mono fun _ _ => trivial

theorem tickRule_completes {p : Pabli Rat} {i : Nat} (hw : p.w + p.dw ≠ 0)
    (htri : p.shape = .tri → p.duty + p.db ≠ 0 ∧ p.duty + p.db ≠ 1) :
    Answers (tickRule exactOps i p) fun _ => True := by
  refine (rampRule_answers p).bind fun p1 e1 => (advRule_answers p1).bind fun p2 e2 => ?_
  have hw2 : p2.w ≠ 0 := by
    rw [e2, e1]
    exact hw
  have htri2 : p2.shape = .tri → p2.duty ≠ 0 ∧ p2.duty ≠ 1 := by
    rw [e2, e1]
    exact htri
  refine (handleRule_completes hw2 htri2).bind fun p3 _ => (depRule_answers p3).bind fun p4 _ => ?_
  exact (rdsRule_answers i p4).bind fun p5 _ => (rotRule_answers p5).mono fun _ _ => trivial

/-- Settles O41: no step of the sample divides by zero, and what a completed sample leaves is said once for every sample. -/
theorem tickCompletes : Obligations.TickCompletes := by
  intro p idx hidx hw htri
  obtain ⟨q, hq, -⟩ := tickRule_completes (i := idx.toNat) hw htri
  obtain ⟨hqw, hduty, hcursor, haudio, -⟩ := tickRule_registers exactOps_zeroLaw (Nat.lt_succ_of_le hidx) hq
  rw [exact_add, Except.ok.injEq] at hqw hduty
  exact ⟨q, exec_exact_of_rule (i := .tick idx) (index_wellFormed hidx) hq, hcursor, haudio, hqw.symm, hduty.symm⟩

end Sys2Proof.Machine
end

section
/-! PROOFS. RUN is the sequence of single commands that defines it (R132). -/

namespace Sys2Proof.Machine

variable {Num : Type} {N : NumOps Num}

/-! ## The schedule has legal operands -/

theorem toNat_ofNat_index {i : Nat} (h : i < 1024) : (BitVec.ofNat 16 i).toNat = i := by
  rw [BitVec.toNat_ofNat]
  omega

theorem toNat_ofNat_chunk (left : Nat) : (BitVec.ofNat 8 (min 16 left)).toNat = min 16 left := by
  rw [BitVec.toNat_ofNat]
  omega

theorem ticks_wellFormed {base c : Nat} (h : base + c ≤ 1024) : ∀ i ∈ ticks base c, i.wellFormed = true := by
  intro i hi
  obtain ⟨k, hk, rfl⟩ := List.mem_map.1 hi
  have hlt := List.mem_range.1 hk
  exact index_wellFormed (by rw [toNat_ofNat_index (by omega)]; omega)

theorem chunkSchedule_wellFormed {rounds base left : Nat} (h : base + left ≤ 1024) :
    ∀ i ∈ chunkSchedule rounds base left, i.wellFormed = true := by
  induction rounds generalizing base left with
  | zero => exact fun i hi => absurd hi List.not_mem_nil
  | succ m ih =>
    unfold chunkSchedule
    split
    · exact fun i hi => absurd hi List.not_mem_nil
    · rw [List.cons_append, List.forall_mem_cons, List.forall_mem_append]
      refine ⟨smooth_wellFormed ?_ ?_, ticks_wellFormed (by omega), ih (by omega)⟩
      · rw [toNat_ofNat_chunk]
        omega
      · rw [toNat_ofNat_index (by omega)]
        omega

theorem runSchedule_wellFormed {n : Nat} (hn : n ≤ 1024) (init : Bool) :
    ∀ i ∈ runSchedule n init, i.wellFormed = true := by
  unfold runSchedule
  split
  · exact fun i hi => absurd hi List.not_mem_nil
  · rw [List.cons_append, List.forall_mem_cons, List.forall_mem_append]
    refine ⟨rfl, ?_, chunkSchedule_wellFormed (by omega)⟩
    cases init <;> decide

/-! ## The block's rule is the schedule's -/

theorem ticks_succ (base c : Nat) : ticks base (c + 1) = ticks base c ++ [.tick (BitVec.ofNat 16 (base + c))] := by
  rw [ticks, List.range_succ, List.map_append, List.map_singleton, ← ticks]

theorem rulesOf_ticks {base c : Nat} (h : base + c ≤ 1024) (p : Pabli Num) :
    rulesOf N (ticks base c) p = tickRange N base p c := by
  induction c with
  | zero => rfl
  | succ c ih =>
    rw [ticks_succ, rulesOf_append, ih (by omega), tickRange]
    refine bind_congr_of_ok fun q _ => ?_
    rw [rulesOf_singleton, ruleOf, toNat_ofNat_index (by omega)]

theorem rulesOf_chunkSchedule {rounds base left : Nat} (h : base + left ≤ 1024) (p : Pabli Num) :
    rulesOf N (chunkSchedule rounds base left) p = chunksFrom N rounds base left p := by
  induction rounds generalizing base left p with
  | zero => rfl
  | succ m ih =>
    unfold chunkSchedule chunksFrom
    split
    · rfl
    · rw [List.cons_append, rulesOf_cons, ruleOf, toNat_ofNat_chunk, toNat_ofNat_index (by omega), chunkRule, bind_assoc]
      refine bind_congr_of_ok fun q _ => ?_
      rw [rulesOf_append, rulesOf_ticks (by omega)]
      exact bind_congr_of_ok fun r _ => ih (by omega) r

/-- `COEF` leaves `INIT`, so that whether `BOOT 0` runs is decided by the state before the block. -/
theorem rulesOf_runSchedule {n : Nat} (hn : n ≤ 1024) (p : Pabli Num) :
    rulesOf N (runSchedule n p.init) p = runBlock N n p := by
  unfold runSchedule runBlock
  split
  · rfl
  · rw [List.cons_append, rulesOf_cons, ruleOf]
    refine bind_congr_of_ok fun p1 h1 => ?_
    obtain ⟨a, ha⟩ := coefRule_ok h1
    have hinit : p1.init = p.init := by rw [ha]
    have hchunks (q : Pabli Num) : rulesOf N (chunkSchedule n 0 n) q = chunksFrom N n 0 n q :=
      rulesOf_chunkSchedule (by omega) q
    rw [bootIfNeeded, hinit]
    cases p.init with
    | true => exact hchunks p1
    | false =>
      rw [if_neg Bool.false_ne_true, if_neg Bool.false_ne_true, List.singleton_append, rulesOf_cons]
      exact bind_congr_of_ok fun p2 _ => hchunks p2

/-- Settles O30: in either configuration the block's rule is the schedule's rules one after another, and it stays within
the words of its samples. -/
theorem runIsItsSchedule : Obligations.RunIsItsSchedule := by
  refine ⟨encodeI_eq_add 0x02, bothCores_of_ruleLaws fun Num N mk laws p n hn => ?_,
    iErrors_of_format (cmd := .run) rfl fun n hlt => decide_eq_false (Nat.not_le.2 hlt)⟩
  have hwf : (Instr.run n).wellFormed = true := decide_eq_true hn
  refine ⟨?_, fun q hq => ?_⟩
  · rw [laws.outcome hwf, laws.execAll_eq (runSchedule_wellFormed hn _), rulesOf_runSchedule hn, ruleOf]
  · have hloop := runBlock_ok laws.zero hn (laws.ruleOf_of_exec laws.injective hwf hq)
    exact ⟨by rw [hloop.only], by rw [hloop.only], hloop.kept⟩

end Sys2Proof.Machine
end

section
/-! PROOFS. What the commands of the loop write, in both configurations (R132, R134 to R138, R142). -/

namespace Sys2Proof.Machine

/-- Settles O55: each rule sets the registers named and lists no word of memory. -/
theorem frameOfRegisterSteps : Obligations.FrameOfRegisterSteps := by
  refine bothCores_of_injective fun Num N mk laws hmk p q => ⟨fun h => ?coef, fun h => ?ramp, fun h => ?adv,
    fun cnt idx hc hidx h => ?smooth, fun idx hidx h => ?boot⟩
  case coef =>
    obtain ⟨a, rfl⟩ := coefRule_ok (laws.ruleOf_of_exec hmk (i := .coef) rfl h)
    exact ⟨rfl, fun _ _ => rfl⟩
  case ramp =>
    obtain ⟨w, d, rfl⟩ := rampRule_ok (laws.ruleOf_of_exec hmk (i := .ramp) rfl h)
    exact ⟨rfl, fun _ _ => rfl⟩
  case adv =>
    obtain ⟨x, rfl⟩ := advRule_ok (laws.ruleOf_of_exec hmk (i := .adv) rfl h)
    exact ⟨rfl, fun _ _ => rfl⟩
  case smooth =>
    obtain ⟨dw, db, rfl⟩ := smoothRule_ok (laws.ruleOf_of_exec hmk (smooth_wellFormed hc hidx) h)
    exact ⟨rfl, fun _ _ => rfl⟩
  case boot =>
    obtain ⟨phase, w, duty, lastv, rfl, hsaw⟩ :=
      bootRule_ok (laws.ruleOf_of_exec hmk (i := .boot idx) (index_wellFormed hidx) h)
    exact ⟨rfl, hsaw, fun _ _ => rfl⟩

/-- Settles O58: the loop's effect bounds both commands, and a sample leaves `A`, `DW`, `DB` and `INIT` besides. -/
theorem frameOfTickAndRun : Obligations.FrameOfTickAndRun := by
  refine bothCores_of_injective fun Num N mk laws hmk p q => ⟨fun idx hidx h => ?tick, fun n hn h => ?run⟩
  case tick =>
    have hrule := laws.ruleOf_of_exec hmk (i := .tick idx) (index_wellFormed hidx) h
    have hloop := tickRule_ok laws.zero (Nat.lt_succ_of_le hidx) hrule
    obtain ⟨-, -, -, -, ha, hdw, hdb, hinit⟩ := tickRule_registers laws.zero (Nat.lt_succ_of_le hidx) hrule
    have honly := hloop.only
    rw [ha, hdw, hdb, hinit] at honly
    exact ⟨honly, hloop.kept⟩
  case run =>
    have hloop := runBlock_ok laws.zero hn (laws.ruleOf_of_exec hmk (i := .run n) (decide_eq_true hn) h)
    exact ⟨hloop.only, hloop.kept⟩

end Sys2Proof.Machine
end

section
/-! PROOFS. The detectors under EXACT with their exceptions (R160 to R165): a sample is a pass of edge and wrap tests, and
each test of a rule adds to the pass what the reference adds. -/

namespace Sys2Proof.Machine

variable {p q : Pabli Rat} {x limit : Rat} {c new : Pass} {i : Nat}

/-! ## Passes, one test at a time -/

/-- The pass after one more test of a phase: from the limit on, the new edge and value and the new pulses besides. -/
def Pass.cross (c : Pass) (limit x : Rat) (new : Pass) : Pass :=
  if limit ≤ x then ⟨new.edge, new.value, c.pulses ++ new.pulses⟩ else c

/-- What `fall(phi)` of the rectangle adds (R163). -/
def rectFallPass (phi : Rat) : Pass := ⟨.b, -1 / 2, [.step phi (-1)]⟩

/-- What `rise(phi)` of the rectangle adds (R163). -/
def rectRisePass (phi : Rat) : Pass := ⟨.a, 1 / 2, [.step phi 1]⟩

/-- What the break of the triangle on a phase adds, at an offset (R164). -/
def triBreakPass (duty x phi : Rat) : Pass := ⟨.b, refFall duty x, [.slope phi (-refMup duty)]⟩

/-- What the wrap of the triangle to a phase adds, at an offset (R164). -/
def triWrapPass (duty x phi : Rat) : Pass := ⟨.a, refRise duty x, [.slope phi (refMup duty)]⟩

theorem Pass.cross_of_le (hx : limit ≤ x) :
    c.cross limit x new = ⟨new.edge, new.value, c.pulses ++ new.pulses⟩ := if_pos hx

theorem Pass.cross_of_not_le (hx : ¬ limit ≤ x) : c.cross limit x new = c := if_neg hx

/-- In segment A the falling edge is tested first, then the wrap (R163, R185). -/
theorem rectPass_a (duty off value x : Rat) : rectPass duty off .a value x =
    ((⟨.a, value, []⟩ : Pass).cross duty x (rectFallPass (x - duty + off))).cross 1 x (rectRisePass (x - 1 + off)) := by
  by_cases hfall : duty ≤ x <;> by_cases hwrap : 1 ≤ x <;>
    simp [rectPass, Pass.cross, rectFallPass, rectRisePass, hfall, hwrap]

/-- In segment B the wrap is tested first, then, if it led to segment A, the falling edge (R163, R185). -/
theorem rectPass_b (duty off value x : Rat) : rectPass duty off .b value x =
    let c := (⟨.b, value, []⟩ : Pass).cross 1 x (rectRisePass (x - 1 + off))
    if c.edge = .a then c.cross duty (wrapped x) (rectFallPass (wrapped x - duty + off)) else c := by
  by_cases hwrap : 1 ≤ x
  · by_cases hfall : duty ≤ x - 1 <;>
      simp [rectPass, Pass.cross, rectFallPass, rectRisePass, wrapped, hwrap, hfall]
  · simp [rectPass, Pass.cross, hwrap]

/-- In segment A the slope break is tested first, then the wrap (R164, R185). -/
theorem triPass_a (duty off x : Rat) : triPass duty off .a x =
    ((⟨.a, refRise duty x, []⟩ : Pass).cross duty x (triBreakPass duty x (x - duty + off))).cross 1 x
      (triWrapPass duty (x - 1) (x - 1 + off)) := by
  by_cases hbreak : duty ≤ x <;> by_cases hwrap : 1 ≤ x <;>
    simp [triPass, Pass.cross, triBreakPass, triWrapPass, hbreak, hwrap]

/-- In segment B the wrap is tested first, then, if it led to segment A, the slope break (R164, R185). -/
theorem triPass_b (duty off x : Rat) : triPass duty off .b x =
    let c := (⟨.b, refFall duty x, []⟩ : Pass).cross 1 x (triWrapPass duty (x - 1) (x - 1 + off))
    if c.edge = .a then c.cross duty (wrapped x) (triBreakPass duty (wrapped x) (wrapped x - duty + off)) else c := by
  by_cases hwrap : 1 ≤ x
  · by_cases hbreak : duty ≤ x - 1 <;>
      simp [triPass, Pass.cross, triBreakPass, triWrapPass, wrapped, hwrap, hbreak]
  · simp [triPass, Pass.cross, hwrap]

/-! ## Passes that divide by no zero increment (U6) -/

/-- The pulses of the pass can be injected: their index mapping divides by `W`. -/
def Playable (p : Pabli Rat) (c : Pass) : Prop := p.w ≠ 0 ∨ c.pulses = []

theorem Playable.before (h : Playable p (c.cross limit x new)) : Playable p c := by
  refine h.imp_right fun hnil => ?_
  unfold Pass.cross at hnil
  split at hnil
  · exact (List.append_eq_nil_iff.1 hnil).1
  · exact hnil

theorem Playable.of_ite {P : Prop} [Decidable P] (h : Playable p (if P then c.cross limit x new else c)) :
    Playable p c := by
  split at h
  · exact h.before
  · exact h

theorem Playable.increment_ne_zero (h : Playable p (c.cross limit x new)) (hnew : new.pulses ≠ []) (hx : limit ≤ x) :
    p.w ≠ 0 := by
  refine h.resolve_right fun hnil => hnew ?_
  rw [Pass.cross_of_le hx] at hnil
  exact (List.append_eq_nil_iff.1 hnil).2

/-! ## A sample of `p` under way -/

theorem wrapSync_exact {w : Rat} (hw : w ≠ 0) (phase : Rat) :
    wrapSync exactOps phase w = .ok (phase / w + Config.eps) := by
  simp only [wrapSync, exact_div hw, ok_bind, exact_add, exact_eps]

/-- The sample of `p` has come to `q`: this phase, and the edge, ideal value and pulses of the pass so far. -/
structure Reached (p q : Pabli Rat) (x : Rat) (c : Pass) : Prop where
  injected : Injected p q c.pulses
  phase : q.phase = x
  edge : q.edge = c.edge
  lastv : q.lastv = c.value

namespace Reached

theorem self (p : Pabli Rat) : Reached p p p.phase ⟨p.edge, p.lastv, []⟩ := ⟨Injected.self p, rfl, rfl, rfl⟩

theorem w (h : Reached p q x c) : q.w = p.w := h.injected.effect.w

theorem duty (h : Reached p q x c) : q.duty = p.duty := h.injected.effect.duty

theorem wrapSync (h : Reached p q x c) (hw : p.w ≠ 0) (phase : Rat) :
    wrapSync exactOps phase q.w = .ok (phase / p.w + Config.eps) := by rw [h.w, wrapSync_exact hw]

theorem setPhase (h : Reached p q x c) (y : Rat) : Reached p { q with phase := y } y c :=
  ⟨h.injected.set y q.edge q.lastv, rfl, h.edge, h.lastv⟩

theorem setLastv (h : Reached p q x c) (v : Rat) : Reached p { q with lastv := v } x ⟨c.edge, v, c.pulses⟩ :=
  ⟨h.injected.set q.phase q.edge v, h.phase, h.edge, rfl⟩

theorem setEdge (h : Reached p q x c) (e : Edge) : Reached p { q with edge := e } x ⟨e, c.value, c.pulses⟩ :=
  ⟨h.injected.set q.phase e q.lastv, h.phase, rfl, h.lastv⟩

theorem of_injected {r : Pabli Rat} {pulses : List Pulse} (h : Reached p q x c) (hr : Injected p r pulses)
    (honly : r = { q with mem := r.mem }) : Reached p r x ⟨c.edge, c.value, pulses⟩ := by
  refine ⟨hr, ?_, ?_, ?_⟩ <;> rw [honly]
  · exact h.phase
  · exact h.edge
  · exact h.lastv

theorem step (h : Reached p q x c) (hw : p.w ≠ 0) (phi m : Rat) :
    Answers (injectStep exactOps phi m q) fun r => Reached p r x ⟨c.edge, c.value, c.pulses ++ [.step phi m]⟩ := by
  obtain ⟨r, hr, hinj, honly⟩ := h.injected.step hw phi m
  exact ⟨r, hr, h.of_injected hinj honly⟩

theorem slope (h : Reached p q x c) (hw : p.w ≠ 0) (phi m : Rat) :
    Answers (injectSlope exactOps phi m q) fun r => Reached p r x ⟨c.edge, c.value, c.pulses ++ [.slope phi m]⟩ := by
  obtain ⟨r, hr, hinj, honly⟩ := h.injected.slope hw phi m
  exact ⟨r, hr, h.of_injected hinj honly⟩

end Reached

/-- The wrap test of the sample of `p` has been made: the sync output of R161, and the state with the wrapped phase. -/
structure WrapTested (p : Pabli Rat) (c : Pass) (r : Rat × Pabli Rat) : Prop where
  syncOut : r.1 = refSyncOut p.phase p.w
  reached : Reached p r.2 (wrapped p.phase) c

/-- What a pass makes of the sample of `p`. -/
def Pass.sample (c : Pass) (p : Pabli Rat) : Sample :=
  ⟨wrapped p.phase, c.edge, c.value, refSyncOut p.phase p.w, c.pulses⟩

theorem Reached.done {so : Rat} (h : Reached p q (wrapped p.phase) c) (hso : so = refSyncOut p.phase p.w)
    (hi : i < 1024) : SampleDone p (emitSync exactOps q i so) i (c.sample p) := by
  have hdone := h.injected.done hi so
  rw [h.phase, h.edge, h.lastv, hso] at hdone
  rw [hso]
  exact hdone

theorem WrapTested.done {so : Rat} (h : WrapTested p c (so, q)) (hi : i < 1024) :
    SampleDone p (emitSync exactOps q i so) i (c.sample p) := h.reached.done h.syncOut hi

/-- A wrap test that fires leaves the wrapped phase and the sync output of a wrap. -/
theorem WrapTested.of_wrap (hx : 1 ≤ p.phase) (h : Reached p q (p.phase - 1) c) :
    WrapTested p c ((p.phase - 1) / p.w + Config.eps, q) where
  syncOut := (if_pos hx).symm
  reached := by
    rw [wrapped, if_pos hx]
    exact h

theorem WrapTested.of_no_wrap (hx : ¬ 1 ≤ p.phase) (h : Reached p q p.phase c) : WrapTested p c (0, q) where
  syncOut := (if_neg hx).symm
  reached := by
    rw [wrapped, if_neg hx]
    exact h

/-- A command whose rule answers goes to a state with what is known of the answer. -/
theorem Answers.exec {cmd : Instr} {P : Pabli Rat → Prop} (h : Answers (ruleOf exactOps cmd p) P)
    (hcmd : cmd.wellFormed = true) : ∃ q, Machine.exec cmd (exactState p) = .next (exactState q) ∧ P q := by
  obtain ⟨q, hq, hP⟩ := h
  exact ⟨q, exec_exact_of_rule hcmd hq, hP⟩

/-! ## DETS (R162) -/

theorem detsRule_exact (hi : i < 1024) (hw : p.w ≠ 0 ∨ (sawSample p).pulses = []) :
    Answers (detsRule exactOps i p) fun q => SampleDone p q i (sawSample p) := by
  simp only [detsRule, exact_ge, exact_sub, exact_one, exact_zero, exact_half, ok_bind, decide_eq_true_eq]
  split
  case isTrue hx =>
    have hw0 : p.w ≠ 0 := hw.resolve_right (by simp [sawSample, hx])
    have hsample : sawSample p =
        ((⟨p.edge, 1 / 2 - (p.phase - 1), [.step (p.phase - 1) 1]⟩ : Pass).sample p) := by
      simp [sawSample, Pass.sample, wrapped, hx]
    rw [wrapSync_exact hw0, ok_bind, hsample]
    refine (((Reached.self p).setPhase (p.phase - 1)).step hw0 (p.phase - 1) 1).bind fun q hq => ?_
    exact Answers.ok ((WrapTested.of_wrap hx (hq.setLastv _)).done hi)
  case isFalse hx =>
    have hsample : sawSample p = (⟨p.edge, 1 / 2 - p.phase, []⟩ : Pass).sample p := by
      simp [sawSample, Pass.sample, wrapped, hx]
    rw [hsample]
    exact Answers.ok ((WrapTested.of_no_wrap hx ((Reached.self p).setLastv _)).done hi)

/-- Settles O48: the sample wraps, with one step pulse, or it does not, and divides by nothing. -/
theorem detsResult : Obligations.DetsResult :=
  ⟨fun _ idx hidx hw =>
    (detsRule_exact (Nat.lt_succ_of_le hidx) hw).exec (cmd := .dets idx) (index_wellFormed hidx),
    iErrors_of_format (cmd := .dets) rfl index_illFormed⟩

/-! ## DETR (R163) -/

theorem Reached.rectFall (h : Reached p q x c) (hw : p.w ≠ 0) (phi : Rat) :
    Answers (rectFall exactOps phi q) fun r => Reached p r x ⟨.b, -1 / 2, c.pulses ++ [.step phi (-1)]⟩ :=
  (h.step hw phi (-1)).bind fun _ hr => .ok ((hr.setEdge .b).setLastv (-1 / 2))

theorem Reached.rectRise (h : Reached p q x c) (hw : p.w ≠ 0) (phi : Rat) :
    Answers (rectRise exactOps phi q) fun r => Reached p r x ⟨.a, 1 / 2, c.pulses ++ [.step phi 1]⟩ :=
  (h.step hw phi 1).bind fun _ hr => .ok ((hr.setEdge .a).setLastv (1 / 2))

theorem Reached.rectFallTest (h : Reached p q x c) (hw : Playable p (c.cross p.duty x (rectFallPass (x - p.duty)))) :
    Answers (rectFallTest exactOps q) fun r => Reached p r x (c.cross p.duty x (rectFallPass (x - p.duty))) := by
  simp only [Machine.rectFallTest, exact_ge, exact_sub, ok_bind, h.phase, h.duty, decide_eq_true_eq]
  split
  case isTrue hx =>
    have hw0 := hw.increment_ne_zero (List.cons_ne_nil _ _) hx
    rw [Pass.cross_of_le hx]
    exact h.rectFall hw0 _
  case isFalse hx =>
    rw [Pass.cross_of_not_le hx]
    exact .ok h

theorem Reached.rectWrapTest (h : Reached p q p.phase c)
    (hw : Playable p (c.cross 1 p.phase (rectRisePass (p.phase - 1)))) :
    Answers (rectWrapTest exactOps q) (WrapTested p (c.cross 1 p.phase (rectRisePass (p.phase - 1)))) := by
  simp only [Machine.rectWrapTest, exact_ge, exact_sub, exact_one, exact_zero, ok_bind, h.phase, decide_eq_true_eq]
  split
  case isTrue hx =>
    have hw0 := hw.increment_ne_zero (List.cons_ne_nil _ _) hx
    rw [h.wrapSync hw0, ok_bind, Pass.cross_of_le hx]
    refine ((h.setPhase (p.phase - 1)).rectRise hw0 (p.phase - 1)).bind fun r hr => ?_
    exact Answers.ok (WrapTested.of_wrap hx hr)
  case isFalse hx =>
    rw [Pass.cross_of_not_le hx]
    exact Answers.ok (WrapTested.of_no_wrap hx h)

theorem detrRule_exact (hi : i < 1024) (hw : p.w ≠ 0 ∨ (rectSample p).pulses = []) :
    Answers (detrRule exactOps i p) fun q => SampleDone p q i (rectSample p) := by
  have hplay : Playable p (rectPass p.duty 0 p.edge p.lastv p.phase) := hw
  have hstart : Reached p p p.phase ⟨p.edge, p.lastv, []⟩ := Reached.self p
  suffices hdone : Answers (detrRule exactOps i p) fun q =>
    SampleDone p q i ((rectPass p.duty 0 p.edge p.lastv p.phase).sample p) from hdone
  rw [detrRule]
  cases hedge : p.edge <;> rw [hedge] at hplay hstart
  case a =>
    simp only [rectPass_a, add_zero] at hplay ⊢
    refine (hstart.rectFallTest hplay.before).bind fun q hq => ?_
    exact (hq.rectWrapTest hplay).bind fun r hr => .ok (hr.done hi)
  case b =>
    simp only [rectPass_b, add_zero] at hplay ⊢
    refine (hstart.rectWrapTest hplay.of_ite).bind fun r hr => ?_
    generalize Pass.cross _ 1 p.phase _ = c at hplay hr ⊢
    rw [hr.reached.edge]
    cases hc : c.edge
    case a =>
      simp only [hc, if_true] at hplay ⊢
      exact (hr.reached.rectFallTest hplay).bind fun q hq => Answers.ok (hq.done hr.syncOut hi)
    case b => exact Answers.ok (hr.done hi)

/-- Settles O49: in either segment the rule's tests, in their order, make the reference's pass. -/
theorem detrResult : Obligations.DetrResult :=
  ⟨fun _ idx hidx hw =>
    (detrRule_exact (Nat.lt_succ_of_le hidx) hw).exec (cmd := .detr idx) (index_wellFormed hidx),
    iErrors_of_format (cmd := .detr) rfl index_illFormed⟩

/-! ## DETT (R164, R165) -/

theorem vrise_exact {d : Rat} (hd : d ≠ 0) (x : Rat) : vrise exactOps d x = .ok (refRise d x) := by
  simp only [vrise, exact_div hd, ok_bind, exact_add, exact_negHalf, refRise]

theorem vfall_exact {d : Rat} (hd : d ≠ 1) (x : Rat) : vfall exactOps d (1 - d) x = .ok (refFall d x) := by
  simp only [vfall, exact_sub, exact_div (sub_ne_zero.2 hd.symm), ok_bind, exact_half, refFall]

theorem triConsts_exact {d : Rat} (h0 : d ≠ 0) (h1 : d ≠ 1) : triConsts exactOps d = .ok ⟨1 - d, refMup d⟩ := by
  simp only [triConsts, exact_sub, exact_one, exact_div h0, exact_div (sub_ne_zero.2 h1.symm), exact_add, ok_bind,
    refMup]

theorem Reached.vrise (h : Reached p q x c) (h0 : p.duty ≠ 0) (y : Rat) :
    vrise exactOps q.duty y = .ok (refRise p.duty y) := by rw [h.duty, vrise_exact h0]

theorem Reached.triBreakTest (h : Reached p q x c) (h1 : p.duty ≠ 1)
    (hw : Playable p (c.cross p.duty x (triBreakPass p.duty x (x - p.duty)))) :
    Answers (triBreakTest exactOps ⟨1 - p.duty, refMup p.duty⟩ q) fun r =>
      Reached p r x (c.cross p.duty x (triBreakPass p.duty x (x - p.duty))) := by
  obtain rfl := h.phase
  rw [← h.duty] at h1 hw ⊢
  simp only [Machine.triBreakTest, exact_ge, exact_sub, exact_neg, ok_bind, decide_eq_true_eq]
  split
  case isTrue hx =>
    have hw0 := hw.increment_ne_zero (List.cons_ne_nil _ _) hx
    rw [vfall_exact h1, ok_bind, Pass.cross_of_le hx]
    exact ((h.setLastv _).slope hw0 _ _).bind fun r hr => Answers.ok (hr.setEdge .b)
  case isFalse hx =>
    rw [Pass.cross_of_not_le hx]
    exact .ok h

theorem Reached.triWrapTest (h : Reached p q p.phase c) (h0 : p.duty ≠ 0) {b1 : Rat}
    (hw : Playable p (c.cross 1 p.phase (triWrapPass p.duty (p.phase - 1) (p.phase - 1)))) :
    Answers (triWrapTest exactOps ⟨b1, refMup p.duty⟩ q)
      (WrapTested p (c.cross 1 p.phase (triWrapPass p.duty (p.phase - 1) (p.phase - 1)))) := by
  simp only [Machine.triWrapTest, exact_ge, exact_sub, exact_one, exact_zero, ok_bind, h.phase, decide_eq_true_eq]
  split
  case isTrue hx =>
    have hw0 := hw.increment_ne_zero (List.cons_ne_nil _ _) hx
    rw [h.wrapSync hw0, ok_bind, h.vrise h0, ok_bind, Pass.cross_of_le hx]
    refine (((h.setPhase (p.phase - 1)).setLastv (refRise p.duty (p.phase - 1))).slope hw0 (p.phase - 1)
      (refMup p.duty)).bind fun r hr => ?_
    exact Answers.ok (WrapTested.of_wrap hx (hr.setEdge .a))
  case isFalse hx =>
    rw [Pass.cross_of_not_le hx]
    exact Answers.ok (WrapTested.of_no_wrap hx h)

theorem dettRule_exact (hi : i < 1024) (h0 : p.duty ≠ 0) (h1 : p.duty ≠ 1)
    (hw : p.w ≠ 0 ∨ (triSample p).pulses = []) :
    Answers (dettRule exactOps i p) fun q => SampleDone p q i (triSample p) := by
  have hplay : Playable p (triPass p.duty 0 p.edge p.phase) := hw
  suffices hdone : Answers (dettRule exactOps i p) fun q =>
    SampleDone p q i ((triPass p.duty 0 p.edge p.phase).sample p) from hdone
  have hstart (v : Rat) : Reached p { p with lastv := v } p.phase ⟨p.edge, v, []⟩ := (Reached.self p).setLastv v
  rw [dettRule, triConsts_exact h0 h1, ok_bind]
  cases hedge : p.edge <;> rw [hedge] at hplay hstart
  case a =>
    simp only [triPass_a, add_zero] at hplay ⊢
    rw [vrise_exact h0, ok_bind]
    refine ((hstart _).triBreakTest h1 hplay.before).bind fun q hq => ?_
    exact (hq.triWrapTest h0 hplay).bind fun r hr => .ok (hr.done hi)
  case b =>
    simp only [triPass_b, add_zero] at hplay ⊢
    rw [vfall_exact h1, ok_bind]
    refine ((hstart _).triWrapTest h0 hplay.of_ite).bind fun r hr => ?_
    generalize Pass.cross _ 1 p.phase _ = c at hplay hr ⊢
    rw [hr.reached.edge]
    cases hc : c.edge
    case a =>
      simp only [hc, if_true] at hplay ⊢
      exact (hr.reached.triBreakTest h1 hplay).bind fun q hq => Answers.ok (hq.done hr.syncOut hi)
    case b => exact Answers.ok (hr.done hi)

/-- Settles O50: as O49, from the ideal value of the segment at entry and with slope pulses of `mup`. -/
theorem dettResult : Obligations.DettResult :=
  ⟨fun _ idx hidx h0 h1 hw =>
    (dettRule_exact (Nat.lt_succ_of_le hidx) h0 h1 hw).exec (cmd := .dett idx) (index_wellFormed hidx),
    iErrors_of_format (cmd := .dett) rfl index_illFormed⟩

end Sys2Proof.Machine
end

section
/-! PROOFS. What the detector and hard-sync commands write, in both configurations (R160, R180). -/

namespace Sys2Proof.Machine

/-- A sample that leaves `EDGE` writes `PHASE`, `LASTV` and memory alone. -/
theorem SampleEffect.only_of_edge {Num : Type} {N : NumOps Num} {S : Nat → Prop} {p q : Pabli Num}
    (h : SampleEffect N S p q) (hedge : q.edge = p.edge) :
    q = { p with phase := q.phase, lastv := q.lastv, mem := q.mem } := by
  have honly := h.only
  rw [hedge] at honly
  exact honly

/-- Settles O57: every rule of a sample has the sample's effect, and the two of the sawtooth leave `EDGE`. -/
theorem frameOfSampleCommands : Obligations.FrameOfSampleCommands := by
  refine bothCores_of_injective fun Num N mk laws hmk p q idx hidx => ⟨fun h => ?saw, fun h => ?edges⟩
  all_goals
    have hi : idx.toNat < 1024 := Nat.lt_succ_of_le hidx
    have hok := index_wellFormed hidx
  case saw =>
    rcases h with h | h
    · have hrule := laws.ruleOf_of_exec hmk (i := .dets idx) hok h
      have heffect := detsRule_ok laws.zero hi hrule
      exact ⟨heffect.only_of_edge (detsRule_edge laws.zero hrule), heffect.kept⟩
    · have hrule := laws.ruleOf_of_exec hmk (i := .syns idx) hok h
      have heffect := synsRule_ok laws.zero hi hrule
      exact ⟨heffect.only_of_edge (synsRule_edge laws.zero hrule), heffect.kept⟩
  case edges =>
    have heffect : SampleEffect N (SampleCells p idx.toNat) p q := by
      rcases h with h | h | h | h
      · exact detrRule_ok laws.zero hi (laws.ruleOf_of_exec hmk (i := .detr idx) hok h)
      · exact dettRule_ok laws.zero hi (laws.ruleOf_of_exec hmk (i := .dett idx) hok h)
      · exact synrRule_ok laws.zero hi (laws.ruleOf_of_exec hmk (i := .synr idx) hok h)
      · exact syntRule_ok laws.zero hi (laws.ruleOf_of_exec hmk (i := .synt idx) hok h)
    exact ⟨heffect.only, heffect.kept⟩

end Sys2Proof.Machine
end

section
/-! PROOFS. The hard-sync commands under EXACT with their exceptions (R180 to R186): a sample is a catch-up pass on the old
cycle's phase, a reset pass on the new one's, and the sync word passed on. -/

namespace Sys2Proof.Machine

variable {p q : Pabli Rat} {x eof par s : Rat} {c : Pass} {i : Nat}

/-- Step 1 of the algorithm (R181). -/
theorem syncStart_exact (hs : readWord exactOps p (wordAddr .syncIn i) = s) :
    syncStart exactOps p i = .ok ⟨s, refEof s p.w, p.phase - refEof s p.w⟩ := by
  simp only [syncStart, sampleWord, hs, exact_sub, exact_mul, exact_eps, ok_bind, refEof]

/-- Step 1 writes the phase of the new cycle, before either pass. -/
theorem Reached.restart (p : Pabli Rat) (eof : Rat) :
    Reached p { p with phase := eof } eof ⟨p.edge, p.lastv, []⟩ := (Reached.self p).setPhase eof

/-- Step 4 passes the sync word on: the sample is done (R185). -/
theorem Reached.passOn (h : Reached p q x c) (hi : i < 1024) (s : Rat) :
    SampleDone p (emitSync exactOps q i s) i ⟨x, c.edge, c.value, s, c.pulses⟩ := by
  have hdone := h.injected.done hi s
  rwa [h.phase, h.edge, h.lastv] at hdone

/-- The wrap test of a catch-up pass has been made: the old cycle's phase is wrapped, the new one's is not touched. -/
structure CatchWrapped (p : Pabli Rat) (x par : Rat) (c : Pass) (r : Rat × Pabli Rat) : Prop where
  par : r.1 = wrapped par
  reached : Reached p r.2 x c

theorem wrapped_of_le (hx : 1 ≤ x) : wrapped x = x - 1 := if_pos hx

theorem wrapped_of_not_le (hx : ¬ 1 ≤ x) : wrapped x = x := if_neg hx

/-! ## SYNS (R182) -/

/-- What the wrap of the old cycle adds, at an offset: the sawtooth has one segment, and its value is written at the end. -/
def sawWrapPass (c : Pass) (phi : Rat) : Pass := ⟨c.edge, c.value, [.step phi 1]⟩

theorem Reached.sawCatchUp (h : Reached p q x c) (hw : p.w ≠ 0) :
    Answers (sawCatchUp exactOps eof par q)
      (CatchWrapped p x par (c.cross 1 par (sawWrapPass c (par - 1 + eof)))) := by
  simp only [Machine.sawCatchUp, exact_ge, exact_sub, exact_add, exact_one, ok_bind, decide_eq_true_eq]
  split
  case isTrue hx =>
    rw [Pass.cross_of_le hx]
    exact (h.step hw _ 1).bind fun r hr => .ok ⟨(wrapped_of_le hx).symm, hr⟩
  case isFalse hx =>
    rw [Pass.cross_of_not_le hx]
    exact .ok ⟨(wrapped_of_not_le hx).symm, h⟩

/-- The reference's pulses are those of the catch-up, and the reset step after them. -/
theorem sawSync_eq (p : Pabli Rat) (s : Rat) :
    sawSync p s =
      let eof := refEof s p.w
      let par := p.phase - eof
      let c := (⟨p.edge, p.lastv, []⟩ : Pass).cross 1 par (sawWrapPass ⟨p.edge, p.lastv, []⟩ (par - 1 + eof))
      ⟨eof, c.edge, 1 / 2 - eof, s, c.pulses ++ [.step eof (wrapped par)]⟩ := by
  by_cases hx : 1 ≤ p.phase - refEof s p.w <;> simp [sawSync, Pass.cross, sawWrapPass, wrapped, hx]

theorem synsRule_exact (hi : i < 1024) (hw : p.w ≠ 0) (hs : readWord exactOps p (wordAddr .syncIn i) = s) :
    Answers (synsRule exactOps i p) fun q => SampleDone p q i (sawSync p s) := by
  rw [synsRule, syncStart_exact hs, ok_bind, sawSync_eq]
  refine ((Reached.restart p _).sawCatchUp hw).bind fun ⟨par, q⟩ ⟨hpar, hq⟩ => ?_
  obtain rfl : par = _ := hpar
  refine (hq.step hw _ _).bind fun r hr => ?_
  rw [exact_sub, exact_half, ok_bind]
  exact Answers.ok ((hr.setLastv _).passOn hi s)

/-- Settles O51: the old cycle's wrap, if it had one, then the reset step. -/
theorem synsResult : Obligations.SynsResult :=
  ⟨fun _ idx hidx hw =>
    (synsRule_exact (Nat.lt_succ_of_le hidx) hw rfl).exec (cmd := .syns idx) (index_wellFormed hidx),
    iErrors_of_format (cmd := .syns) rfl index_illFormed⟩

/-! ## SYNR (R183) -/

theorem Reached.rectCatchFall (h : Reached p q x c)
    (hw : Playable p (c.cross p.duty par (rectFallPass (par - p.duty + eof)))) :
    Answers (rectCatchFall exactOps eof par q) fun r =>
      Reached p r x (c.cross p.duty par (rectFallPass (par - p.duty + eof))) := by
  simp only [Machine.rectCatchFall, exact_ge, exact_sub, exact_add, ok_bind, h.duty, decide_eq_true_eq]
  split
  case isTrue hx =>
    have hw0 := hw.increment_ne_zero (List.cons_ne_nil _ _) hx
    rw [Pass.cross_of_le hx]
    exact h.rectFall hw0 _
  case isFalse hx =>
    rw [Pass.cross_of_not_le hx]
    exact .ok h

theorem Reached.rectCatchWrap (h : Reached p q x c)
    (hw : Playable p (c.cross 1 par (rectRisePass (par - 1 + eof)))) :
    Answers (rectCatchWrap exactOps eof par q)
      (CatchWrapped p x par (c.cross 1 par (rectRisePass (par - 1 + eof)))) := by
  simp only [Machine.rectCatchWrap, exact_ge, exact_sub, exact_add, exact_one, ok_bind, decide_eq_true_eq]
  split
  case isTrue hx =>
    have hw0 := hw.increment_ne_zero (List.cons_ne_nil _ _) hx
    rw [Pass.cross_of_le hx]
    exact (h.rectRise hw0 _).bind fun r hr => .ok ⟨(wrapped_of_le hx).symm, hr⟩
  case isFalse hx =>
    rw [Pass.cross_of_not_le hx]
    exact .ok ⟨(wrapped_of_not_le hx).symm, h⟩

/-- The catch-up pass is the detector's pass on the old cycle's phase, every offset increased by `eof` (R185). -/
theorem Reached.rectCatchUp (h : Reached p q x ⟨p.edge, p.lastv, []⟩)
    (hw : Playable p (rectPass p.duty eof p.edge p.lastv par)) :
    Answers (rectCatchUp exactOps eof par q) fun r => Reached p r x (rectPass p.duty eof p.edge p.lastv par) := by
  rw [Machine.rectCatchUp, h.edge]
  cases hedge : p.edge <;> rw [hedge] at hw h
  case a =>
    rw [rectPass_a] at hw ⊢
    refine (h.rectCatchFall hw.before).bind fun q hq => ?_
    exact (hq.rectCatchWrap hw).bind fun r hr => .ok hr.reached
  case b =>
    simp only [rectPass_b] at hw ⊢
    refine (h.rectCatchWrap hw.of_ite).bind fun ⟨par', q⟩ ⟨hpar, hq⟩ => ?_
    obtain rfl : par' = _ := hpar
    generalize Pass.cross _ 1 par _ = c at hw hq ⊢
    rw [hq.edge]
    cases hc : c.edge
    case a =>
      simp only [hc, if_true] at hw ⊢
      exact hq.rectCatchFall hw
    case b => exact Answers.ok hq

/-- The pass after the first reset test: from segment B, the jump up to the new cycle's level (R183). -/
def Pass.resetRise (c : Pass) (eof : Rat) : Pass :=
  if c.edge = .b then ⟨.a, 1 / 2, c.pulses ++ [.step eof 1]⟩ else c

theorem rectReset_eq (duty eof : Rat) (c : Pass) :
    rectReset duty eof c = (c.resetRise eof).cross duty eof (rectFallPass (eof - duty)) := rfl

theorem Reached.rectResetRise (h : Reached p q x c) (hw : Playable p (c.resetRise x)) :
    Answers (rectResetRise exactOps q) fun r => Reached p r x (c.resetRise x) := by
  rw [Machine.rectResetRise, h.edge, h.phase]
  rw [Pass.resetRise] at hw ⊢
  cases hc : c.edge
  case a => exact .ok h
  case b =>
    rw [hc, if_pos rfl] at hw
    exact h.rectRise (hw.resolve_right (List.append_ne_nil_of_right_ne_nil _ (List.cons_ne_nil _ _))) x

theorem Playable.before_resetRise (h : Playable p (c.resetRise eof)) : Playable p c := by
  refine h.imp_right fun hnil => ?_
  unfold Pass.resetRise at hnil
  split at hnil
  · exact (List.append_eq_nil_iff.1 hnil).1
  · exact hnil

theorem synrRule_exact (hi : i < 1024) (hw : p.w ≠ 0 ∨ (rectSync p s).pulses = [])
    (hs : readWord exactOps p (wordAddr .syncIn i) = s) :
    Answers (synrRule exactOps i p) fun q => SampleDone p q i (rectSync p s) := by
  have hplay : Playable p (rectSyncPass p s) := hw
  rw [rectSyncPass, rectReset_eq] at hplay
  rw [synrRule, syncStart_exact hs, ok_bind]
  refine ((Reached.restart p _).rectCatchUp hplay.before.before_resetRise).bind fun q hq => ?_
  refine (hq.rectResetRise hplay.before).bind fun r hr => ?_
  exact (hr.rectFallTest hplay).bind fun t ht => Answers.ok (ht.passOn hi s)

/-- Settles O52: the catch-up pass is the detector's on the old cycle, and the reset pass makes the reference's two tests. -/
theorem synrResult : Obligations.SynrResult :=
  ⟨fun _ idx hidx hw =>
    (synrRule_exact (Nat.lt_succ_of_le hidx) hw rfl).exec (cmd := .synr idx) (index_wellFormed hidx),
    iErrors_of_format (cmd := .synr) rfl index_illFormed⟩

/-! ## SYNT (R184) -/

/-- The triangle's sample has come to this state, with the ideal value of the pass in the local `x` of R184: `LASTV` is
written at the end alone. -/
structure Tracked (p : Pabli Rat) (x : Rat) (c : Pass) (r : Rat × Pabli Rat) : Prop where
  value : r.1 = c.value
  reached : Reached p r.2 x ⟨c.edge, r.2.lastv, c.pulses⟩

theorem Tracked.duty {v : Rat} (h : Tracked p x c (v, q)) : q.duty = p.duty := h.reached.duty

theorem Tracked.phase {v : Rat} (h : Tracked p x c (v, q)) : q.phase = x := h.reached.phase

theorem Tracked.edge {v : Rat} (h : Tracked p x c (v, q)) : q.edge = c.edge := h.reached.edge

/-- Any state of the sample, with any value in the local. -/
theorem Reached.track (h : Reached p q x c) (v : Rat) : Tracked p x ⟨c.edge, v, c.pulses⟩ (v, q) where
  value := rfl
  reached := h.setLastv q.lastv

/-- Writing `LASTV` from the local. -/
theorem Tracked.store {v : Rat} (h : Tracked p x c (v, q)) : Reached p { q with lastv := v } x c := by
  obtain rfl := h.value
  exact h.reached.setLastv c.value

/-- The segment's change and the slope of a break or a wrap. -/
theorem Tracked.slope {v y m phi : Rat} {edge : Edge} (h : Tracked p x c (v, q)) (hw : p.w ≠ 0) :
    Answers (injectSlope exactOps phi m q) fun r =>
      Tracked p x ⟨edge, y, c.pulses ++ [.slope phi m]⟩ (y, { r with edge := edge }) :=
  (h.reached.slope hw phi m).mono fun _ hr => (hr.setEdge edge).track y

theorem Tracked.triCatchBreak {v : Rat} (h : Tracked p x c (v, q)) (hw : p.w ≠ 0) (h1 : p.duty ≠ 1) :
    Answers (triCatchBreak exactOps ⟨1 - p.duty, refMup p.duty⟩ eof par v q)
      (Tracked p x (c.cross p.duty par (triBreakPass p.duty par (par - p.duty + eof)))) := by
  simp only [Machine.triCatchBreak, exact_ge, exact_sub, exact_add, exact_neg, ok_bind, h.duty, vfall_exact h1,
    decide_eq_true_eq]
  split
  case isTrue hx =>
    rw [Pass.cross_of_le hx]
    exact (h.slope hw).bind fun r hr => .ok hr
  case isFalse hx =>
    rw [Pass.cross_of_not_le hx]
    exact .ok h

theorem Tracked.triCatchWrap {v b1 : Rat} (h : Tracked p x c (v, q)) (hw : p.w ≠ 0) (h0 : p.duty ≠ 0) :
    Answers (triCatchWrap exactOps ⟨b1, refMup p.duty⟩ eof par v q) fun r =>
      r.1 = wrapped par ∧ Tracked p x (c.cross 1 par (triWrapPass p.duty (par - 1) (par - 1 + eof))) r.2 := by
  simp only [Machine.triCatchWrap, exact_ge, exact_sub, exact_add, exact_one, ok_bind, h.duty, vrise_exact h0,
    decide_eq_true_eq]
  split
  case isTrue hx =>
    rw [Pass.cross_of_le hx]
    exact (h.slope hw).bind fun r hr => .ok ⟨(wrapped_of_le hx).symm, hr⟩
  case isFalse hx =>
    rw [Pass.cross_of_not_le hx]
    exact .ok ⟨(wrapped_of_not_le hx).symm, h⟩

/-- The catch-up pass is the detector's pass on the old cycle's phase, every offset increased by `eof` (R185). -/
theorem Reached.triCatchUp {v : Rat} (h : Reached p q x ⟨p.edge, v, []⟩) (hw : p.w ≠ 0) (h0 : p.duty ≠ 0)
    (h1 : p.duty ≠ 1) :
    Answers (triCatchUp exactOps ⟨1 - p.duty, refMup p.duty⟩ eof par q)
      (Tracked p x (triPass p.duty eof p.edge par)) := by
  rw [Machine.triCatchUp, h.edge, h.duty]
  cases hedge : p.edge <;> rw [hedge] at h
  case a =>
    rw [triPass_a, vrise_exact h0, ok_bind]
    refine ((h.track _).triCatchBreak hw h1).bind fun ⟨v', q'⟩ hq => ?_
    exact (hq.triCatchWrap hw h0).bind fun r hr => .ok hr.2
  case b =>
    rw [triPass_b, vfall_exact h1, ok_bind]
    refine ((h.track _).triCatchWrap hw h0).bind fun ⟨par', v', q'⟩ ⟨hpar, hq⟩ => ?_
    obtain rfl : par' = _ := hpar
    generalize Pass.cross _ 1 par _ = c at hq ⊢
    dsimp only
    rw [hq.edge]
    cases hc : c.edge
    case a => exact hq.triCatchBreak hw h1
    case b => exact Answers.ok hq

/-- The last test of the reset pass is the catch-up's test, on the new cycle's phase with no further offset. -/
theorem triResetBreak_eq (k : TriConsts Rat) (v : Rat) (q : Pabli Rat) :
    triResetBreak exactOps k v q = triCatchBreak exactOps k 0 q.phase v q := by
  simp only [triResetBreak, triCatchBreak, exact_sub, exact_add, ok_bind, add_zero]

theorem Tracked.triResetBreak {v : Rat} (h : Tracked p x c (v, q)) (hw : p.w ≠ 0) (h1 : p.duty ≠ 1) :
    Answers (triResetBreak exactOps ⟨1 - p.duty, refMup p.duty⟩ v q)
      (Tracked p x (c.cross p.duty x (triBreakPass p.duty x (x - p.duty)))) := by
  rw [triResetBreak_eq, h.phase]
  simpa only [add_zero] using h.triCatchBreak (eof := 0) (par := x) hw h1

theorem Reached.triResetSlope {b1 : Rat} (h : Reached p q x c) (hw : p.w ≠ 0) :
    Answers (triResetSlope exactOps ⟨b1, refMup p.duty⟩ q) fun r =>
      Reached p r x ⟨c.edge, c.value, c.pulses ++ if c.edge = .b then [.slope x (refMup p.duty)] else []⟩ := by
  rw [Machine.triResetSlope, h.edge, h.phase]
  obtain ⟨edge, value, pulses⟩ := c
  cases edge
  case a =>
    simp only [reduceCtorEq, if_false, List.append_nil]
    exact .ok h
  case b => exact h.slope hw x _

/-- The pass after the reset's slope and step, in the rising segment of the new cycle (R184). -/
def Pass.triJump (c : Pass) (duty eof : Rat) : Pass :=
  ⟨.a, refRise duty eof,
    c.pulses ++ (if c.edge = .b then [.slope eof (refMup duty)] else []) ++ [.step eof (-1 / 2 - c.value)]⟩

theorem triReset_eq (duty eof : Rat) (c : Pass) :
    triReset duty eof c = (c.triJump duty eof).cross duty eof (triBreakPass duty eof (eof - duty)) := rfl

theorem Tracked.triResetPass {v : Rat} (h : Tracked p x c (v, q)) (hw : p.w ≠ 0) (h0 : p.duty ≠ 0) (h1 : p.duty ≠ 1) :
    Answers (triResetPass exactOps ⟨1 - p.duty, refMup p.duty⟩ v q) fun r => Reached p r x (triReset p.duty x c) := by
  obtain rfl : v = c.value := h.value
  rw [Machine.triResetPass, triReset_eq]
  refine (h.reached.triResetSlope hw).bind fun q' hq => ?_
  rw [exact_sub, exact_negHalf, ok_bind, hq.phase]
  refine (hq.step hw x _).bind fun r hr => ?_
  have hrise : vrise exactOps r.duty r.phase = .ok (refRise p.duty x) := by rw [hr.duty, hr.phase, vrise_exact h0]
  rw [hrise, ok_bind]
  have hjump : Tracked p x (c.triJump p.duty x) (refRise p.duty x, { r with edge := .a }) := (hr.setEdge .a).track _
  exact (hjump.triResetBreak hw h1).bind fun ⟨v, t⟩ ht => Answers.ok ht.store

theorem syntRule_exact (hi : i < 1024) (h0 : p.duty ≠ 0) (h1 : p.duty ≠ 1) (hw : p.w ≠ 0)
    (hs : readWord exactOps p (wordAddr .syncIn i) = s) :
    Answers (syntRule exactOps i p) fun q => SampleDone p q i (triSync p s) := by
  rw [syntRule, triConsts_exact h0 h1, ok_bind, syncStart_exact hs, ok_bind]
  refine ((Reached.restart p _).triCatchUp hw h0 h1).bind fun ⟨v, q⟩ hq => ?_
  exact (hq.triResetPass hw h0 h1).bind fun r hr => Answers.ok (hr.passOn hi s)

/-- Settles O53: as O52, with the old cycle's value carried from the catch-up pass to the reset step. -/
theorem syntResult : Obligations.SyntResult :=
  ⟨fun _ idx hidx h0 h1 hw =>
    (syntRule_exact (Nat.lt_succ_of_le hidx) h0 h1 hw rfl).exec (cmd := .synt idx) (index_wellFormed hidx),
    iErrors_of_format (cmd := .synt) rfl index_illFormed⟩

/-! ## The phase after a hard sync (R186) -/

/-- A hard sync of any shape leaves the phase `eof`, which depends on the sync word and the increment alone. -/
theorem hardSync_answers {idx : BitVec 16} {cmd : Instr} (hw : p.w ≠ 0)
    (hcmd : cmd = .syns idx ∨ cmd = .synr idx ∨ (cmd = .synt idx ∧ p.duty ≠ 0 ∧ p.duty ≠ 1)) :
    Answers (ruleOf exactOps cmd p)
      (Oscillator p.w p.duty (refEof (readWord exactOps p (wordAddr .syncIn idx.toNat)) p.w)) := by
  rcases hcmd with rfl | rfl | ⟨rfl, h0, h1⟩
  · exact synsRule_answers hw (Oscillator.self p) _
  · exact synrRule_answers hw (Oscillator.self p) _
  · exact syntRule_answers hw h0 h1 (Oscillator.self p) _

/-- Settles O54: with `EPS + e` in `SYNC_IN[idx]`, that phase `(s - EPS) * W` is `e * W`. -/
theorem syncPhaseFidelity : Obligations.SyncPhaseFidelity := by
  intro p idx e cmd hidx hw hcmd hs
  have hok : cmd.wellFormed = true := by
    rcases hcmd with rfl | rfl | ⟨rfl, -⟩ <;> exact index_wellFormed hidx
  have hphase : refEof (readWord exactOps p (wordAddr .syncIn idx.toNat)) p.w = e * p.w := by
    rw [hs, refEof, add_sub_cancel_left]
  exact ((hardSync_answers hw hcmd).mono fun q hq => hq.phase.trans hphase).exec hok

end Sys2Proof.Machine
end

section
/-! PROOFS. The error flag and the waiting core (R201, R202, R205, R210). -/

namespace Sys2Proof.Machine

variable {Num : Type} {p : Pabli Num}

/-! ## A core without a move to make (R210) -/

theorem moveOn_eq_idle (N : NumOps Num) (mk : Pabli Num → Configured) (h : p.host = []) : moveOn N mk p = .idle := by
  rw [moveOn, h]

theorem step_of_idle {s : State} (h : nextMove s = .idle) : step s = .next s := by
  rw [step, h]

/-- Settles O8: an empty list of host moves makes the next move `idle`, with which the step answers its own state. -/
theorem idleCoreWaits : Obligations.IdleCoreWaits :=
  ⟨fun _ hp => step_of_idle (moveOn_eq_idle exactOps .exact hp),
    fun _ hp => step_of_idle (moveOn_eq_idle b32Ops .b32 hp)⟩

/-! ## The error flag (R201) -/

/-- The first error is recorded. -/
theorem raiseErr_of_no_err (code : ErrCode) (h : p.err = false) :
    raiseErr code p = { p with err := true, errcode := errCodeBits code, busy := false } :=
  if_neg (Bool.eq_false_iff.1 h)

/-- A later error is not. -/
theorem raiseErr_of_err (code : ErrCode) (h : p.err = true) : raiseErr code p = { p with busy := false } :=
  if_pos h

/-- The word of `CLRERR` has bit 1 set (R98). -/
theorem writeStatus_clrErr (p : Pabli Num) : writeStatus 0x00000002 p = clearErr p :=
  if_pos rfl

/-- `CLRERR` clears the error of an idle core and changes nothing else. -/
theorem CoreLaws.clrErr {N : NumOps Num} {mk : Pabli Num → State} (laws : CoreLaws N mk) (hp : p.busy = false) :
    step (mk (asked clrErrMove p)) = .next (mk (clearErr p)) := by
  rw [clrErrMove, laws.write_status hp, writeStatus_clrErr]

/-- Settles O19: `raiseErr` in its two cases, and `CLRERR` as the write of `STATUS` that clears. -/
theorem firstErrorSticks : Obligations.FirstErrorSticks :=
  ⟨bothCores_of_coreLaws fun _ _ _ laws _ code =>
      ⟨raiseErr_of_no_err code, raiseErr_of_err code, laws.clrErr⟩,
    rfl, rfl, rfl, rfl, rfl⟩

end Sys2Proof.Machine
end

section
/-! PROOFS. Accesses while BUSY and the reset input (R230, R231, R236). -/

namespace Sys2Proof.Machine

variable {Num : Type} {N : NumOps Num} {p : Pabli Num}

/-! ## The moves allowed while BUSY (R236) -/

theorem locate_eq_status {a : Nat} : locate a = some .status ↔ a = 4 := by
  constructor
  · intro h
    unfold locate at h
    split at h
    case h_2 => rfl
    case h_19 => split_ifs at h <;> cases h
    all_goals cases h
  · rintro rfl
    rfl

/-- `STATUS` is reached at its own address only. -/
theorem target_eq_status {addr : BitVec 18} {width : Nat} :
    target addr width = some .status ↔ addr = 0x04 ∧ width = 4 := by
  constructor
  · intro h
    obtain ⟨-, hw, hl⟩ := target_some h
    exact ⟨BitVec.eq_of_toNat_eq (locate_eq_status.1 hl), hw⟩
  · rintro ⟨rfl, rfl⟩
    rfl

theorem allowedWhileBusy_iff {m : HostMove Num} : allowedWhileBusy m = true ↔ m = .read 0x04 4 ∨ m = .hwReset := by
  cases m with
  | read addr width => simp [allowedWhileBusy, target_eq_status]
  | write addr width v => simp [allowedWhileBusy]
  | hwReset => simp [allowedWhileBusy]

/-! ## The machine's one fault (R236) -/

theorem finishCommand_ne_fault {o : Host.Outcome State Fault Refusal} (h : ∀ f, o ≠ .fault f) (f : Fault) :
    finishCommand o ≠ .fault f := by
  cases o with
  | next t => simp [finishCommand]
  | refused r => simp [finishCommand]
  | fault g => exact absurd rfl (h g)

theorem runCommand_ne_fault (c : Word) (s : State) (f : Fault) : runCommand c s ≠ .fault f := by
  unfold runCommand
  split
  · exact finishCommand_ne_fault (exec_ne_fault _ _) f
  · simp

/-- A move of the host that is taken raises no fault. -/
theorem takeMove_outcome_ne_fault (N : NumOps Num) (mk : Pabli Num → Configured) (m : HostMove Num) (p : Pabli Num) (s : State)
    (f : Fault) : (takeMove N mk m p).outcome s ≠ .fault f := by
  rcases takeMove_cases N mk m p with ⟨r, ht⟩ | ⟨q, -, ht⟩ | ⟨c, ht⟩
  · simp [ht, Move.outcome]
  · simp [ht, Move.outcome]
  · rw [ht]
    exact runCommand_ne_fault c _ f

theorem moveOn_cons {m : HostMove Num} {rest : List (HostMove Num)} (mk : Pabli Num → Configured) (hh : p.host = m :: rest) :
    moveOn N mk p =
      if p.busy && !allowedWhileBusy m then .stuck .hostAccessWhileBusy else takeMove N mk m { p with host := rest } := by
  rw [moveOn, hh]

/-- The next move faults exactly when it is not taken: a busy core, and a move not allowed while `BUSY = 1`. -/
theorem moveOn_outcome_eq_fault {mk : Pabli Num → Configured} {s : State} {f : Fault} :
    (moveOn N mk p).outcome s = .fault f ↔
      f = .hostAccessWhileBusy ∧ p.busy = true ∧
        ∃ m rest, p.host = m :: rest ∧ m ≠ .read 0x04 4 ∧ m ≠ .hwReset := by
  cases hh : p.host with
  | nil => simp [moveOn_eq_idle N mk hh, Move.outcome]
  | cons m rest =>
    have hallowed : allowedWhileBusy m = false ↔ m ≠ .read 0x04 4 ∧ m ≠ .hwReset := by
      rw [← Bool.not_eq_true, allowedWhileBusy_iff, not_or]
    rw [moveOn_cons mk hh]
    split
    · rename_i hstuck
      obtain ⟨hbusy, hm⟩ : p.busy = true ∧ allowedWhileBusy m = false := by simpa using hstuck
      constructor
      · intro h
        exact ⟨(Host.Outcome.fault.inj h).symm, hbusy, m, rest, rfl, hallowed.1 hm⟩
      · rintro ⟨rfl, -⟩
        rfl
    · rename_i htaken
      refine iff_of_false (takeMove_outcome_ne_fault N mk m _ s f) ?_
      rintro ⟨-, hbusy, m', rest', heq, hm⟩
      obtain ⟨rfl, -⟩ := List.cons.inj heq
      exact htaken (by rw [hbusy, hallowed.2 hm]; rfl)

/-- Settles O20: a step faults only where the host's move is not taken, since no command and no taken move faults. -/
theorem onlyBusyAccessFaults : Obligations.OnlyBusyAccessFaults :=
  ⟨fun p _ => by rw [step_eq_outcome]; exact moveOn_outcome_eq_fault (p := p),
    fun p _ => by rw [step_eq_outcome]; exact moveOn_outcome_eq_fault (p := p)⟩

/-! ## The reset input (R230) -/

/-- The reset input is taken in every state, idle or not. -/
theorem moveOn_hwReset (N : NumOps Num) (mk : Pabli Num → Configured) (p : Pabli Num) :
    moveOn N mk (asked .hwReset p) = .done (.next ⟨mk (hwReset N p)⟩) := by
  have htaken : ¬((asked .hwReset p).busy && !allowedWhileBusy (HostMove.hwReset (Num := Num))) = true := by
    simp [allowedWhileBusy]
  rw [moveOn_cons (p := asked .hwReset p) mk rfl, if_neg htaken]
  rfl

/-- What the configurations share about the two resets: the reset input is one step in every state, and a write of zero is
seen as one, so that it unlists its `BUF` cell. -/
structure ResetLaws (N : NumOps Num) (mk : Pabli Num → State) : Prop extends RuleLaws N mk where
  hardware : ∀ p, step (mk (asked .hwReset p)) = .next (mk (hwReset N p))
  isZero_zero : N.isZero N.zero = true

theorem resetLaws_exact : ResetLaws exactOps exactState where
  toRuleLaws := ruleLaws_exact
  hardware p := (step_eq_outcome _).trans (congrArg (Move.outcome _) (moveOn_hwReset exactOps .exact p))
  isZero_zero := by simp [exactOps]

theorem resetLaws_b32 : ResetLaws b32Ops b32State where
  toRuleLaws := ruleLaws_b32
  hardware p := (step_eq_outcome _).trans (congrArg (Move.outcome _) (moveOn_hwReset b32Ops .b32 p))
  isZero_zero := rfl

theorem bothCores_of_resetLaws {P : (Num : Type) → NumOps Num → (Pabli Num → State) → Prop}
    (h : ∀ (Num : Type) (N : NumOps Num) (mk : Pabli Num → State), ResetLaws N mk → P Num N mk) : BothCores P :=
  ⟨h _ _ _ resetLaws_exact, h _ _ _ resetLaws_b32⟩

theorem resetRegisters_hwReset (N : NumOps Num) (p : Pabli Num) : ResetRegisters N (hwReset N p) :=
  { resetRegisters_resetPabli N with }

/-- Outside the tables the reset input leaves nothing listed. -/
theorem readWord_hwReset {addr : Nat} (ha : isRomAddr addr = false) :
    readWord N (hwReset N p) addr = unlistedWord N (p.powerOns + 1) addr := by
  simp [readWord, hwReset, memFind_filter p.mem isRomAddr addr, ha]

theorem buf_not_rom {addr : Nat} (h : isBufAddr addr = true) : isRomAddr addr = false := by
  refine Bool.eq_false_iff.2 fun hr => ?_
  rw [(rom_not_cell hr).1] at h
  cases h

theorem ram_not_rom {addr : Nat} (h : isRamAddr addr = true) : isRomAddr addr = false := by
  refine Bool.eq_false_iff.2 fun hr => ?_
  rw [(rom_not_cell hr).2] at h
  cases h

theorem bufRead_hwReset {k : Nat} (hk : k < 328) : bufRead N (hwReset N p) k = N.zero := by
  have hbuf := isBufAddr_bufAddr.2 hk
  rw [bufRead, readWord_hwReset (buf_not_rom hbuf), unlistedWord, if_pos hbuf]

theorem readWord_hwReset_ram {addr : Nat} (ha : isRamAddr addr = true) :
    readWord N (hwReset N p) addr = N.ram (p.powerOns + 1) addr := by
  rw [readWord_hwReset (ram_not_rom ha)]
  simp [unlistedWord, ram_not_buf ha, ram_not_rom ha]

/-- Settles O22: the registers are those of the starting state, and only table words stay listed. -/
theorem hardwareReset : Obligations.HardwareReset :=
  bothCores_of_resetLaws fun _ N _ laws p =>
    ⟨hwReset N p, laws.hardware p, resetRegisters_hwReset N p, fun _ => bufRead_hwReset, hwReset_romKept,
      fun _ => readWord_hwReset_ram, rfl, rfl⟩

/-! ## RESET SAW after the reset input (R231) -/

theorem memErase_of_unlisted {m : Memory Num} {addr : Nat} (h : ∀ e ∈ m, e.1 ≠ addr) : memErase m addr = m :=
  List.filter_eq_self.2 fun e he => decide_eq_true (h e he)

/-- A cell of `BUF` that is not listed is already 0. -/
theorem bufWrite_zero_of_unlisted (hz : N.isZero N.zero = true) {k : Nat} (hk : k < 328)
    (h : ∀ e ∈ p.mem, e.1 ≠ bufAddr k) : bufWrite N p k N.zero = p := by
  have hmem : memWrite N p.mem (bufAddr k) N.zero = p.mem := by
    rw [memWrite, isBufAddr_bufAddr.2 hk, hz, Bool.and_self, if_pos rfl, memErase_of_unlisted h]
  rw [bufWrite, writeWord, hmem]

/-- With no cell of `BUF` listed there is nothing to clear. -/
theorem clearCells_of_unlisted (hz : N.isZero N.zero = true) (h : ∀ e ∈ p.mem, isBufAddr e.1 = false) {first count : Nat}
    (hc : first + count ≤ 328) : clearCells N p first count = p := by
  induction count with
  | zero => rfl
  | succ n ih =>
    have hcell : first + n < 328 := by omega
    rw [clearCells, ih (by omega)]
    refine bufWrite_zero_of_unlisted hz hcell fun e he heq => ?_
    have hbuf := h e he
    rw [heq, isBufAddr_bufAddr.2 hcell] at hbuf
    cases hbuf

theorem hwReset_buf_unlisted : ∀ e ∈ (hwReset N p).mem, isBufAddr e.1 = false :=
  fun _ he => (rom_not_cell (List.mem_filter.1 he).2).1

/-- `RESET SAW` has nothing left to do after the reset input. -/
theorem resetRule_hwReset (hz : N.isZero N.zero = true) : resetRule N .saw (hwReset N p) = hwReset N p := by
  rw [resetRule, clearCells_of_unlisted hz hwReset_buf_unlisted (by decide)]
  rfl

/-- Settles O23: the registers `RESET SAW` writes hold their reset values, and no cell of `BUF` is listed. -/
theorem resetSawAfterHardwareReset : Obligations.ResetSawAfterHardwareReset :=
  bothCores_of_resetLaws fun _ N _ laws p q h => by
    rw [laws.hardware p] at h
    obtain rfl : hwReset N p = q := laws.injective (Host.Outcome.next.inj h)
    exact laws.exec_of_rule (i := .reset .saw) rfl (congrArg Except.ok (resetRule_hwReset laws.isZero_zero))

end Sys2Proof.Machine
end

section
/-! PROOFS. Where a rule has no answer: a division by a zero divisor under EXACT (U4, U6, U7, log 6), a non-finite word under
B32 (U3, log 5). -/

namespace Sys2Proof.Machine

variable {Num : Type} {N : NumOps Num} {mk : Pabli Num → State}

/-- A command whose rule is refused is refused for the same reason. -/
theorem RuleLaws.exec_refused {p : Pabli Num} (laws : RuleLaws N mk) {i : Instr} {r : Refusal} (hi : i.wellFormed = true)
    (h : ruleOf N i p = .error r) : Machine.exec i (mk p) = .refused r := by
  rw [laws.outcome hi, h]
  rfl

/-- A bind is refused when one of its two parts is. -/
theorem bind_eq_error {ε α β : Type} {x : Except ε α} {f : α → Except ε β} {e : ε} :
    (x >>= f) = .error e ↔ x = .error e ∨ ∃ a, x = .ok a ∧ f a = .error e := by
  cases x <;> simp

/-! ## Zero divisors under EXACT (U4, U6, U7) -/

section
variable {p : Pabli Rat} {i : Nat}

/-- U4: the target increment divides by `FSAMP`. -/
theorem targetIncrement_exact_zero (hf : p.fsamp = 0) (i : Nat) :
    targetIncrement exactOps p i = .error .divideByZero := by
  rw [targetIncrement, hf, exact_div_zero, error_bind]

theorem bootRule_exact_zero (hf : p.fsamp = 0) : bootRule exactOps i p = .error .divideByZero := by
  rw [bootRule, targetIncrement_exact_zero hf, error_bind]

theorem smoothRule_exact_zero (hf : p.fsamp = 0) (cnt : Nat) : smoothRule exactOps cnt i p = .error .divideByZero := by
  rw [smoothRule, targetIncrement_exact_zero hf, error_bind]

/-- U6: an injection divides by `W` before it adds anything. -/
theorem injectStep_exact_zero (hw : p.w = 0) (phi m : Rat) : injectStep exactOps phi m p = .error .divideByZero := by
  rw [injectStep, hw, tableIndex_exact_zero, error_bind]

theorem injectSlope_exact_zero (hw : p.w = 0) (phi m : Rat) : injectSlope exactOps phi m p = .error .divideByZero := by
  rw [injectSlope, hw, tableIndex_exact_zero, error_bind]

/-- U6: the sync output of a wrap divides by `W`. -/
theorem wrapSync_exact_zero (phase : Rat) : wrapSync exactOps phase 0 = .error .divideByZero := by
  rw [wrapSync, exact_div_zero, error_bind]

theorem detsRule_exact_zero (hw : p.w = 0) (hx : 1 ≤ p.phase) : detsRule exactOps i p = .error .divideByZero := by
  rw [detsRule, exact_ge, ok_bind, exact_one, if_pos (decide_eq_true hx), exact_sub, ok_bind, hw, wrapSync_exact_zero,
    error_bind]

/-- The catch-up pass of the sawtooth meets the zero divisor if the old cycle wrapped, and leaves the state otherwise. -/
theorem sawCatchUp_exact_zero (hw : p.w = 0) (eof par : Rat) :
    sawCatchUp exactOps eof par p = .error .divideByZero ∨ sawCatchUp exactOps eof par p = .ok (par, p) := by
  rw [sawCatchUp, exact_ge, ok_bind, exact_one]
  by_cases hx : 1 ≤ par
  · left
    rw [if_pos (decide_eq_true hx), exact_sub, ok_bind, exact_add, ok_bind, injectStep_exact_zero hw, error_bind]
  · right
    rw [if_neg (by simpa using hx)]

/-- The reset step of `SYNS` is made in every case, so that it meets the zero divisor where the catch-up pass did not. -/
theorem synsRule_exact_zero (hw : p.w = 0) : synsRule exactOps i p = .error .divideByZero := by
  rw [synsRule, syncStart_exact rfl, ok_bind]
  have hw' (eof : Rat) : ({ p with phase := eof } : Pabli Rat).w = 0 := hw
  refine bind_eq_error.2 ((sawCatchUp_exact_zero (hw' _) _ _).imp_right fun h => ⟨_, h, ?_⟩)
  exact bind_eq_error.2 (.inl (injectStep_exact_zero (hw' _) _ _))

/-- U7: the slope jump of the triangle divides by `DUTY` and by `1 - DUTY`. -/
theorem triConsts_exact_zero {duty : Rat} (hd : duty = 0 ∨ duty = 1) :
    triConsts exactOps duty = .error .divideByZero := by
  rw [triConsts, exact_sub, ok_bind, exact_one]
  rcases hd with rfl | rfl
  · rw [exact_div_zero, error_bind]
  · rw [exact_div one_ne_zero, ok_bind, sub_self, exact_div_zero, error_bind]

theorem dettRule_exact_zero (hd : p.duty = 0 ∨ p.duty = 1) : dettRule exactOps i p = .error .divideByZero := by
  rw [dettRule, triConsts_exact_zero hd, error_bind]

theorem syntRule_exact_zero (hd : p.duty = 0 ∨ p.duty = 1) : syntRule exactOps i p = .error .divideByZero := by
  rw [syntRule, triConsts_exact_zero hd, error_bind]

end

/-- Settles O59: with these values no path of the rule avoids its zero divisor. -/
theorem zeroDivisorsRefused : Obligations.ZeroDivisorsRefused := by
  intro p idx cnt hidx hcnt
  have hok := index_wellFormed hidx
  refine ⟨fun hf => ⟨?boot, ?smooth⟩, fun hw => ⟨?injs, ?injl, ?syns, fun hx => ?dets⟩, fun hd => ⟨?dett, ?synt⟩⟩
  case boot => exact ruleLaws_exact.exec_refused (i := .boot idx) hok (bootRule_exact_zero hf)
  case smooth =>
    exact ruleLaws_exact.exec_refused (i := .smooth cnt idx) (smooth_wellFormed hcnt hidx) (smoothRule_exact_zero hf _)
  case injs => exact ruleLaws_exact.exec_refused (i := .injs) rfl (injectStep_exact_zero hw _ _)
  case injl => exact ruleLaws_exact.exec_refused (i := .injl) rfl (injectSlope_exact_zero hw _ _)
  case syns => exact ruleLaws_exact.exec_refused (i := .syns idx) hok (synsRule_exact_zero hw)
  case dets => exact ruleLaws_exact.exec_refused (i := .dets idx) hok (detsRule_exact_zero hw hx)
  case dett => exact ruleLaws_exact.exec_refused (i := .dett idx) hok (dettRule_exact_zero hd)
  case synt => exact ruleLaws_exact.exec_refused (i := .synt idx) hok (syntRule_exact_zero hd)

/-! ## Non-finite words under B32 (U3) -/

/-- Both operands of a B32 operation are read, so that a non-finite one leaves it without an answer. -/
theorem b32Both_nonFinite {β : Type} {x y : B32} (h : b32Finite x = false ∨ b32Finite y = false) (r : Except Refusal β) :
    b32Both x y r = .error .nonFinite := by
  have hxy : (b32Finite x && b32Finite y) = false := Bool.and_eq_false_iff.2 h
  rw [b32Both, hxy]
  rfl

section
variable {x y : B32} (h : b32Finite x = false ∨ b32Finite y = false)
include h

theorem b32_add_nonFinite : b32Ops.add x y = .error .nonFinite := b32Both_nonFinite h _
theorem b32_sub_nonFinite : b32Ops.sub x y = .error .nonFinite := b32Both_nonFinite h _
theorem b32_mul_nonFinite : b32Ops.mul x y = .error .nonFinite := b32Both_nonFinite h _

end

/-- A read answers with the word or is refused as non-finite. -/
theorem b32_read_eq (x : B32) : b32Ops.read x = if b32Finite x then .ok x else .error .nonFinite := rfl

theorem b32_read_nonFinite {x : B32} (h : b32Finite x = false) : b32Ops.read x = .error .nonFinite := by
  rw [b32_read_eq, h]
  rfl

theorem b32_read_error {x : B32} {r : Refusal} (h : b32Ops.read x = .error r) : r = .nonFinite := by
  rw [b32_read_eq] at h
  split at h
  · cases h
  · exact (Except.error.inj h).symm

section
variable {p : Pabli B32}

/-- Nothing but a non-finite word refuses the copy of the tail. -/
theorem copyTail_b32_error {count : Nat} {r : Refusal} (h : copyTail b32Ops p count = .error r) : r = .nonFinite := by
  induction count with
  | zero => cases h
  | succ n ih =>
    rcases bind_eq_error.1 h with h | ⟨q, -, h⟩
    · exact ih h
    · rcases bind_eq_error.1 h with h | ⟨v, -, h⟩
      · exact b32_read_error h
      · cases h

/-- The copy reads every word of the tail, so that it cannot answer when one of them is non-finite. -/
theorem copyTail_b32_nonFinite {count k : Nat} (hc : count ≤ 72) (hk : k < count)
    (h : b32Finite (bufRead b32Ops p (256 + k)) = false) : copyTail b32Ops p count = .error .nonFinite := by
  cases hq : copyTail b32Ops p count with
  | error r => rw [copyTail_b32_error hq]
  | ok q =>
    have hread := (copyTail_ok b32Ops_zeroLaw hc hq).2 k hk
    rw [b32_read_nonFinite h] at hread
    cases hread

theorem advRule_b32_nonFinite (h : b32Finite p.phase = false) : advRule b32Ops p = .error .nonFinite := by
  rw [advRule, b32_add_nonFinite (.inl h), error_bind]

theorem coefRule_b32_nonFinite (h : b32Finite p.lowpass = false) : coefRule b32Ops p = .error .nonFinite := by
  rw [coefRule, b32_mul_nonFinite (.inr h), error_bind]

theorem depRule_b32_nonFinite (h : b32Finite p.lastv = false) : depRule b32Ops p = .error .nonFinite := by
  rw [depRule, bufAdd, b32_add_nonFinite (.inr h), error_bind]

theorem rdsRule_b32_nonFinite (h : b32Finite (bufRead b32Ops p p.j.val) = false) (i : Nat) :
    rdsRule b32Ops i p = .error .nonFinite := by
  rw [rdsRule, b32_sub_nonFinite (.inl h), error_bind]

theorem rotRule_b32_nonFinite {k : Nat} (hk : k < 72) (hj : p.j.val = 255)
    (h : b32Finite (bufRead b32Ops p (256 + k)) = false) : rotRule b32Ops p = .error .nonFinite := by
  rw [rotRule_fold b32Ops hj, foldBuffer, copyTail_b32_nonFinite le_rfl hk h, error_bind]

end

/-- Settles O60: each rule reads its word on every path, and a refused read refuses the whole rule. -/
theorem nonFiniteWordsRefused : Obligations.NonFiniteWordsRefused := by
  refine fun p idx hidx =>
    ⟨fun h => ?adv, fun h => ?coef, fun h => ?dep, fun h => ?rds, fun k hk hj h => ?rot⟩
  case adv => exact ruleLaws_b32.exec_refused (i := .adv) rfl (advRule_b32_nonFinite h)
  case coef => exact ruleLaws_b32.exec_refused (i := .coef) rfl (coefRule_b32_nonFinite h)
  case dep => exact ruleLaws_b32.exec_refused (i := .dep) rfl (depRule_b32_nonFinite h)
  case rds => exact ruleLaws_b32.exec_refused (i := .rds idx) (index_wellFormed hidx) (rdsRule_b32_nonFinite h _)
  case rot => exact ruleLaws_b32.exec_refused (i := .rot) rfl (rotRule_b32_nonFinite hk hj h)

end Sys2Proof.Machine
end
